-- ==== Sys2Proof/Word.lean ====
section
/-! DEFINITION. The word types of the AM550-TDC (spec/00_scope.md R9, R11): bytes, the 16-bit CRC register, the 32-bit
reading fields and the 16-byte blocks. All integers are unsigned; bit 7 of a byte is its most significant bit. -/

namespace Sys2Proof

/-- A byte: 8 bits, bit 7 the most significant (R9). -/
abbrev Byte := BitVec 8

/-- 16 bits: the CRC register, `CRC_CALC` and the embedded CRC field (R26, R100). -/
abbrev Half := BitVec 16

/-- 32 bits: a reading field, and an AES word whose byte 0 is bits 31..24 (R24, R175). -/
abbrev Word := BitVec 32

/-- 16 bytes, byte 0 in bits 127..120: a key, an initialization vector, an AES block (R43 lays `cmd_key` out so; R63, R175). -/
abbrev Block := BitVec 128

end Sys2Proof
end

