-- ==== Sys2Proof/Config.lean ====
section
/-! DEFINITION. What is fixed for an instance: the fixed parameters of spec/00_scope.md R5 and the open parameter record `P`
of R6, R7. `P` is never chosen here: a machine carries its own (`State.params`), and `Params.p0` is only the reference
configuration that R6 names. The model needs no free value: the spec leaves no result of an operation open
(spec/93_implementation_defined.md part 1 gives every item another treatment). -/

namespace Sys2Proof

namespace Config

/-- `FRAME_LEN`, R5. -/
abbrev frameLen : Nat := 105
/-- `MARKER`, R5. -/
abbrev marker : Byte := 0x7E
/-- `HDR1`, R5. -/
abbrev hdr1 : Byte := 0xA0
/-- `HDR2`, R5. -/
abbrev hdr2 : Byte := 0x67
/-- `BODY_LEN`, R5: bytes read after the 3-byte header. -/
abbrev bodyLen : Nat := 102
/-- `CRC_FIRST`, R5. -/
abbrev crcFirst : Nat := 1
/-- `CRC_LAST`, R5 (inclusive). -/
abbrev crcLast : Nat := 101
/-- `CRC_POLY`, R5: the most-significant-bit-first form. -/
abbrev crcPoly : Half := 0x1021
/-- `CRC_INIT`, R5. -/
abbrev crcInit : Half := 0xFFFF
/-- `CRC_XOROUT`, R5. -/
abbrev crcXorOut : Half := 0xFFFF
/-- `ST_LEN`, R5: bytes of SystemTitle. -/
abbrev stLen : Nat := 8
/-- `IC_LEN`, R5: bytes of InvocationCounter. -/
abbrev icLen : Nat := 4
/-- `IV_SUFFIX`, R5. -/
abbrev ivSuffix : List Byte := [0x00, 0x00, 0x00, 0x02]
/-- `FLD_LEN`, R5: bytes of each reading field. -/
abbrev fldLen : Nat := 4
/-- `ENERGY_DIV`, R5. -/
abbrev energyDiv : Nat := 1000
/-- `OFF_CRC`, R5 (derived there from R90 and R95). -/
abbrev offCrc : Nat := 102
/-- `OFF_END`, R5. -/
abbrev offEnd : Nat := 104
/-- The most CipherText bytes a well-formed `P` allows (R190: `OFF_CT` ≥ 15 and `OFF_CT` + `LEN_CT` ≤ 102). -/
abbrev maxLenCt : Nat := 87

end Config

/-- The open parameters `P` of R6: where SystemTitle, InvocationCounter and CipherText stand in the frame, how long the
CipherText is, and where the eight reading fields stand in the PlainText. -/
structure Params where
  /-- `OFF_ST` -/
  offSt : Nat
  /-- `OFF_IC` -/
  offIc : Nat
  /-- `OFF_CT` -/
  offCt : Nat
  /-- `LEN_CT` -/
  lenCt : Nat
  /-- `OFF_FLD[0..7]` -/
  offFld : Vector Nat 8
  deriving DecidableEq, Repr

/-- R7: the constraints of R6's table, the regions in the order of the wire layout (which makes them disjoint). The fit of
the reading fields is deliberately not part of it. -/
abbrev Params.WellFormed (P : Params) : Prop :=
  3 ≤ P.offSt ∧ P.offSt + 8 ≤ 102 ∧ 3 ≤ P.offIc ∧ P.offIc + 4 ≤ 102 ∧ 3 ≤ P.offCt ∧ 1 ≤ P.lenCt ∧
    P.offCt + P.lenCt ≤ 102 ∧ P.offSt + 8 ≤ P.offIc ∧ P.offIc + 4 ≤ P.offCt

/-- R226: every reading field lies inside the PlainText. -/
abbrev Params.FieldsFit (P : Params) : Prop :=
  ∀ k : Fin 8, P.offFld[k] + 4 ≤ P.lenCt

/-- The reference configuration `P0` of R6 (from general knowledge, spec/93_implementation_defined.md GK1). PRESUMED, log 1. -/
def Params.p0 : Params :=
  { offSt := 14, offIc := 24, offCt := 28, lenCt := 74, offFld := #v[35, 40, 45, 50, 55, 60, 65, 70] }

end Sys2Proof
end

