-- ==== Sys2Proof/Syntax.lean ====
section
/-! DEFINITION. The names of the machine (stages, FrameReader states, decode errors) and its operations, one constructor of
`Instr` per row of spec/opcode_table.json. The block has no instruction set: an "instruction" is an operation of the block
(spec/30_encoding.md R102, R108). -/

namespace Sys2Proof

/-- `STAGE`, spec/10_state.md R29. -/
inductive Stage where
  | idle | framing | validating | decrypting | extracting | complete
  deriving DecidableEq, Repr

/-- `FR_STATE`, spec/10_state.md R27. -/
inductive FrState where
  | searching | matchingHeader | readingBody | done | failed
  deriving DecidableEq, Repr

/-- `DecodeError`, spec/60_exceptions.md R260: exactly four. -/
inductive DecodeError where
  | incompleteFrame | crcMismatch | decryptionFailure | fieldOutOfRange
  deriving DecidableEq, Repr

/-- What selects an operation besides the event and the byte: the triple that plays the program counter's part (R28, R102). -/
structure Context where
  stage : Stage
  frState : FrState
  len : BitVec 7
  deriving DecidableEq, Repr

/-- The nine FrameReader operations that a received byte selects (R102). `skip`, `miss`, `body` and `badend` keep the byte;
the others fix it. -/
inductive RxOp where
  | mark | skip (b : Byte) | remark | hdr1 | hdr2 | miss (b : Byte) | body (b : Byte) | endFrame | badend (b : Byte)
  deriving DecidableEq, Repr

/-- The operations of the block, in the order of spec/opcode_table.json's families. Functions carry their operands. -/
inductive Instr where
  -- host and platform events
  | reset
  | abort
  | loadKey (k : Block)
  | start
  | nop
  -- FrameReader
  | frMark
  | frSkip (b : Byte)
  | frRemark
  | frHdr1
  | frHdr2
  | frMiss (b : Byte)
  | frBody (b : Byte)
  | frEnd
  | frBadend (b : Byte)
  | frTimeout
  -- run by the sequencer
  | validate
  | decrypt
  | deriveIv
  | extract
  | raise (e : DecodeError)
  | complete
  -- functions of the CrcValidator
  | mirror8 (b : Byte)
  | crc16Update (reg : Half) (b : Byte)
  | crc16 (seq : List Byte)
  -- functions of the FrameDecryptor
  | subBytes (st : Block)
  | shiftRows (st : Block)
  | mixColumns (st : Block)
  | addRoundKey (st rk : Block)
  | keyExpansion (key : Block)
  | aes128 (key blk : Block)
  | inc128 (blk : Block)
  | keystream (key iv : Block) (lenCt : Nat)
  | ctrXor (ks : List Block)
  -- functions of the ReadingExtractor
  | u32be (o : Nat)
  | scaleEnergy (v : Word)
  | powerValue (v : Word)
  -- the 105-byte frame offered whole: `b` bytes of offsets 3..101, then the CRC field
  | frame (body : List Byte) (crc : Half)
  deriving DecidableEq, Repr

/-- The operation of the opcode table that a byte selection stands for. -/
def RxOp.toInstr : RxOp → Instr
  | .mark => .frMark
  | .skip b => .frSkip b
  | .remark => .frRemark
  | .hdr1 => .frHdr1
  | .hdr2 => .frHdr2
  | .miss b => .frMiss b
  | .body b => .frBody b
  | .endFrame => .frEnd
  | .badend b => .frBadend b

end Sys2Proof
end

