-- ==== Sys2Proof/WellFormed.lean ====
section
/-! DEFINITION. Which operands an operation can carry: the byte conditions of the operation map (spec/30_encoding.md R101,
R102), the frame's 99 uninterpreted bytes (R90, R108), and the bounds that a well-formed `P` puts on the operands of the
FrameDecryptor's and ReadingExtractor's functions (spec/43_frame_decryptor.md R190, spec/44_reading_extractor.md R221). -/

namespace Sys2Proof

/-- Well-formed operations. A byte sequence given to `crc16` has at most 65535 bytes, which is the model's own bound (the
record that carries it counts in two bytes; DESIGN CHOICE, log 4). -/
def Instr.wellFormed : Instr → Bool
  | .frSkip b => b != Config.marker
  | .frMiss b => b != Config.marker
  | .frBadend b => b != Config.marker
  | .crc16 seq => seq.length < 65536
  | .keystream _ _ lenCt => 1 ≤ lenCt && lenCt ≤ Config.maxLenCt
  | .ctrXor ks => ks.length ≤ 6
  | .u32be o => o + 4 ≤ Config.maxLenCt
  | .frame body _ => body.length == 99
  | .reset | .abort | .loadKey _ | .start | .nop => true
  | .frMark | .frRemark | .frHdr1 | .frHdr2 | .frBody _ | .frEnd | .frTimeout => true
  | .validate | .decrypt | .deriveIv | .extract | .raise _ | .complete => true
  | .mirror8 _ | .crc16Update _ _ => true
  | .subBytes _ | .shiftRows _ | .mixColumns _ | .addRoundKey _ _ | .keyExpansion _ | .aes128 _ _ | .inc128 _ => true
  | .scaleEnergy _ | .powerValue _ => true

end Sys2Proof
end

