-- ==== Sys2Proof/Decode.lean ====
section
/-! DEFINITION. Operation selection and the records of an event script.

The spec gives an input bit pattern to the FrameReader's byte operations (R101, R102), codes to the host commands (R103), a
layout to the frame (R90, R108) and none to the other rows of the operation table. `selectRx` is the map of R102 for a received
byte. An event script (R107) reaches the machine as a byte tape of records: one header byte, then the operand bytes, every
multi-byte operand big-endian (R66). Headers 0 to 3 are the command codes of R103; the other headers are the model's own
(DESIGN CHOICE, log 4). `decode` is total, rejects by name, and answers only well-formed operations; `encode` follows it. -/

namespace Sys2Proof

/-! ## Big-endian bytes (R66) -/

/-- The `n` low bytes of `v`, the most significant first. -/
def beBytes : Nat → Nat → List Byte
  | 0, _ => []
  | n + 1, v => BitVec.ofNat 8 (v >>> (8 * n)) :: beBytes n v

/-- The unsigned integer that a byte sequence denotes, the first byte most significant (R11 `MemRead`, R66). -/
def beNat (bs : List Byte) : Nat :=
  bs.foldl (fun acc b => acc * 256 + b.toNat) 0

/-- A block from its 16 bytes, byte 0 first (R175, R190). -/
def blockOfBytes (bs : List Byte) : Block :=
  BitVec.ofNat 128 (beNat bs)

/-- The 16 bytes of a block, byte 0 first. -/
def blockBytes (k : Block) : List Byte :=
  beBytes 16 k.toNat

/-! ## Codes (R103, R260) -/

/-- `ERR` codes of R260 (R30). -/
def DecodeError.code : DecodeError → Byte
  | .incompleteFrame => 1
  | .crcMismatch => 2
  | .decryptionFailure => 3
  | .fieldOutOfRange => 4

/-- The error with a given code. -/
def DecodeError.ofCode (c : Byte) : Option DecodeError :=
  if c = 1 then some .incompleteFrame
  else if c = 2 then some .crcMismatch
  else if c = 3 then some .decryptionFailure
  else if c = 4 then some .fieldOutOfRange
  else none

/-! ## The operation map (R102) -/

/-- The rows of R102 for `RX(b)`, tried from the top; `none` where no row holds: the byte is not accepted (R42). -/
def selectRx (ctx : Context) (b : Byte) : Option RxOp :=
  if ctx.stage = .framing then
    match ctx.frState with
    | .searching =>
      if ctx.len = 0 then
        if b = Config.marker then some .mark else some (.skip b)
      else none
    | .matchingHeader =>
      if ctx.len = 1 ∨ ctx.len = 2 then
        if b = Config.marker then some .remark
        else if ctx.len = 1 ∧ b = Config.hdr1 then some .hdr1
        else if ctx.len = 2 ∧ b = Config.hdr2 then some .hdr2
        else some (.miss b)
      else none
    | .readingBody =>
      if 3 ≤ ctx.len.toNat ∧ ctx.len.toNat ≤ 103 then some (.body b)
      else if ctx.len.toNat = 104 then
        if b = Config.marker then some .endFrame else some (.badend b)
      else none
    | .done => none
    | .failed => none
  else none

/-- The byte that an operation selected by `RX(b)` receives, and the operation itself. -/
def Instr.rxOp : Instr → Option (Byte × RxOp)
  | .frMark => some (Config.marker, .mark)
  | .frSkip b => some (b, .skip b)
  | .frRemark => some (Config.marker, .remark)
  | .frHdr1 => some (Config.hdr1, .hdr1)
  | .frHdr2 => some (Config.hdr2, .hdr2)
  | .frMiss b => some (b, .miss b)
  | .frBody b => some (b, .body b)
  | .frEnd => some (Config.marker, .endFrame)
  | .frBadend b => some (b, .badend b)
  | .reset | .abort | .loadKey _ | .start | .nop | .frTimeout => none
  | .validate | .decrypt | .deriveIv | .extract | .raise _ | .complete => none
  | .mirror8 _ | .crc16Update _ _ | .crc16 _ => none
  | .subBytes _ | .shiftRows _ | .mixColumns _ | .addRoundKey _ _ | .keyExpansion _ | .aes128 _ _ | .inc128 _ => none
  | .keystream _ _ _ | .ctrXor _ => none
  | .u32be _ | .scaleEnergy _ | .powerValue _ => none
  | .frame _ _ => none

/-- `i` is an operation that the map of R102 can select in `ctx`: any operation that no byte selects, and a byte operation
exactly where its row holds. -/
def Context.admits (ctx : Context) (i : Instr) : Prop :=
  match i.rxOp with
  | none => True
  | some (b, op) => selectRx ctx b = some op

/-! ## Records -/

/-- Why a record of the script is no event: each names what is wrong with it. -/
inductive Reject where
  /-- The header byte is none of the record headers. -/
  | unknownRecord (header : Byte)
  /-- The tape ends inside the record. -/
  | truncated
  /-- A `raise` record whose code is none of R260's. -/
  | unknownError (code : Byte)
  /-- A `FRAME` record whose fixed bytes are not those of R90. -/
  | notAFrame
  /-- An operand outside the bound that a well-formed `P` puts on it. -/
  | operandOutOfRange
  deriving DecidableEq, Repr

/-- What the head of the script holds. -/
inductive Fetched where
  /-- An operation, and the rest of the tape. -/
  | op (i : Instr) (rest : List Byte)
  /-- A byte offered where the map of R102 has no row for it: not accepted (R42). -/
  | notAccepted (rest : List Byte)
  /-- Nothing is offered. -/
  | idle
  /-- No record. -/
  | rejected (why : Reject)
  deriving DecidableEq, Repr

/-- Hands the first `n` bytes of a tape, and the rest of it, to `k`. -/
def withBytes (n : Nat) (tape : List Byte) (k : List Byte → List Byte → Fetched) : Fetched :=
  if n ≤ tape.length then k (tape.take n) (tape.drop n) else .rejected .truncated

/-- Cuts `n` blocks off a byte sequence. -/
def blocksOfBytes : Nat → List Byte → List Block
  | 0, _ => []
  | n + 1, bs => blockOfBytes (bs.take 16) :: blocksOfBytes n (bs.drop 16)

/-- The bytes of a sequence of blocks. -/
def bytesOfBlocks (ks : List Block) : List Byte :=
  ks.flatMap blockBytes

/-- The operation `FRAME` from 105 bytes, whose bytes 0, 1, 2 and 104 must be those of R90. -/
def frameOfBytes (bs : List Byte) : Option Instr :=
  match bs with
  | m :: h1 :: h2 :: t =>
    if m = Config.marker ∧ h1 = Config.hdr1 ∧ h2 = Config.hdr2 ∧ t.drop 101 = [Config.marker] then
      some (.frame (t.take 99) (BitVec.ofNat 16 (beNat ((t.drop 99).take 2))))
    else none
  | _ => none

/-- The 105 bytes of a `FRAME` (R90): the fixed bytes, offsets 3 to 101, the CRC field big-endian, the closing marker. -/
def frameBytes (body : List Byte) (crc : Half) : List Byte :=
  Config.marker :: Config.hdr1 :: Config.hdr2 :: (body ++ beBytes 2 crc.toNat ++ [Config.marker])

/-- The record header of an operation. 0 to 3 are the command codes of R103; `RX(b)` is 5. DESIGN CHOICE, log 4. -/
def Instr.header : Instr → Byte
  | .nop => 0
  | .loadKey _ => 1
  | .start => 2
  | .abort => 3
  | .reset => 4
  | .frMark | .frSkip _ | .frRemark | .frHdr1 | .frHdr2 | .frMiss _ | .frBody _ | .frEnd | .frBadend _ => 5
  | .frTimeout => 6
  | .frame _ _ => 7
  | .validate => 8
  | .decrypt => 9
  | .deriveIv => 10
  | .extract => 11
  | .raise _ => 12
  | .complete => 13
  | .mirror8 _ => 16
  | .crc16Update _ _ => 17
  | .crc16 _ => 18
  | .subBytes _ => 19
  | .shiftRows _ => 20
  | .mixColumns _ => 21
  | .addRoundKey _ _ => 22
  | .keyExpansion _ => 23
  | .aes128 _ _ => 24
  | .inc128 _ => 25
  | .keystream _ _ _ => 26
  | .ctrXor _ => 27
  | .u32be _ => 28
  | .scaleEnergy _ => 29
  | .powerValue _ => 30

/-- Reads the operands of the record with header `h` off the tape. -/
def decodeRecord (ctx : Context) (h : Byte) (tape : List Byte) : Fetched :=
  match h.toNat with
  | 0 => .op .nop tape
  | 1 => withBytes 16 tape fun bs rest => .op (.loadKey (blockOfBytes bs)) rest
  | 2 => .op .start tape
  | 3 => .op .abort tape
  | 4 => .op .reset tape
  | 5 =>
    match tape with
    | [] => .rejected .truncated
    | b :: rest =>
      match selectRx ctx b with
      | some o => .op o.toInstr rest
      | none => .notAccepted rest
  | 6 => .op .frTimeout tape
  | 7 => withBytes 105 tape fun bs rest =>
      match frameOfBytes bs with
      | some i => .op i rest
      | none => .rejected .notAFrame
  | 8 => .op .validate tape
  | 9 => .op .decrypt tape
  | 10 => .op .deriveIv tape
  | 11 => .op .extract tape
  | 12 =>
    match tape with
    | [] => .rejected .truncated
    | c :: rest =>
      match DecodeError.ofCode c with
      | some e => .op (.raise e) rest
      | none => .rejected (.unknownError c)
  | 13 => .op .complete tape
  | 16 =>
    match tape with
    | [] => .rejected .truncated
    | b :: rest => .op (.mirror8 b) rest
  | 17 =>
    match tape with
    | r1 :: r0 :: b :: rest => .op (.crc16Update (BitVec.ofNat 16 (beNat [r1, r0])) b) rest
    | _ => .rejected .truncated
  | 18 =>
    match tape with
    | n1 :: n0 :: t => withBytes (beNat [n1, n0]) t fun bs rest => .op (.crc16 bs) rest
    | _ => .rejected .truncated
  | 19 => withBytes 16 tape fun bs rest => .op (.subBytes (blockOfBytes bs)) rest
  | 20 => withBytes 16 tape fun bs rest => .op (.shiftRows (blockOfBytes bs)) rest
  | 21 => withBytes 16 tape fun bs rest => .op (.mixColumns (blockOfBytes bs)) rest
  | 22 => withBytes 32 tape fun bs rest => .op (.addRoundKey (blockOfBytes (bs.take 16)) (blockOfBytes (bs.drop 16))) rest
  | 23 => withBytes 16 tape fun bs rest => .op (.keyExpansion (blockOfBytes bs)) rest
  | 24 => withBytes 32 tape fun bs rest => .op (.aes128 (blockOfBytes (bs.take 16)) (blockOfBytes (bs.drop 16))) rest
  | 25 => withBytes 16 tape fun bs rest => .op (.inc128 (blockOfBytes bs)) rest
  | 26 =>
    match tape with
    | [] => .rejected .truncated
    | n :: t =>
      if 1 ≤ n.toNat ∧ n.toNat ≤ Config.maxLenCt then
        withBytes 32 t fun bs rest =>
          .op (.keystream (blockOfBytes (bs.take 16)) (blockOfBytes (bs.drop 16)) n.toNat) rest
      else .rejected .operandOutOfRange
  | 27 =>
    match tape with
    | [] => .rejected .truncated
    | n :: t =>
      if n.toNat ≤ 6 then withBytes (16 * n.toNat) t fun bs rest => .op (.ctrXor (blocksOfBytes n.toNat bs)) rest
      else .rejected .operandOutOfRange
  | 28 =>
    match tape with
    | [] => .rejected .truncated
    | o :: rest => if o.toNat + 4 ≤ Config.maxLenCt then .op (.u32be o.toNat) rest else .rejected .operandOutOfRange
  | 29 => withBytes 4 tape fun bs rest => .op (.scaleEnergy (BitVec.ofNat 32 (beNat bs))) rest
  | 30 => withBytes 4 tape fun bs rest => .op (.powerValue (BitVec.ofNat 32 (beNat bs))) rest
  | _ => .rejected (.unknownRecord h)

/-- The operation at the head of a script, in a context (R102, R107). Total; rejects by name. -/
def decode (ctx : Context) : List Byte → Fetched
  | [] => .idle
  | h :: tape => decodeRecord ctx h tape

/-- The operand bytes of an operation's record. -/
def Instr.operandBytes : Instr → List Byte
  | .nop | .start | .abort | .reset | .frTimeout => []
  | .loadKey k => blockBytes k
  | .frMark | .frRemark | .frEnd => [Config.marker]
  | .frHdr1 => [Config.hdr1]
  | .frHdr2 => [Config.hdr2]
  | .frSkip b | .frMiss b | .frBody b | .frBadend b => [b]
  | .frame body crc => frameBytes body crc
  | .validate | .decrypt | .deriveIv | .extract | .complete => []
  | .raise e => [e.code]
  | .mirror8 b => [b]
  | .crc16Update reg b => beBytes 2 reg.toNat ++ [b]
  | .crc16 seq => beBytes 2 seq.length ++ seq
  | .subBytes st | .shiftRows st | .mixColumns st => blockBytes st
  | .addRoundKey st rk => blockBytes st ++ blockBytes rk
  | .keyExpansion key => blockBytes key
  | .aes128 key blk => blockBytes key ++ blockBytes blk
  | .inc128 blk => blockBytes blk
  | .keystream key iv lenCt => BitVec.ofNat 8 lenCt :: (blockBytes key ++ blockBytes iv)
  | .ctrXor ks => BitVec.ofNat 8 ks.length :: bytesOfBlocks ks
  | .u32be o => [BitVec.ofNat 8 o]
  | .scaleEnergy v | .powerValue v => beBytes 4 v.toNat

/-- The record of an operation: its header, then its operands. -/
def encode (i : Instr) : List Byte :=
  i.header :: i.operandBytes

/-! ## Table words -/

/-- Where a received byte stands on its own, as the table's 8-bit patterns do: A0 and 67 are the header bytes that follow a
marker, any other byte is looked at in `Searching`. The table gives 0x7E to three rows (FR.MARK, FR.REMARK, FR.END) and no
pattern to FR.SKIP, FR.MISS, FR.BODY and FR.BADEND: only the context tells them apart (R102, R108). DESIGN CHOICE, log 5. -/
def tableContext (b : Byte) : Context :=
  if b = Config.hdr1 then { stage := .framing, frState := .matchingHeader, len := 1 }
  else if b = Config.hdr2 then { stage := .framing, frState := .matchingHeader, len := 2 }
  else { stage := .framing, frState := .searching, len := 0 }

/-- The bytes of a table word, the first in its low bits. -/
def tableBytes : Nat → Nat → List Byte
  | 0, _ => []
  | n + 1, w => BitVec.ofNat 8 w :: tableBytes n (w >>> 8)

/-- The bytes of an 840-bit word in the order received: frame offset i in bits 839 - 8i down to 832 - 8i (R90). A word that is
no frame so is taken with its first byte in the low bits, as words of several bytes are numbered. DESIGN CHOICE, log 5. -/
def frameWordBytes (w : Nat) : List Byte :=
  let bs := beBytes Config.frameLen w
  if (frameOfBytes bs).isSome then bs else tableBytes Config.frameLen w

/-- The script that offers a table word, and the context it is offered in: an 8-bit word is a received byte, an 840-bit word
a frame; the table gives bits to no other row. -/
def tableScript (nbits w : Nat) : Option (Context × List Byte) :=
  if nbits = 8 then some (tableContext (BitVec.ofNat 8 w), [5, BitVec.ofNat 8 w])
  else if nbits = 840 then
    some ({ stage := .framing, frState := .searching, len := 0 }, 7 :: frameWordBytes w)
  else none

/-- The operation that the decoder reads from a word of spec/opcode_table.json. -/
def decodeTableWord (nbits w : Nat) : Option Instr :=
  match tableScript nbits w with
  | some (ctx, tape) =>
    match decode ctx tape with
    | .op i _ => some i
    | .notAccepted _ => none
    | .idle => none
    | .rejected _ => none
  | none => none

end Sys2Proof
end

