-- ==== Sys2Proof/Machine/State.lean ====
section
/-! DEFINITION. The state of one core instance (spec/10_state.md R20: "Nothing else persists from one event to the next"), the
reasons a step can stop, and the state after reset (R35). -/

namespace Sys2Proof.Machine

/-- A byte-addressed space (spec/20_memory.md R61, R62): its defined bytes, addresses strictly rising. An unlisted address
reads as no value: its contents are undefined (spec/00_scope.md R12). -/
abbrev Memory := List Host.Cell

/-- A state element that is "either *defined* (it holds a value some rule wrote since the last event that invalidated it) or
*undefined*" (R12). Being undefined is the spec's own state: operations put an element into it (R34, R243, R244, R300). -/
abbrev Element (α : Type) := Option α

/-- The spaces and elements whose contents can be undefined, to name what a fault met. -/
inductive Space where
  | fbuf | pt | key | iv | rd
  /-- The keystream handed to the exclusive-or of R193. -/
  | keystream
  deriving DecidableEq, Repr

/-- An energy value as R223 represents it: `whole` kWh (or kvarh) and `thousandths`, meaning `whole` + `thousandths`/1000. -/
structure Energy where
  whole : Nat
  thousandths : Nat
  deriving DecidableEq, Repr

/-- The source's `Reading`: the eight fields of R24 in their order, energies scaled (R223), powers as parsed (R224). -/
structure Reading where
  activeEnergyPos : Energy
  activeEnergyNeg : Energy
  reactiveEnergyPos : Energy
  reactiveEnergyNeg : Energy
  activePowerPos : Word
  activePowerNeg : Word
  reactivePowerPos : Word
  reactivePowerNeg : Word
  deriving DecidableEq, Repr

/-- The output event `RESULT` (R41). -/
inductive Result where
  | ok (reading : Reading)
  | err (e : DecodeError)
  deriving DecidableEq, Repr

/-- What a function of the operation table returned when it was run as an operation by itself. The model's own (log 3). -/
inductive FnValue where
  | nothing
  | byte (b : Byte)
  | half (h : Half)
  | word (w : Word)
  | block (k : Block)
  | blocks (ks : List Block)
  | energy (e : Energy)
  deriving DecidableEq, Repr

/-- The state of one instance: R20's list, then what the model adds (each named in the assumption log). -/
structure State where
  /-- `KEY`, 16 × 8 (R21). -/
  key : Element Block
  /-- `KEY_VALID`, 1 bit (R21). -/
  keyValid : Bool
  /-- `FR_STATE`, 3 bits (R27). -/
  frState : FrState
  /-- `LEN`, 7 bits (R22, R28). -/
  len : BitVec 7
  /-- `FBUF`, 105 × 8 (R22, R61). -/
  fbuf : Memory
  /-- `CRC_CALC`, 16 bits (R26). -/
  crcCalc : Element Half
  /-- `IV`, 16 × 8 (R25). -/
  iv : Element Block
  /-- `PT`, `LEN_CT` × 8 (R23, R62). -/
  pt : Memory
  /-- `RD[0..7]`, 8 × 32 (R24). -/
  rd : Element (Vector Word 8)
  /-- `STAGE`, 3 bits (R29). -/
  stage : Stage
  /-- `RES_VALID`, 1 bit (R30). -/
  resValid : Bool
  /-- `RES_OK`, 1 bit (R30). -/
  resOk : Bool
  /-- `ERR`, 3 bits; `none` is code 0 (R30). -/
  err : Option DecodeError
  /-- MODEL's own: the instance's configuration record `P` (R6), which no operation writes (R31, R32; log 1). -/
  params : Params
  /-- MODEL's own: the events still to be offered, as records (R40, R107; log 4). -/
  script : List Byte
  /-- MODEL's own: the `RESULT` events emitted so far, oldest first: the environment's record, not the core's (R41; log 2). -/
  results : List Result
  /-- MODEL's own: the value of the last function run as an operation by itself (log 3). -/
  value : FnValue
  deriving DecidableEq, Repr

/-- Why the machine stops with a fault. Every fault is safe: the spec calls the case a fault of the model's user, which no
path of its rules meets (R12, spec/93_implementation_defined.md U1), and the model goes on nowhere. -/
inductive Fault where
  /-- Raised by the readers of Machine/Ops.lean: the element at this offset is undefined (R12, U1). Safe. -/
  | undefinedRead (space : Space) (offset : Nat)
  /-- Raised by the readers of Machine/Ops.lean: the space has no such offset (R61, R62; R11 requires the range to lie inside). Safe. -/
  | noSuchOffset (space : Space) (offset : Nat)
  deriving DecidableEq, Repr

/-- Why the machine gives an input no meaning. Every refusal is safe: nothing is computed. -/
inductive Refusal where
  /-- Raised by an arm of `exec` whose operation has no meaning yet; no arm does. Safe. -/
  | notModelled (mnemonic : String)
  /-- Raised by `step` and by the one reader of `P`: "A model refuses a `P` that is not well-formed (it gives it no meaning)"
  (R7, spec/92_eei_decisions.md D4). Safe. -/
  | illFormedParams
  /-- Raised by `step`: the head of the script is no record, so no event of R40 is offered. Safe. -/
  | malformedScript (why : Reject)
  deriving DecidableEq, Repr

/-- The machine right after `RESET` (R35): every element that R35 calls undefined is undefined. The instance is one of the
reference configuration `P0` (PRESUMED, log 1), nothing is offered yet and nothing has been emitted. -/
def State.reset : State where
  key := none
  keyValid := false
  frState := .searching
  len := 0
  fbuf := []
  crcCalc := none
  iv := none
  pt := []
  rd := none
  stage := .idle
  resValid := false
  resOk := false
  err := none
  params := Params.p0
  script := []
  results := []
  value := .nothing

end Sys2Proof.Machine
end

