-- ==== Sys2Proof/Machine/Ops.lean ====
section
/-! DEFINITION. The shared operations: sequencing of outcomes, the byte spaces, the readers of elements that can be undefined,
fetching, raising an error (spec/60_exceptions.md R266, the analogue of taking an exception) and, beside it, beginning the
next decode (R275, the analogue of returning from one). -/

namespace Sys2Proof.Machine

/-- The outcome of an operation that yields an `α`. -/
abbrev Res (α : Type) := Host.Outcome α Fault Refusal

/-- Continues with the value, or stops as `r` stopped. -/
def andThen {α β : Type} (r : Res α) (k : α → Res β) : Res β :=
  match r with
  | .next a => k a
  | .fault f => .fault f
  | .refused q => .refused q

/-- `k v`, with the bits of `v` computed before `k` runs, so that a long computation evaluates step by step in Lean's kernel.
It is `k v` (`computed_eq` in Laws/Ops.lean). -/
def computed {w : Nat} {α : Type} (v : BitVec w) (k : BitVec w → α) : α :=
  match v.toNat with
  | 0 => k 0
  | n + 1 => k (BitVec.ofNat w (n + 1))

/-! ## Byte spaces (R61, R62) -/

/-- The byte at an address, if it is defined (R12). -/
def Memory.read? : Memory → Nat → Option Byte
  | [], _ => none
  | (a, b) :: m, i => if a = i then some b else Memory.read? m i

/-- `A[i] <- v` (R11), keeping the addresses strictly rising. -/
def Memory.write : Memory → Nat → Byte → Memory
  | [], i, v => [(i, v)]
  | (a, b) :: m, i, v =>
    if i < a then (i, v) :: (a, b) :: m
    else if i = a then (i, v) :: m
    else (a, b) :: Memory.write m i v

/-- The space whose defined bytes are `bs`, the first at address `base`. -/
def Memory.ofBytes : Nat → List Byte → Memory
  | _, [] => []
  | base, b :: bs => (base, b) :: Memory.ofBytes (base + 1) bs

/-- The canonical form: addresses strictly rising. (An unlisted address reads as no value, so no entry can equal it.) -/
abbrev Memory.wf (m : Memory) : Prop :=
  (m.map Prod.fst).Pairwise (· < ·)

/-- Reads element `i` of a space of `size` bytes: a fault where the space has no such offset, or the byte is undefined. -/
def readByte (sp : Space) (size : Nat) (m : Memory) (i : Nat) : Res Byte :=
  if i < size then
    match m.read? i with
    | some b => .next b
    | none => .fault (.undefinedRead sp i)
  else .fault (.noSuchOffset sp i)

/-- `bytes(A, i, n)` (R11), in ascending offset order (R68). -/
def readBytes (sp : Space) (size : Nat) (m : Memory) (i : Nat) : Nat → Res (List Byte)
  | 0 => .next []
  | n + 1 =>
    andThen (readByte sp size m i) fun b =>
      andThen (readBytes sp size m (i + 1) n) fun bs => .next (b :: bs)

/-- `MemRead(A, i, n)` (R11): the first byte most significant (R66). -/
def memRead (sp : Space) (size : Nat) (m : Memory) (i n : Nat) : Res Nat :=
  andThen (readBytes sp size m i n) fun bs => .next (beNat bs)

/-! ## Readers of the state -/

/-- The defined value of an element, or the fault of U1. -/
def readElement {α : Type} (sp : Space) (e : Element α) : Res α :=
  match e with
  | some a => .next a
  | none => .fault (.undefinedRead sp 0)

/-- The one reader of `P`: refuses an ill-formed one (R7, D4). -/
def config (s : State) : Res Params :=
  if s.params.WellFormed then .next s.params else .refused .illFormedParams

/-- `bytes(FBUF, i, n)`. -/
def readFbuf (s : State) (i n : Nat) : Res (List Byte) :=
  readBytes .fbuf Config.frameLen s.fbuf i n

/-- The triple that selects the next operation (R28). -/
def State.context (s : State) : Context :=
  { stage := s.stage, frState := s.frState, len := s.len }

/-- What is offered next (R40, R107): the record at the head of the script, decoded in the machine's context. -/
def fetch (s : State) : Fetched :=
  decode s.context s.script

/-! ## Acceptance (R42) -/

/-- Performs an operation where its row of R102 holds; elsewhere nothing is performed and no state changes (R42, R104 f). -/
def performIf (selected : Prop) [Decidable selected] (act : State → Res State) (s : State) : Res State :=
  if selected then act s else .next s

/-- The map of R102 selects the FrameReader operation `op` for the byte `b`. -/
abbrev Selects (s : State) (b : Byte) (op : RxOp) : Prop :=
  selectRx s.context b = some op

/-- No decode is running: `STAGE` ∈ {`Idle`, `Complete`} (R42, for `START` and `LOAD_KEY`). -/
abbrev CommandReady (s : State) : Prop :=
  s.stage = .idle ∨ s.stage = .complete

/-! ## Results (R41, R249, R266) -/

/-- Emits a `RESULT` event. -/
def emit (r : Result) (s : State) : State :=
  { s with results := s.results ++ [r] }

/-- `raise E` (R266): the four elements it writes, and `RESULT(Err(E))`; nothing is saved and nothing else changes. -/
def raiseError (e : DecodeError) (s : State) : State :=
  emit (.err e) { s with stage := .complete, resValid := true, resOk := false, err := some e }

/-- The transient elements become undefined and the result flags are cleared (R34). -/
def invalidate (s : State) : State :=
  { s with
    fbuf := [], crcCalc := none, iv := none, pt := [], rd := none,
    resValid := false, resOk := false, err := none }

/-- Puts the sequencing state at `stage`, the FrameReader ready to search. -/
def restartAt (stage : Stage) (s : State) : State :=
  { invalidate s with stage := stage, frState := .searching, len := 0 }

/-- The core as `RESET` leaves it (R300): the reset values of R35; what the environment holds and has seen is not the core's
to change. -/
def resetCore (s : State) : State :=
  { restartAt .idle s with key := none, keyValid := false }

/-- Takes the key `k` (R241). -/
def installKey (k : Block) (s : State) : State :=
  { s with key := some k, keyValid := true }

/-- Begins a decode (R243), which is also how the host returns after an error: nothing is restored, since nothing was saved
(R275). -/
def beginDecode (s : State) : State :=
  restartAt .framing s

end Sys2Proof.Machine
end

