-- ==== Sys2Proof/Machine/Operands.lean ====
section
/-! DEFINITION. How multi-byte operands are assembled from frame and PlainText bytes (spec/30_encoding.md R100), and the
mapping between a block and its bytes (spec/43_frame_decryptor.md R175). -/

namespace Sys2Proof.Machine

/-- Byte `i` of a block, byte 0 first. -/
def blockByte (k : Block) (i : Nat) : Byte :=
  BitVec.ofNat 8 (k.toNat >>> (8 * (15 - i)))

/-- The block whose byte `i` is `f i`. -/
def blockOfFn (f : Nat → Byte) : Block :=
  blockOfBytes ((List.range 16).map f)

/-- The 2-byte CRC field `C_emb` = `MemRead(FBUF, 102, 2)` (R95, R159). -/
def embeddedCrc (s : State) : Res Half :=
  andThen (memRead .fbuf Config.frameLen s.fbuf Config.offCrc 2) fun v => .next (BitVec.ofNat 16 v)

/-- The checksummed range, offsets 1 to 101 (R158). -/
def checksummed (s : State) : Res (List Byte) :=
  readFbuf s Config.crcFirst (Config.crcLast - Config.crcFirst + 1)

/-- The SystemTitle (R93). -/
def systemTitle (P : Params) (s : State) : Res (List Byte) :=
  readFbuf s P.offSt Config.stLen

/-- The InvocationCounter (R94). -/
def invocationCounter (P : Params) (s : State) : Res (List Byte) :=
  readFbuf s P.offIc Config.icLen

/-- The CipherText (R96). -/
def cipherText (P : Params) (s : State) : Res (List Byte) :=
  readFbuf s P.offCt P.lenCt

/-- SystemTitle ‖ InvocationCounter ‖ 00 00 00 02 (R100, R171). -/
def ivOf (title counter : List Byte) : Block :=
  blockOfBytes (title ++ counter ++ Config.ivSuffix)

/-- `u32be(PT, o)` = `MemRead(PT, o, 4)` (R221), in a PlainText of `LEN_CT` bytes. -/
def readField (P : Params) (pt : Memory) (o : Nat) : Res Word :=
  andThen (memRead .pt P.lenCt pt o Config.fldLen) fun v => .next (BitVec.ofNat 32 v)

/-- Eight results gathered in index order. -/
def gather8 {α : Type} (f : Fin 8 → Res α) : Res (Vector α 8) :=
  andThen (f 0) fun r0 => andThen (f 1) fun r1 => andThen (f 2) fun r2 => andThen (f 3) fun r3 =>
  andThen (f 4) fun r4 => andThen (f 5) fun r5 => andThen (f 6) fun r6 => andThen (f 7) fun r7 =>
    .next #v[r0, r1, r2, r3, r4, r5, r6, r7]

/-- `scale_energy(v)` (R223): (`v div 1000`, `v mod 1000`). -/
def scaleEnergy (v : Word) : Energy :=
  { whole := v.toNat / Config.energyDiv, thousandths := v.toNat % Config.energyDiv }

/-- A power field is reported as parsed (R224). -/
def powerValue (v : Word) : Word :=
  v

/-- The Reading that eight parsed fields stand for (R24, R225). -/
def readingOf (rd : Vector Word 8) : Reading where
  activeEnergyPos := scaleEnergy rd[0]
  activeEnergyNeg := scaleEnergy rd[1]
  reactiveEnergyPos := scaleEnergy rd[2]
  reactiveEnergyNeg := scaleEnergy rd[3]
  activePowerPos := powerValue rd[4]
  activePowerNeg := powerValue rd[5]
  reactivePowerPos := powerValue rd[6]
  reactivePowerNeg := powerValue rd[7]

end Sys2Proof.Machine
end

