-- ==== Sys2Proof/Machine/Flags.lean ====
section
/-! DEFINITION. The result flags, the numeric codes of the status outputs, and the level outputs of one instance
(spec/10_state.md R27, R29, R30, R41, R43). There are no arithmetic flags (R30). -/

namespace Sys2Proof.Machine

/-- The outcome is a Reading (R249): `STAGE`, `RES_VALID`, `RES_OK` and `ERR` of a success, and `RESULT(Ok(Reading))`. -/
def completeOk (rd : Vector Word 8) (s : State) : State :=
  emit (.ok (readingOf rd)) { s with stage := .complete, resValid := true, resOk := true, err := none }

/-- `FR_STATE` codes (R27, D19). -/
def frStateCode : FrState → BitVec 3
  | .searching => 0
  | .matchingHeader => 1
  | .readingBody => 2
  | .done => 3
  | .failed => 4

/-- `STAGE` codes (R29, D19). -/
def stageCode : Stage → BitVec 3
  | .idle => 0
  | .framing => 1
  | .validating => 2
  | .decrypting => 3
  | .extracting => 4
  | .complete => 5

/-- `ERR` codes (R30, R260, D19). -/
def errCode : Option DecodeError → BitVec 3
  | none => 0
  | some e => e.code.setWidth 3

/-- The acceptance test of `RX(b)` and `RX_TIMEOUT` in the state `s` in which it is made: `STAGE` = `Framing` (R42). It is
`rx_ready` while nothing else is offered; with other offers at the edge see `Pins.rxReady` (R43, R272). -/
def rxReady (s : State) : Bool :=
  s.stage == .framing

/-- The acceptance test of the command on the bus in the state `s` in which it is made (R42). Codes 0 (no operation) and 3
(`ABORT`) are always accepted, 1 (`LOAD_KEY`) and 2 (`START`) as R42 says. With `rst` at the edge see `Pins.cmdReady`. -/
def cmdReady (cmd : BitVec 2) (s : State) : Bool :=
  if cmd = 1 then decide (CommandReady s) && !s.keyValid
  else if cmd = 2 then decide (CommandReady s)
  else true

/-- `RD[k]` as the host reads it: only while `RES_VALID` = 1 and `RES_OK` = 1 (R24, R41, R319). -/
def readRd (s : State) (k : Fin 8) : Option Word :=
  if s.resValid ∧ s.resOk then s.rd.map (·[k]) else none

/-- The level outputs of R41 in the signal binding of R43, and `rx_ready` while nothing is offered. -/
structure Outputs where
  resValid : Bool
  resOk : Bool
  resErr : BitVec 3
  /-- `res_rd[255:0]`, `RD[0]` in bits 255..224; nothing where `RD` is not readable. -/
  resRd : Option (BitVec 256)
  keyValid : Bool
  stage : BitVec 3
  frState : BitVec 3
  len : BitVec 7
  rxReady : Bool
  deriving DecidableEq, Repr

/-- Eight words side by side, the first in the most significant place. -/
def packWords (rd : Vector Word 8) : BitVec 256 :=
  BitVec.ofNat 256 (rd.toList.foldl (fun acc w => acc * 2 ^ 32 + w.toNat) 0)

/-- What the host sees of the machine between two events (R41, R43): nothing of `KEY`, `FBUF`, `CRC_CALC`, `IV` or `PT`. -/
def outputs (s : State) : Outputs where
  resValid := s.resValid
  resOk := s.resOk
  resErr := errCode s.err
  resRd := if s.resValid ∧ s.resOk then s.rd.map packWords else none
  keyValid := s.keyValid
  stage := stageCode s.stage
  frState := frStateCode s.frState
  len := s.len
  rxReady := rxReady s

end Sys2Proof.Machine
end

