-- ==== Sys2Proof/Machine/CrcValidator.lean ====
section
/-! DEFINITION. The CrcValidator (spec/42_crc_validator.md). The numbered steps of R150 to R157 are the algorithm; the words
"CRC-16/X-25 applied to the bit-reversed byte stream" are not (spec/90_conflicts.md C1, R160). -/

namespace Sys2Proof.Machine

/-- `mirror8(b)` (R150): swap nibbles, then bit pairs, then adjacent bits. -/
def mirror8 (b : Byte) : Byte :=
  let c1 := ((b &&& 0xF0) >>> 4) ||| ((b &&& 0x0F) <<< 4)
  let c2 := ((c1 &&& 0xCC) >>> 2) ||| ((c1 &&& 0x33) <<< 2)
  ((c2 &&& 0xAA) >>> 1) ||| ((c2 &&& 0x55) <<< 1)

/-- One shift of the CRC register (R153): bit 15 is discarded, and selects the polynomial. -/
def crcShift (reg : Half) : Half :=
  if reg.getLsbD 15 then (reg <<< 1) ^^^ Config.crcPoly else reg <<< 1

/-- `n` shifts of the CRC register. -/
def crcShifts : Nat → Half → Half
  | 0, reg => reg
  | n + 1, reg => crcShifts n (crcShift reg)

/-- `crc16_update(REG, b)` (R153): the mirrored byte enters at the top, then eight shifts. -/
def crc16Update (reg : Half) (b : Byte) : Half :=
  crcShifts 8 (reg ^^^ ((mirror8 b).setWidth 16 <<< 8))

/-- The register after a byte sequence, absorbed in order (R155). -/
def crcBytes : Half → List Byte → Half
  | reg, [] => reg
  | reg, b :: bs => computed (crc16Update reg b) fun reg' => crcBytes reg' bs

/-- Steps 3 and 4 (R156, R157): complement, then mirror each byte of the result without exchanging them. -/
def crcFinish (reg : Half) : Half :=
  let r := reg ^^^ Config.crcXorOut
  ((mirror8 ((r >>> 8).setWidth 8)).setWidth 16 <<< 8) ||| (mirror8 (r.setWidth 8)).setWidth 16

/-- `crc16(seq)` (R155): every computation starts from 0xFFFF (R152). -/
def crc16 (seq : List Byte) : Half :=
  crcFinish (crcBytes Config.crcInit seq)

/-- `validate` (R158, R159): recompute over offsets 1 to 101, compare with the embedded field, raise on a difference. -/
def runValidate (s : State) : Res State :=
  andThen (checksummed s) fun seq =>
    andThen (embeddedCrc s) fun cEmb =>
      let s' := { s with crcCalc := some (crc16 seq) }
      if crc16 seq = cEmb then .next s' else .next (raiseError .crcMismatch s')

/-! ## Meanings -/

/-- `validate`, run in stage `Validating` (R158, R159, R246). -/
def execValidate (s : State) : Res State :=
  performIf (s.stage = .validating) runValidate s

/-- `mirror8` by itself (R150; log 3). -/
def execMirror8 (b : Byte) (s : State) : Res State :=
  .next { s with value := .byte (mirror8 b) }

/-- `crc16_update` by itself (R153; log 3). -/
def execCrc16Update (reg : Half) (b : Byte) (s : State) : Res State :=
  .next { s with value := .half (crc16Update reg b) }

/-- `crc16` by itself (R155; log 3). -/
def execCrc16 (seq : List Byte) (s : State) : Res State :=
  .next { s with value := .half (crc16 seq) }

end Sys2Proof.Machine
end

