-- ==== Sys2Proof/Machine/Aes.lean ====
section
/-! DEFINITION. AES-128 block encryption (spec/43_frame_decryptor.md R173 to R186). The state `s[r][c]` is byte `r + 4c` of the
block (R175). -/

namespace Sys2Proof.Machine

/-- `xtime(a)` (R174): multiplication by 2 in GF(2^8). -/
def xtime (a : Byte) : Byte :=
  if a.getLsbD 7 then (a <<< 1) ^^^ 0x1B else a <<< 1

/-- `mul2(a)` (R174). -/
def mul2 (a : Byte) : Byte :=
  xtime a

/-- `mul3(a)` (R174). -/
def mul3 (a : Byte) : Byte :=
  xtime a ^^^ a

/-- The S-box table of R176, a block a row: row = high nibble, column = low nibble. -/
def sboxRows : List Block :=
  [0x637c777bf26b6fc53001672bfed7ab76, 0xca82c97dfa5947f0add4a2af9ca472c0,
   0xb7fd9326363ff7cc34a5e5f171d83115, 0x04c723c31896059a071280e2eb27b275] ++
  [0x09832c1a1b6e5aa0523bd6b329e32f84, 0x53d100ed20fcb15b6acbbe394a4c58cf,
   0xd0efaafb434d338545f9027f503c9fa8, 0x51a3408f929d38f5bcb6da2110fff3d2] ++
  [0xcd0c13ec5f974417c4a77e3d645d1973, 0x60814fdc222a908846eeb814de5e0bdb,
   0xe0323a0a4906245cc2d3ac629195e479, 0xe7c8376d8dd54ea96c56f4ea657aae08] ++
  [0xba78252e1ca6b4c6e8dd741f4bbd8b8a, 0x703eb5664803f60e613557b986c11d9e,
   0xe1f8981169d98e949b1e87e9ce5528df, 0x8ca1890dbfe6426841992d0fb054bb16]

/-- `SBOX[a]` (R176), by the table. -/
def sbox (a : Byte) : Byte :=
  blockByte (sboxRows.getD (a.toNat / 16) 0) (a.toNat % 16)

/-- `SubBytes` (R177). -/
def subBytes (st : Block) : Block :=
  blockOfFn fun i => sbox (blockByte st i)

/-- `ShiftRows` (R178): `out[r + 4c] = in[r + 4((c + r) mod 4)]`. -/
def shiftRows (st : Block) : Block :=
  blockOfFn fun i => blockByte st (i % 4 + 4 * ((i / 4 + i % 4) % 4))

/-- One column of `MixColumns` (R179), its row `r`. -/
def mixColumn (a0 a1 a2 a3 : Byte) (r : Nat) : Byte :=
  match r with
  | 0 => mul2 a0 ^^^ mul3 a1 ^^^ a2 ^^^ a3
  | 1 => a0 ^^^ mul2 a1 ^^^ mul3 a2 ^^^ a3
  | 2 => a0 ^^^ a1 ^^^ mul2 a2 ^^^ mul3 a3
  | _ => mul3 a0 ^^^ a1 ^^^ a2 ^^^ mul2 a3

/-- `MixColumns` (R179). -/
def mixColumns (st : Block) : Block :=
  blockOfFn fun i =>
    let c := 4 * (i / 4)
    mixColumn (blockByte st c) (blockByte st (c + 1)) (blockByte st (c + 2)) (blockByte st (c + 3)) (i % 4)

/-- `AddRoundKey` (R180): byte `r` of word `c` of the round key is byte `r + 4c` of its 16 bytes. -/
def addRoundKey (st rk : Block) : Block :=
  st ^^^ rk

/-- Byte `i` of a word, byte 0 first (R175). -/
def wordByte (w : Word) (i : Nat) : Byte :=
  BitVec.ofNat 8 (w.toNat >>> (8 * (3 - i)))

/-- A word from its bytes (R175). -/
def wordOfBytes (bs : List Byte) : Word :=
  BitVec.ofNat 32 (beNat bs)

/-- Key word `i` (R180). -/
def keyWord (key : Block) (i : Nat) : Word :=
  wordOfBytes [blockByte key (4 * i), blockByte key (4 * i + 1), blockByte key (4 * i + 2), blockByte key (4 * i + 3)]

/-- `RCON[n]` for n = 1..10 (R181): 01, and each next one `xtime` of it. Index 0 stands for nothing and is never used. -/
def rcon : Nat → Byte
  | 0 => 0x00
  | 1 => 0x01
  | n + 1 => xtime (rcon n)

/-- RotWord, SubWord, then the round constant on byte 0 (R181). -/
def keyCore (t : Word) (n : Nat) : Word :=
  wordOfBytes [sbox (wordByte t 1) ^^^ rcon n, sbox (wordByte t 2), sbox (wordByte t 3), sbox (wordByte t 0)]

/-- Word `i` of the key schedule from the words before it (R181). -/
def nextKeyWord (ws : List Word) (i : Nat) : Word :=
  let t := ws.getD (i - 1) 0
  ws.getD (i - 4) 0 ^^^ (if i % 4 = 0 then keyCore t (i / 4) else t)

/-- `w[0..43]` (R181). -/
def keyWords (key : Block) : List Word :=
  (List.range 40).foldl (fun ws j => ws ++ [nextKeyWord ws (j + 4)])
    [keyWord key 0, keyWord key 1, keyWord key 2, keyWord key 3]

/-- Round key `n` of a schedule: `w[4n .. 4n+3]` (R181). -/
def roundKey (ws : List Word) (n : Nat) : Block :=
  ws.getD (4 * n) 0 ++ ws.getD (4 * n + 1) 0 ++ ws.getD (4 * n + 2) 0 ++ ws.getD (4 * n + 3) 0

/-- `KeyExpansion(KEY)` (R181): the eleven round keys. -/
def keyExpansion (key : Block) : List Block :=
  (List.range 11).map (roundKey (keyWords key))

/-- Rounds 1 to 9 (R186). -/
def aesRound (st rk : Block) : Block :=
  addRoundKey (mixColumns (shiftRows (subBytes st))) rk

/-- Round 10 (R186): no `MixColumns`. -/
def aesLastRound (st rk : Block) : Block :=
  addRoundKey (shiftRows (subBytes st)) rk

/-- `AES128(KEY, blk)` (R186) with the round keys given. -/
def aesRounds (rks : List Block) (blk : Block) : Block :=
  aesLastRound ((rks.extract 1 10).foldl aesRound (addRoundKey blk (rks.getD 0 0))) (rks.getD 10 0)

/-- `AES128(KEY, blk)` (R186). -/
def aes128 (key blk : Block) : Block :=
  aesRounds (keyExpansion key) blk

/-! ## Meanings -/

/-- `SubBytes` by itself (R177; log 3). -/
def execSubBytes (st : Block) (s : State) : Res State :=
  .next { s with value := .block (subBytes st) }

/-- `ShiftRows` by itself (R178; log 3). -/
def execShiftRows (st : Block) (s : State) : Res State :=
  .next { s with value := .block (shiftRows st) }

/-- `MixColumns` by itself (R179; log 3). -/
def execMixColumns (st : Block) (s : State) : Res State :=
  .next { s with value := .block (mixColumns st) }

/-- `AddRoundKey` by itself (R180; log 3). -/
def execAddRoundKey (st rk : Block) (s : State) : Res State :=
  .next { s with value := .block (addRoundKey st rk) }

/-- `KeyExpansion` by itself (R181; log 3). -/
def execKeyExpansion (key : Block) (s : State) : Res State :=
  .next { s with value := .blocks (keyExpansion key) }

/-- `AES128` by itself (R186; log 3). -/
def execAes128 (key blk : Block) (s : State) : Res State :=
  .next { s with value := .block (aes128 key blk) }

end Sys2Proof.Machine
end

