-- ==== Sys2Proof/Machine/FrameDecryptor.lean ====
section
/-! DEFINITION. The FrameDecryptor's nonce derivation, CTR keystream and `decrypt` (spec/43_frame_decryptor.md). -/

namespace Sys2Proof.Machine

/-- `inc128(blk)` (R190): plus 1 as a big-endian integer, modulo 2^128. -/
def inc128 (blk : Block) : Block :=
  blk + 1

/-- `CB[0..n-1]` (R192). -/
def counterBlocks : Block → Nat → List Block
  | _, 0 => []
  | cb, n + 1 => cb :: counterBlocks (inc128 cb) n

/-- The keystream of `lenCt` bytes: ceil(`lenCt`/16) blocks (R192). -/
def keystream (key iv : Block) (lenCt : Nat) : List Block :=
  (counterBlocks iv ((lenCt + 15) / 16)).map (aes128 key)

/-- `KS[i div 16][i mod 16]` (R193). -/
def keystreamByte (ks : List Block) (i : Nat) : Byte :=
  blockByte (ks.getD (i / 16) 0) (i % 16)

/-- The exclusive-or of R193 over a whole CipherText; the keystream's bytes beyond it are discarded. -/
def xorStream (ct : List Byte) (ks : List Block) : List Byte :=
  ct.mapIdx fun i c => c ^^^ keystreamByte ks i

/-- `derive_iv` (R171). -/
def runDeriveIv (s : State) : Res State :=
  andThen (config s) fun P =>
    andThen (systemTitle P s) fun title =>
      andThen (invocationCounter P s) fun counter => .next { s with iv := some (ivOf title counter) }

/-- The exclusive-or into `PT` (R193). A keystream too short for the CipherText has no byte to read there. -/
def runCtrXor (ks : List Block) (s : State) : Res State :=
  andThen (config s) fun P =>
    andThen (cipherText P s) fun ct =>
      if P.lenCt ≤ 16 * ks.length then .next { s with pt := Memory.ofBytes 0 (xorStream ct ks) }
      else .fault (.noSuchOffset .keystream (16 * ks.length))

/-- `decrypt` (R195): the key check first (R170), then `derive_iv`, then the keystream and the exclusive-or. -/
def runDecrypt (s : State) : Res State :=
  andThen (config s) fun P =>
    if s.keyValid then
      andThen (runDeriveIv s) fun s' =>
        andThen (readElement .key s'.key) fun key =>
          andThen (readElement .iv s'.iv) fun iv => runCtrXor (keystream key iv P.lenCt) s'
    else .next (raiseError .decryptionFailure s)

/-! ## Meanings -/

/-- `decrypt`, run in stage `Decrypting` (R195, R246). -/
def execDecrypt (s : State) : Res State :=
  performIf (s.stage = .decrypting) runDecrypt s

/-- `derive_iv`, run in stage `Decrypting` (R171). -/
def execDeriveIv (s : State) : Res State :=
  performIf (s.stage = .decrypting) runDeriveIv s

/-- The exclusive-or of R193, a step of `decrypt`, with a given keystream. -/
def execCtrXor (ks : List Block) (s : State) : Res State :=
  performIf (s.stage = .decrypting) (runCtrXor ks) s

/-- `inc128` by itself (R190; log 3). -/
def execInc128 (blk : Block) (s : State) : Res State :=
  .next { s with value := .block (inc128 blk) }

/-- `keystream` by itself (R192; log 3). -/
def execKeystream (key iv : Block) (lenCt : Nat) (s : State) : Res State :=
  .next { s with value := .blocks (keystream key iv lenCt) }

end Sys2Proof.Machine
end

