-- ==== Sys2Proof/Machine/ReadingExtractor.lean ====
section
/-! DEFINITION. The ReadingExtractor (spec/44_reading_extractor.md). -/

namespace Sys2Proof.Machine

/-- `extract` (R225): the bound check covers all eight fields and comes first (R226), so all of `RD` is written or none. -/
def runExtract (s : State) : Res State :=
  andThen (config s) fun P =>
    if P.FieldsFit then
      andThen (gather8 fun k => readField P s.pt P.offFld[k]) fun rd => .next { s with rd := some rd }
    else .next (raiseError .fieldOutOfRange s)

/-! ## Meanings -/

/-- `extract`, run in stage `Extracting` (R225, R246). -/
def execExtract (s : State) : Res State :=
  performIf (s.stage = .extracting) runExtract s

/-- `u32be` by itself, on the machine's `PT` (R221; log 3). An offset whose four bytes do not lie in `PT` is outside its
operands' range: the read faults. -/
def execU32be (o : Nat) (s : State) : Res State :=
  andThen (config s) fun P =>
    andThen (readField P s.pt o) fun v => .next { s with value := .word v }

/-- `scale_energy` by itself (R223; log 3). -/
def execScaleEnergy (v : Word) (s : State) : Res State :=
  .next { s with value := .energy (scaleEnergy v) }

/-- The presentation of a power field by itself (R224; log 3). -/
def execPowerValue (v : Word) (s : State) : Res State :=
  .next { s with value := .word (powerValue v) }

end Sys2Proof.Machine
end

