-- ==== Sys2Proof/Machine/TelegramDecoder.lean ====
section
/-! DEFINITION. The TelegramDecoder (spec/45_telegram_decoder.md), the errors it reports (spec/60_exceptions.md) and reset
(spec/70_reset_and_hazards.md). -/

namespace Sys2Proof.Machine

/-- Completion with success (R249), once `extract` has defined `RD`. -/
def runComplete (s : State) : Res State :=
  andThen (readElement .rd s.rd) fun rd => .next (completeOk rd s)

/-- Enters stage `to` and runs it, if the stage before it left the sequencer in `from`; a `raise` has left it in `Complete`,
and the later stages do not run (R246, R266). -/
def thenStage (before next : Stage) (run : State → Res State) (s : State) : Res State :=
  if s.stage = before then run { s with stage := next } else .next s

/-- The stages after the frame, within one event and in this order (R246). -/
def runBackEnd (s : State) : Res State :=
  andThen (runValidate { s with stage := .validating }) fun s1 =>
    andThen (thenStage .validating .decrypting runDecrypt s1) fun s2 =>
      andThen (thenStage .decrypting .extracting runExtract s2) fun s3 =>
        if s3.stage = .extracting then runComplete s3 else .next s3

/-- Where an error can be raised: by the operations that raise it and nowhere else (R260). `IncompleteFrame` is raised in
`Framing` after the raising operation has set `FR_STATE` to `Failed` (R128, R129, R266). -/
def raisable (e : DecodeError) (s : State) : Bool :=
  match e with
  | .incompleteFrame => s.stage == .framing && s.frState == .failed
  | .crcMismatch => s.stage == .validating
  | .decryptionFailure => s.stage == .decrypting
  | .fieldOutOfRange => s.stage == .extracting

/-! ## Meanings -/

/-- `RESET` (R300). -/
def execReset (s : State) : Res State :=
  .next (resetCore s)

/-- `ABORT` (R244): always accepted; the key stays. -/
def execAbort (s : State) : Res State :=
  .next (restartAt .idle s)

/-- `LOAD_KEY(k)` (R241): accepted once per reset, and not during a decode. -/
def execLoadKey (k : Block) (s : State) : Res State :=
  performIf (s.keyValid = false ∧ CommandReady s) (fun s => .next (installKey k s)) s

/-- `START` (R243): accepted when no decode is running. -/
def execStart (s : State) : Res State :=
  performIf (CommandReady s) (fun s => .next (beginDecode s)) s

/-- Command code 0: accepted, does nothing (R103, R43, D34). -/
def execNop (s : State) : Res State :=
  .next s

/-- `raise E` (R266), where `E` can be raised (R260). -/
def execRaise (e : DecodeError) (s : State) : Res State :=
  performIf (raisable e s) (fun s => .next (raiseError e s)) s

/-- Completion with success, after `extract` in stage `Extracting` (R249). -/
def execComplete (s : State) : Res State :=
  performIf (s.stage = .extracting) runComplete s

end Sys2Proof.Machine
end

