-- ==== Sys2Proof/Machine/FrameReader.lean ====
section
/-! DEFINITION. The FrameReader (spec/41_frame_reader.md): the ten operations of R120 to R129, the acceptance of a received
byte, and the frame offered whole (R107). -/

namespace Sys2Proof.Machine

/-- A marker starts the accumulation: `FBUF[0] <- 0x7E; LEN <- 1`, and nothing else of `FBUF` is defined (R22, R121, R122). -/
def startAccumulation (s : State) : State :=
  { s with fbuf := Memory.write [] 0 Config.marker, len := 1, frState := .matchingHeader }

/-! ## Meanings -/

/-- `FR.SKIP` (R120): nothing is written. -/
def execFrSkip (b : Byte) (s : State) : Res State :=
  performIf (Selects s b (.skip b)) (fun s => .next s) s

/-- `FR.MARK` (R121). -/
def execFrMark (s : State) : Res State :=
  performIf (Selects s Config.marker .mark) (fun s => .next (startAccumulation s)) s

/-- `FR.REMARK` (R122): what was accumulated is dropped. -/
def execFrRemark (s : State) : Res State :=
  performIf (Selects s Config.marker .remark) (fun s => .next (startAccumulation s)) s

/-- `FR.HDR1` (R123). -/
def execFrHdr1 (s : State) : Res State :=
  performIf (Selects s Config.hdr1 .hdr1) (fun s => .next { s with fbuf := s.fbuf.write 1 Config.hdr1, len := 2 }) s

/-- `FR.HDR2` (R124). -/
def execFrHdr2 (s : State) : Res State :=
  performIf (Selects s Config.hdr2 .hdr2)
    (fun s => .next { s with fbuf := s.fbuf.write 2 Config.hdr2, len := 3, frState := .readingBody }) s

/-- `FR.MISS` (R125): back to searching; `FBUF` becomes wholly undefined. -/
def execFrMiss (b : Byte) (s : State) : Res State :=
  performIf (Selects s b (.miss b)) (fun s => .next { s with fbuf := [], len := 0, frState := .searching }) s

/-- `FR.BODY` (R126): the byte is not examined. -/
def execFrBody (b : Byte) (s : State) : Res State :=
  performIf (Selects s b (.body b)) (fun s => .next { s with fbuf := s.fbuf.write s.len.toNat b, len := s.len + 1 }) s

/-- `FR.END` (R127): the frame is delimited; the remaining stages run in the same event (R246). -/
def execFrEnd (s : State) : Res State :=
  performIf (Selects s Config.marker .endFrame)
    (fun s => runBackEnd { s with fbuf := s.fbuf.write Config.offEnd Config.marker, len := 105, frState := .done }) s

/-- `FR.BADEND` (R128): the attempt fails. -/
def execFrBadend (b : Byte) (s : State) : Res State :=
  performIf (Selects s b (.badend b))
    (fun s => .next (raiseError .incompleteFrame
      { s with fbuf := s.fbuf.write Config.offEnd b, len := 105, frState := .failed })) s

/-- `FR.TIMEOUT` (R129): accepted in the three active states of `Framing`, dropped elsewhere (R42). -/
def execFrTimeout (s : State) : Res State :=
  performIf (s.stage = .framing ∧ (s.frState = .searching ∨ s.frState = .matchingHeader ∨ s.frState = .readingBody))
    (fun s => .next (raiseError .incompleteFrame { s with frState := .failed })) s

/-! ## The event `RX(b)`, and a frame offered whole -/

/-- The operation that the map of R102 selected. -/
def runRxOp (op : RxOp) (s : State) : Res State :=
  match op with
  | .mark => execFrMark s
  | .skip b => execFrSkip b s
  | .remark => execFrRemark s
  | .hdr1 => execFrHdr1 s
  | .hdr2 => execFrHdr2 s
  | .miss b => execFrMiss b s
  | .body b => execFrBody b s
  | .endFrame => execFrEnd s
  | .badend b => execFrBadend b s

/-- The event `RX(b)`: the selected operation, or no state change where the byte is not accepted (R42, R102). -/
def receive (b : Byte) (s : State) : Res State :=
  match selectRx s.context b with
  | some op => runRxOp op s
  | none => .next s

/-- `RX* h` (R107): the bytes offered one event at a time, in order. -/
def receiveAll : List Byte → State → Res State
  | [], s => .next s
  | b :: bs, s => andThen (receive b s) fun s' => receiveAll bs s'

/-- `FRAME x` (R107): `RX*` of the 105 bytes of the frame (R90). -/
def execFrame (body : List Byte) (crc : Half) (s : State) : Res State :=
  receiveAll (frameBytes body crc) s

end Sys2Proof.Machine
end

