-- ==== Sys2Proof/Machine/Dispatch.lean ====
section
/-! DEFINITION. The meaning of every operation of spec/opcode_table.json: one arm a row. -/

namespace Sys2Proof.Machine

def exec (i : Instr) (s : State) : Host.Outcome State Fault Refusal :=
  match i with
  | .reset => Sys2Proof.Machine.execReset s
  | .abort => Sys2Proof.Machine.execAbort s
  | .loadKey k => Sys2Proof.Machine.execLoadKey k s
  | .start => Sys2Proof.Machine.execStart s
  | .nop => Sys2Proof.Machine.execNop s
  | .frMark => Sys2Proof.Machine.execFrMark s
  | .frSkip b => Sys2Proof.Machine.execFrSkip b s
  | .frRemark => Sys2Proof.Machine.execFrRemark s
  | .frHdr1 => Sys2Proof.Machine.execFrHdr1 s
  | .frHdr2 => Sys2Proof.Machine.execFrHdr2 s
  | .frMiss b => Sys2Proof.Machine.execFrMiss b s
  | .frBody b => Sys2Proof.Machine.execFrBody b s
  | .frEnd => Sys2Proof.Machine.execFrEnd s
  | .frBadend b => Sys2Proof.Machine.execFrBadend b s
  | .frTimeout => Sys2Proof.Machine.execFrTimeout s
  | .validate => Sys2Proof.Machine.execValidate s
  | .decrypt => Sys2Proof.Machine.execDecrypt s
  | .deriveIv => Sys2Proof.Machine.execDeriveIv s
  | .extract => Sys2Proof.Machine.execExtract s
  | .raise e => Sys2Proof.Machine.execRaise e s
  | .complete => Sys2Proof.Machine.execComplete s
  | .mirror8 b => Sys2Proof.Machine.execMirror8 b s
  | .crc16Update reg b => Sys2Proof.Machine.execCrc16Update reg b s
  | .crc16 seq => Sys2Proof.Machine.execCrc16 seq s
  | .subBytes st => Sys2Proof.Machine.execSubBytes st s
  | .shiftRows st => Sys2Proof.Machine.execShiftRows st s
  | .mixColumns st => Sys2Proof.Machine.execMixColumns st s
  | .addRoundKey st rk => Sys2Proof.Machine.execAddRoundKey st rk s
  | .keyExpansion key => Sys2Proof.Machine.execKeyExpansion key s
  | .aes128 key blk => Sys2Proof.Machine.execAes128 key blk s
  | .inc128 blk => Sys2Proof.Machine.execInc128 blk s
  | .keystream key iv lenCt => Sys2Proof.Machine.execKeystream key iv lenCt s
  | .ctrXor ks => Sys2Proof.Machine.execCtrXor ks s
  | .u32be o => Sys2Proof.Machine.execU32be o s
  | .scaleEnergy v => Sys2Proof.Machine.execScaleEnergy v s
  | .powerValue v => Sys2Proof.Machine.execPowerValue v s
  | .frame body crc => Sys2Proof.Machine.execFrame body crc s

end Sys2Proof.Machine
end

