-- ==== Sys2Proof/Machine/Step.lean ====
section
/-! DEFINITION. One step: the next offered event is taken off the script and handled completely (spec/00_scope.md R8,
spec/10_state.md R40, R42). -/

namespace Sys2Proof.Machine

/-- One step. With nothing offered the core waits and all state survives (R287); an event that is not accepted changes no
state of the core (R42); an instance whose `P` is ill-formed has no meaning (R7). -/
def step (s : State) : Host.Outcome State Fault Refusal :=
  if s.params.WellFormed then
    match fetch s with
    | .op i rest => exec i { s with script := rest }
    | .notAccepted rest => .next { s with script := rest }
    | .idle => .next s
    | .rejected why => .refused (.malformedScript why)
  else .refused .illFormedParams

/-- The bytes that `FBUF` holds when a FrameReader's search stands at `LEN` = `n` ≤ 2 (R27). -/
def headerPrefix (n : Nat) : Memory :=
  Memory.ofBytes 0 ([Config.marker, Config.hdr1].take n)

/-- `s` with a word of spec/opcode_table.json offered next: its record at the head of the script, and the core in the
context where the word's pattern is looked at (`tableContext`), with the `FBUF` bytes that `LEN` counts there. -/
def State.withFetchWord (s : State) (nbits w : Nat) : State :=
  match tableScript nbits w with
  | some (ctx, tape) =>
    { s with
      stage := ctx.stage, frState := ctx.frState, len := ctx.len, fbuf := headerPrefix ctx.len.toNat,
      script := tape }
  | none => s

end Sys2Proof.Machine
end

