-- ==== Sys2Proof/Machine/Ports.lean ====
section
/-! DEFINITION. Events offered at the same clock edge (spec/60_exceptions.md R272) and the signal-level binding of
spec/10_state.md R43. No operation of the core uses either. -/

namespace Sys2Proof.Machine

/-- A host command other than `ABORT`. -/
inductive HostCommand where
  | nop
  | loadKey (k : Block)
  | start
  deriving DecidableEq, Repr

/-- The events offered together at one edge (R272). -/
structure Offers where
  reset : Bool
  abort : Bool
  command : Option HostCommand
  rx : Option Byte
  timeout : Bool
  deriving DecidableEq, Repr

/-- The record of the event `RX(b)`. -/
def rxRecord (b : Byte) : List Byte :=
  [5, b]

/-- The operation of a host command. -/
def HostCommand.toInstr : HostCommand → Instr
  | .nop => .nop
  | .loadKey k => .loadKey k
  | .start => .start

/-- The events of an edge as records, in the order they are taken: `RESET`, `ABORT`, the other command, `RX`, `RX_TIMEOUT`
(R272). -/
def Offers.records (o : Offers) : List (List Byte) :=
  (if o.reset then [encode .reset] else []) ++
  (if o.abort then [encode .abort] else []) ++
  (match o.command with | some c => [encode c.toInstr] | none => []) ++
  (match o.rx with | some b => [rxRecord b] | none => []) ++
  (if o.timeout then [encode .frTimeout] else [])

/-- The input signals of R43 at one edge. -/
structure Pins where
  rst : Bool
  cmdValid : Bool
  /-- 0 no operation, 1 `LOAD_KEY`, 2 `START`, 3 `ABORT` (R103). -/
  cmd : BitVec 2
  /-- `KEY[0]` in bits 127..120. -/
  cmdKey : Block
  rxValid : Bool
  rxData : Byte
  /-- A pulse, taken only when no byte is offered. -/
  rxTimeout : Bool
  deriving DecidableEq, Repr

/-- What the signals offer: the timeout pulse is taken only when `rx_valid` = 0 (R43, R272). -/
def Pins.offers (p : Pins) : Offers where
  reset := p.rst
  abort := p.cmdValid && p.cmd == 3
  command :=
    if p.cmdValid then
      if p.cmd = 0 then some .nop else if p.cmd = 1 then some (.loadKey p.cmdKey) else if p.cmd = 2 then some .start else none
    else none
  rx := if p.rxValid then some p.rxData else none
  timeout := p.rxTimeout && !p.rxValid

/-- Offers records one after the other, each handled completely, with its acceptance test, before the next (R272). -/
def offerAll : List (List Byte) → State → Res State
  | [], s => .next s
  | r :: rs, s => andThen (step { s with script := r ++ s.script }) fun s' => offerAll rs s'

/-! ## Ready outputs and one clock edge (R43)

An event is the edge at which valid and ready are both 1, and the ready outputs implement the acceptance test of R42, which R272
makes against the state that the earlier events of the same edge left. The ready outputs therefore follow the inputs of the same
edge (DEDUCED, log 15). -/

/-- The state in which the command of an edge is tested: after `rst` (R272). -/
def Pins.atCommand (p : Pins) (s : State) : State :=
  if p.rst then resetCore s else s

/-- `cmd_ready` at an edge. -/
def Pins.cmdReady (p : Pins) (s : State) : Bool :=
  Sys2Proof.Machine.cmdReady p.cmd (p.atCommand s)

/-- What the command on the bus does once it is accepted (R103). -/
def Pins.takeCommand (p : Pins) (s : State) : State :=
  if p.cmd = 0 then s
  else if p.cmd = 1 then installKey p.cmdKey s
  else if p.cmd = 2 then beginDecode s
  else restartAt .idle s

/-- The state in which the receive port of an edge is tested: after `rst` and the command, taken where `cmd_valid` and
`cmd_ready` are both 1 (R43, R272). -/
def Pins.atReceive (p : Pins) (s : State) : State :=
  if p.cmdValid && p.cmdReady s then p.takeCommand (p.atCommand s) else p.atCommand s

/-- `rx_ready` at an edge. -/
def Pins.rxReady (p : Pins) (s : State) : Bool :=
  Sys2Proof.Machine.rxReady (p.atReceive s)

/-- One clock edge of the signal binding (R43): a byte is taken where `rx_valid` and `rx_ready` are both 1, a timeout pulse where
`rx_ready` is 1 and `rx_valid` is 0. An instance whose `P` is ill-formed has no meaning (R7). -/
def clockEdge (p : Pins) (s : State) : Res State :=
  if s.params.WellFormed then
    if p.rxValid && p.rxReady s then receive p.rxData (p.atReceive s)
    else if p.rxTimeout && !p.rxValid && p.rxReady s then execFrTimeout (p.atReceive s)
    else .next (p.atReceive s)
  else .refused .illFormedParams

/-- The output signals of R43 at an edge: the level outputs of the state before it, and the two ready outputs. -/
structure EdgeOutputs extends Outputs where
  cmdReady : Bool
  deriving DecidableEq, Repr

/-- The output signals at an edge with the given inputs. -/
def Pins.outputs (p : Pins) (s : State) : EdgeOutputs where
  toOutputs := { Sys2Proof.Machine.outputs s with rxReady := p.rxReady s }
  cmdReady := p.cmdReady s

end Sys2Proof.Machine
end

