-- ==== Sys2Proof/Safety.lean ====
section
/-! DEFINITION. The quantities the spec names for a frame (spec/30_encoding.md R100), as functions of its bytes by frame
offset; what a sound state of one instance is (the invariants that spec/10_state.md states in R21, R22, R27, R29, R30 and R34);
and what a safe run is. -/

namespace Sys2Proof.Machine

/-! ## A frame by its bytes -/

/-- `FBUF[0..n-1]` holds the bytes `F`. -/
def HoldsFrame (s : State) (n : Nat) (F : Nat → Byte) : Prop :=
  ∀ a, a < n → s.fbuf.read? a = some (F a)

/-- `crc16` of frame offsets 1 to 101 (R158). -/
def frameCrc (F : Nat → Byte) : Half :=
  crc16 ((List.range 101).map fun j => F (1 + j))

/-- The embedded CRC field: `F[102] ‖ F[103]` (R95, R159). -/
def frameCrcField (F : Nat → Byte) : Half :=
  F 102 ++ F 103

/-- The InitializationVector of a frame: SystemTitle ‖ InvocationCounter ‖ 00 00 00 02 (R171). -/
def frameIv (P : Params) (F : Nat → Byte) : Block :=
  ivOf ((List.range 8).map fun j => F (P.offSt + j)) ((List.range 4).map fun j => F (P.offIc + j))

/-- PlainText byte `i` of a frame under a key (R193). -/
def framePlain (P : Params) (key : Block) (F : Nat → Byte) (i : Nat) : Byte :=
  F (P.offCt + i) ^^^ keystreamByte (keystream key (frameIv P F) P.lenCt) i

/-- The 32-bit field at offset `o` of a byte sequence (R221): the first byte most significant. -/
def fieldAt (pt : Nat → Byte) (o : Nat) : Word :=
  pt o ++ pt (o + 1) ++ pt (o + 2) ++ pt (o + 3)

/-! ## Sound states -/

/-- `FBUF[0..2]` = 7E A0 67 (R27). -/
def HeaderStored (s : State) : Prop :=
  s.fbuf.read? 0 = some Config.marker ∧ s.fbuf.read? 1 = some Config.hdr1 ∧ s.fbuf.read? 2 = some Config.hdr2

/-- The FrameReader's state invariant (R27). -/
def FrameReaderSound (s : State) : Prop :=
  match s.frState with
  | .searching => s.len = 0
  | .matchingHeader =>
    s.fbuf.read? 0 = some Config.marker ∧ (s.len = 1 ∨ (s.len = 2 ∧ s.fbuf.read? 1 = some Config.hdr1))
  | .readingBody => 3 ≤ s.len.toNat ∧ s.len.toNat ≤ 104 ∧ HeaderStored s
  | .done => s.len = 105 ∧ HeaderStored s ∧ s.fbuf.read? 104 = some Config.marker
  | .failed => s.len.toNat ≤ 105

/-- What the host can find between two events: `Idle`, `Framing` or `Complete` (R29, R42), each with its FrameReader states
(R42, R131) and its `RES_VALID` (R29, R30). -/
def StageSound (s : State) : Prop :=
  match s.stage with
  | .idle => s.frState = .searching ∧ s.resValid = false
  | .framing =>
    (s.frState = .searching ∨ s.frState = .matchingHeader ∨ s.frState = .readingBody) ∧ s.resValid = false
  | .complete => (s.frState = .done ∨ s.frState = .failed) ∧ s.resValid = true
  | .validating => False
  | .decrypting => False
  | .extracting => False

/-- The result flags (R30), and `RD` defined exactly while a Reading is held (R24). -/
def ResultSound (s : State) : Prop :=
  (s.resValid = false → s.resOk = false ∧ s.err = none) ∧
  (s.resOk = true → s.err = none) ∧
  (s.resValid = true → s.resOk = false → s.err.isSome = true) ∧
  (s.rd.isSome = s.resOk)

/-- A state that the machine can be found in between two events. -/
structure State.Inv (s : State) : Prop where
  /-- `KEY` is defined exactly while `KEY_VALID` = 1 (R21). -/
  key_defined : s.key.isSome = s.keyValid
  fbuf_canonical : s.fbuf.wf
  /-- `FBUF[i]` is defined exactly for i < `LEN` (R22). -/
  fbuf_defined : ∀ i, (s.fbuf.read? i).isSome = decide (i < s.len.toNat)
  pt_canonical : s.pt.wf
  /-- `PT` is wholly defined or wholly undefined (R23, R34). -/
  pt_defined : s.pt = [] ∨ ∀ i, (s.pt.read? i).isSome = decide (i < s.params.lenCt)
  frame_reader : FrameReaderSound s
  stage_sound : StageSound s
  result_sound : ResultSound s
  /-- Outside `Complete` every output of the stages after the frame is undefined (R34). -/
  transients_undefined : s.stage ≠ .complete → s.crcCalc = none ∧ s.iv = none ∧ s.pt = [] ∧ s.rd = none

/-- A step is safe where it ends in a next state: neither a fault nor a refusal. -/
def StepSafe (s : State) : Prop :=
  ∃ t, step s = .next t

/-- `n` safe steps from `s`. -/
def RunSafe (n : Nat) (s : State) : Prop :=
  ∃ t, Host.Core.run Sys2Proof.core n s = .next t

end Sys2Proof.Machine
end

