-- ==== Sys2Proof/Certificates/Slice0/Obligations.lean ====
section
/-! DEFINITION. What is stated about the machine, rule by rule of spec/. A frame is written `{ t with x := s.x, … } = s`: every
field of the state but the named ones, the model's own fields included, is as before. -/

open Sys2Proof Sys2Proof.Machine

/-! ## Vocabulary of the statements -/

/-- The stage in which each error is raised (R260). -/
def Sys2Proof.Certificates.raisedIn : DecodeError → Stage
  | .incompleteFrame => .framing
  | .crcMismatch => .validating
  | .decryptionFailure => .decrypting
  | .fieldOutOfRange => .extracting

/-- The arcs of the FrameReader on a byte (R131): the operation, and the state and `LEN` afterwards. -/
def Sys2Proof.Certificates.arc (f : FrState) (n : Nat) (b : Byte) : RxOp × FrState × Nat :=
  match f with
  | .searching => if b = 0x7E then (.mark, .matchingHeader, 1) else (.skip b, .searching, 0)
  | .matchingHeader =>
    if b = 0x7E then (.remark, .matchingHeader, 1)
    else if n = 1 ∧ b = 0xA0 then (.hdr1, .matchingHeader, 2)
    else if n = 2 ∧ b = 0x67 then (.hdr2, .readingBody, 3)
    else (.miss b, .searching, 0)
  | .readingBody =>
    if n ≤ 103 then (.body b, .readingBody, n + 1)
    else if b = 0x7E then (.endFrame, .done, 105) else (.badend b, .failed, 105)
  | .done => (.skip b, .done, n)
  | .failed => (.skip b, .failed, n)

/-- `f` applied `n` times. -/
def Sys2Proof.Certificates.times {α : Type} (f : α → α) : Nat → α → α
  | 0, a => a
  | n + 1, a => Sys2Proof.Certificates.times f n (f a)

/-- One bit of the bit-serial form of R153, on (`REG`, `c`). -/
def Sys2Proof.Certificates.serialBit (p : Half × Half) : Half × Half :=
  (if (p.1 ^^^ p.2).getLsbD 15 then (p.1 <<< 1) ^^^ 0x1021 else p.1 <<< 1, p.2 <<< 1)

/-- One bit of CRC-16/X-25: reflected polynomial 0x8408, least significant bit first (R160). -/
def Sys2Proof.Certificates.x25Bit (r : Half) : Half :=
  if r.getLsbD 0 then (r >>> 1) ^^^ 0x8408 else r >>> 1

/-- CRC-16/X-25 of a byte sequence: start 0xFFFF, final complement (R160). -/
def Sys2Proof.Certificates.x25 (seq : List Byte) : Half :=
  seq.foldl (fun r b => Sys2Proof.Certificates.times Sys2Proof.Certificates.x25Bit 8 (r ^^^ b.setWidth 16)) 0xFFFF
    ^^^ 0xFFFF

/-- Multiplication in GF(2^8) by shift and add (R174): the product of `a` with the low `n` bits of `b`. -/
def Sys2Proof.Certificates.gfMul : Nat → Byte → Byte → Byte
  | 0, _, _ => 0
  | n + 1, a, b =>
    (if b.getLsbD 0 then a else 0) ^^^ Sys2Proof.Certificates.gfMul n (xtime a) (b >>> 1)

/-- `x = SBOX`'s affine step on `x` (R176). -/
def Sys2Proof.Certificates.affine (x : Byte) : Byte :=
  x ^^^ x.rotateLeft 1 ^^^ x.rotateLeft 2 ^^^ x.rotateLeft 3 ^^^ x.rotateLeft 4 ^^^ 0x63

/-! ## Reset and host operations -/

/-- R35: every element right after reset, and what is accepted there. -/
def Obligations.ResetLeavesSpecValues : Prop :=
  State.reset.keyValid = false ∧ State.reset.key = none ∧ State.reset.frState = .searching ∧
  frStateCode State.reset.frState = 0 ∧ State.reset.len = 0 ∧ (∀ a, State.reset.fbuf.read? a = none) ∧
  State.reset.crcCalc = none ∧ State.reset.iv = none ∧ (∀ a, State.reset.pt.read? a = none) ∧ State.reset.rd = none ∧
  State.reset.stage = .idle ∧ stageCode State.reset.stage = 0 ∧ State.reset.resValid = false ∧
  State.reset.resOk = false ∧ State.reset.err = none ∧ errCode State.reset.err = 0 ∧
  (∀ k, ∃ t, exec (.loadKey k) State.reset = .next t ∧ t.key = some k ∧ t.keyValid = true) ∧
  (∃ t, exec .start State.reset = .next t ∧ t.stage = .framing) ∧
  (∃ t, exec .abort State.reset = .next t ∧ t.stage = .idle) ∧
  (∀ b, selectRx State.reset.context b = none)

/-- R300: `RESET` puts every element of the core at its reset value, whatever the state; it emits nothing, and leaves
the instance's configuration and the model's own fields; no other operation clears `KEY_VALID`. (The model's own fields:
logs 1 to 4.) -/
def Obligations.ResetEventRestoresResetState : Prop :=
  (∀ s : State, exec .reset s = .next
    { State.reset with params := s.params, script := s.script, results := s.results, value := s.value }) ∧
  (∀ (i : Instr) (s t : State), exec i s = .next t → s.keyValid = true → t.keyValid = false → i = .reset)

/-- R244: `ABORT`, always accepted. -/
def Obligations.AbortReturnsToIdle : Prop :=
  ∀ s : State, exec .abort s = .next
    { s with
      stage := .idle, frState := .searching, len := 0, resValid := false, resOk := false, err := none,
      fbuf := [], crcCalc := none, iv := none, pt := [], rd := none }

/-- R243: `START`, accepted exactly in `Idle` and `Complete`. -/
def Obligations.StartBeginsDecode : Prop :=
  ∀ s : State,
    (s.stage = .idle ∨ s.stage = .complete → exec .start s = .next
      { s with
        stage := .framing, frState := .searching, len := 0, resValid := false, resOk := false, err := none,
        fbuf := [], crcCalc := none, iv := none, pt := [], rd := none }) ∧
    (¬(s.stage = .idle ∨ s.stage = .complete) → exec .start s = .next s)

/-- R241: `LOAD_KEY(k)`, accepted exactly while no key is loaded and no decode is running. -/
def Obligations.LoadKeyIsWriteOnce : Prop :=
  ∀ (s : State) (k : Block),
    (s.keyValid = false → s.stage = .idle ∨ s.stage = .complete →
      exec (.loadKey k) s = .next { s with key := some k, keyValid := true }) ∧
    (s.keyValid = true ∨ ¬(s.stage = .idle ∨ s.stage = .complete) → exec (.loadKey k) s = .next s)

/-- R103: the four command codes on the command port; code 0 changes nothing. -/
def Obligations.CommandCodesOnThePort : Prop :=
  (∀ p : Pins, p.cmdValid = true → p.rst = false → p.rxValid = false → p.rxTimeout = false →
    (p.cmd = 0 ∧ p.offers.records = [encode .nop]) ∨ (p.cmd = 1 ∧ p.offers.records = [encode (.loadKey p.cmdKey)]) ∨
    (p.cmd = 2 ∧ p.offers.records = [encode .start]) ∨ (p.cmd = 3 ∧ p.offers.records = [encode .abort])) ∧
  (∀ s : State, exec .nop s = .next s)

/-! ## FrameReader -/

/-- R120 -/
def Obligations.SkipDiscardsByte : Prop :=
  ∀ (s : State) (b : Byte), s.stage = .framing → s.frState = .searching → s.len = 0 → b ≠ 0x7E →
    exec (.frSkip b) s = .next s

/-- R121, R122: a marker starts the accumulation, and restarts it while the header is matched. -/
def Obligations.MarkerRestartsAccumulation : Prop :=
  ∀ s : State, s.stage = .framing →
    (s.frState = .searching → s.len = 0 →
      ∃ t, exec .frMark s = .next t ∧ t.frState = .matchingHeader ∧ t.len = 1 ∧
        (∀ a, t.fbuf.read? a = if a = 0 then some 0x7E else none) ∧
        { t with fbuf := s.fbuf, len := s.len, frState := s.frState } = s) ∧
    (s.frState = .matchingHeader → s.len = 1 ∨ s.len = 2 →
      ∃ t, exec .frRemark s = .next t ∧ t.frState = .matchingHeader ∧ t.len = 1 ∧
        (∀ a, t.fbuf.read? a = if a = 0 then some 0x7E else none) ∧ { t with fbuf := s.fbuf, len := s.len } = s)

/-- R123, R124: the two header bytes are stored; the second completes the header. -/
def Obligations.HeaderBytesAreStored : Prop :=
  ∀ s : State, s.stage = .framing → s.frState = .matchingHeader →
    (s.len = 1 → ∃ t, exec .frHdr1 s = .next t ∧ t.len = 2 ∧
      (∀ a, t.fbuf.read? a = if a = 1 then some 0xA0 else s.fbuf.read? a) ∧
      { t with fbuf := s.fbuf, len := s.len } = s) ∧
    (s.len = 2 → ∃ t, exec .frHdr2 s = .next t ∧ t.len = 3 ∧ t.frState = .readingBody ∧
      (∀ a, t.fbuf.read? a = if a = 2 then some 0x67 else s.fbuf.read? a) ∧
      { t with fbuf := s.fbuf, len := s.len, frState := s.frState } = s)

/-- R125 -/
def Obligations.MissGoesBackToSearching : Prop :=
  ∀ (s : State) (b : Byte), s.stage = .framing → s.frState = .matchingHeader → b ≠ 0x7E →
    (s.len = 1 ∧ b ≠ 0xA0) ∨ (s.len = 2 ∧ b ≠ 0x67) →
    ∃ t, exec (.frMiss b) s = .next t ∧ t.len = 0 ∧ t.frState = .searching ∧ (∀ a, t.fbuf.read? a = none) ∧
      { t with fbuf := s.fbuf, len := s.len, frState := s.frState } = s

/-- R126: any byte, 0x7E included. -/
def Obligations.BodyByteIsAppended : Prop :=
  ∀ (s : State) (b : Byte), s.stage = .framing → s.frState = .readingBody → 3 ≤ s.len.toNat → s.len.toNat ≤ 103 →
    ∃ t, exec (.frBody b) s = .next t ∧ t.len.toNat = s.len.toNat + 1 ∧
      (∀ a, t.fbuf.read? a = if a = s.len.toNat then some b else s.fbuf.read? a) ∧
      { t with fbuf := s.fbuf, len := s.len } = s

/-- R128 -/
def Obligations.BadClosingByteIsIncompleteFrame : Prop :=
  ∀ (s : State) (b : Byte), s.stage = .framing → s.frState = .readingBody → s.len = 104 → b ≠ 0x7E →
    ∃ t, exec (.frBadend b) s = .next t ∧ t.len = 105 ∧ t.frState = .failed ∧
      (∀ a, t.fbuf.read? a = if a = 104 then some b else s.fbuf.read? a) ∧
      t.stage = .complete ∧ t.resValid = true ∧ t.resOk = false ∧ errCode t.err = 1 ∧
      t.results = s.results ++ [.err .incompleteFrame] ∧
      { t with
        fbuf := s.fbuf, len := s.len, frState := s.frState, stage := s.stage, resValid := s.resValid,
        resOk := s.resOk, err := s.err, results := s.results } = s

/-- R129: in all three active states, whatever `LEN`. -/
def Obligations.TimeoutIsIncompleteFrame : Prop :=
  ∀ s : State, s.stage = .framing → s.frState = .searching ∨ s.frState = .matchingHeader ∨ s.frState = .readingBody →
    ∃ t, exec .frTimeout s = .next t ∧ t.frState = .failed ∧ t.stage = .complete ∧ t.resValid = true ∧
      t.resOk = false ∧ errCode t.err = 1 ∧ t.results = s.results ++ [.err .incompleteFrame] ∧
      { t with
        frState := s.frState, stage := s.stage, resValid := s.resValid, resOk := s.resOk, err := s.err,
        results := s.results } = s

/-- R131: the complete transition table of the FrameReader, from every sound state: on its own inputs, and that nothing else
changes `FR_STATE` or `LEN`. A byte operation is the event `RX` of its byte where the map selects it and does nothing elsewhere;
`FRAME` is 105 such events. (The rows run as operations by themselves are the model's choice, logs 3, 7, 11 and 12.) -/
def Obligations.FrameReaderTransitionTable : Prop :=
  ∀ s : State, s.Inv → s.params.WellFormed →
    (s.stage = .framing →
      (∀ b, ∃ t, receive b s = .next t ∧ selectRx s.context b = some (Sys2Proof.Certificates.arc s.frState s.len.toNat b).1 ∧
        (t.frState, t.len.toNat) = (Sys2Proof.Certificates.arc s.frState s.len.toNat b).2) ∧
      (∃ t, exec .frTimeout s = .next t ∧ t.frState = .failed ∧ t.len = s.len)) ∧
    (s.frState = .done ∨ s.frState = .failed → s.stage ≠ .framing) ∧
    (s.stage ≠ .framing → (∀ b, receive b s = .next s) ∧ exec .frTimeout s = .next s) ∧
    (s.stage ≠ .framing → ∃ t, exec .start s = .next t ∧ t.frState = .searching ∧ t.len = 0) ∧
    (s.stage = .framing → exec .start s = .next s) ∧
    (∃ t, exec .abort s = .next t ∧ t.frState = .searching ∧ t.len = 0) ∧
    (∃ t, exec .reset s = .next t ∧ t.frState = .searching ∧ t.len = 0) ∧
    (∀ i b op, i.rxOp = some (b, op) →
      exec i s = if selectRx s.context b = some op then receive b s else .next s) ∧
    (∀ body crc, exec (.frame body crc) s = receiveAll (frameBytes body crc) s) ∧
    (∀ i t, exec i s = .next t → i.rxOp = none → i ≠ .frTimeout → i ≠ .start → i ≠ .abort → i ≠ .reset →
      (∀ body crc, i ≠ .frame body crc) → t.frState = s.frState ∧ t.len = s.len)

/-- R42: what is accepted, and that an event that is not accepted changes no state: the step only takes the offer away.
(That it takes the offer away is the model's choice, logs 4 and 8.) -/
def Obligations.UnacceptedEventsChangeNothing : Prop :=
  ∀ (s : State) (rest : List Byte), s.Inv → s.params.WellFormed →
    (∀ b, s.stage = .framing → (selectRx s.context b).isSome = true) ∧
    (∀ b, s.stage ≠ .framing → s.script = 5 :: b :: rest → step s = .next { s with script := rest }) ∧
    (s.stage ≠ .framing → s.script = encode .frTimeout ++ rest → step s = .next { s with script := rest }) ∧
    (s.stage = .framing → s.script = encode .start ++ rest → step s = .next { s with script := rest }) ∧
    (∀ k, s.keyValid = true ∨ s.stage = .framing → s.script = encode (.loadKey k) ++ rest →
      step s = .next { s with script := rest })

/-! ## The stages after the frame -/

/-- R158, R159 -/
def Obligations.ValidateComparesChecksum : Prop :=
  ∀ (s : State) (F : Nat → Byte), s.stage = .validating → HoldsFrame s 104 F →
    ∃ t, exec .validate s = .next t ∧ t.crcCalc = some (crc16 ((List.range 101).map fun j => F (1 + j))) ∧
      (crc16 ((List.range 101).map fun j => F (1 + j)) = F 102 ++ F 103 → { t with crcCalc := s.crcCalc } = s) ∧
      (crc16 ((List.range 101).map fun j => F (1 + j)) ≠ F 102 ++ F 103 →
        t.stage = .complete ∧ t.resValid = true ∧ t.resOk = false ∧ errCode t.err = 2 ∧
        t.results = s.results ++ [.err .crcMismatch] ∧
        { t with
          crcCalc := s.crcCalc, stage := s.stage, resValid := s.resValid, resOk := s.resOk, err := s.err,
          results := s.results } = s)

/-- R171 -/
def Obligations.DeriveIvConcatenatesFields : Prop :=
  ∀ (s : State) (F : Nat → Byte), s.stage = .decrypting → s.params.WellFormed → HoldsFrame s 102 F →
    ∃ t iv, exec .deriveIv s = .next t ∧ t.iv = some iv ∧
      (∀ i, i < 8 → blockByte iv i = F (s.params.offSt + i)) ∧
      (∀ i, i < 4 → blockByte iv (8 + i) = F (s.params.offIc + i)) ∧
      blockByte iv 12 = 0x00 ∧ blockByte iv 13 = 0x00 ∧ blockByte iv 14 = 0x00 ∧ blockByte iv 15 = 0x02 ∧
      { t with iv := s.iv } = s

/-- R172 (b): two frames with different SystemTitle or InvocationCounter bytes get different IVs. -/
def Obligations.IvIsInjectiveInItsFields : Prop :=
  ∀ (P : Params) (F G : Nat → Byte), frameIv P F = frameIv P G →
    (∀ i, i < 8 → F (P.offSt + i) = G (P.offSt + i)) ∧ (∀ i, i < 4 → F (P.offIc + i) = G (P.offIc + i))

/-- R193 -/
def Obligations.CtrXorWritesPlainText : Prop :=
  ∀ (s : State) (F : Nat → Byte) (ks : List Block), s.stage = .decrypting → s.params.WellFormed → HoldsFrame s 102 F →
    s.params.lenCt ≤ 16 * ks.length →
    ∃ t, exec (.ctrXor ks) s = .next t ∧
      (∀ i, t.pt.read? i =
        if i < s.params.lenCt then some (F (s.params.offCt + i) ^^^ blockByte (ks.getD (i / 16) 0) (i % 16)) else none) ∧
      { t with pt := s.pt } = s

/-- R195: the key check, then the IV and the PlainText; `FBUF` is unchanged. -/
def Obligations.DecryptNeedsAKey : Prop :=
  ∀ (s : State) (F : Nat → Byte), s.stage = .decrypting → s.params.WellFormed → HoldsFrame s 102 F →
    (s.keyValid = false →
      ∃ t, exec .decrypt s = .next t ∧ t.stage = .complete ∧ t.resValid = true ∧ t.resOk = false ∧ errCode t.err = 3 ∧
        t.results = s.results ++ [.err .decryptionFailure] ∧
        { t with
          stage := s.stage, resValid := s.resValid, resOk := s.resOk, err := s.err, results := s.results } = s) ∧
    (∀ key, s.keyValid = true → s.key = some key →
      ∃ t, exec .decrypt s = .next t ∧ t.iv = some (frameIv s.params F) ∧
        (∀ i, t.pt.read? i =
          if i < s.params.lenCt then
            some (F (s.params.offCt + i) ^^^
              blockByte ((keystream key (frameIv s.params F) s.params.lenCt).getD (i / 16) 0) (i % 16))
          else none) ∧
        { t with iv := s.iv, pt := s.pt } = s)

/-- R225, R226 -/
def Obligations.ExtractReadsEightFields : Prop :=
  ∀ (s : State) (f : Nat → Byte), s.stage = .extracting → s.params.WellFormed →
    (∀ j, j < s.params.lenCt → s.pt.read? j = some (f j)) →
    ((∃ k : Fin 8, s.params.offFld[k] + 4 > s.params.lenCt) →
      ∃ t, exec .extract s = .next t ∧ t.stage = .complete ∧ t.resValid = true ∧ t.resOk = false ∧ errCode t.err = 4 ∧
        t.results = s.results ++ [.err .fieldOutOfRange] ∧
        { t with
          stage := s.stage, resValid := s.resValid, resOk := s.resOk, err := s.err, results := s.results } = s) ∧
    ((∀ k : Fin 8, s.params.offFld[k] + 4 ≤ s.params.lenCt) →
      ∃ t rd, exec .extract s = .next t ∧ t.rd = some rd ∧
        (∀ k : Fin 8, rd[k] = f s.params.offFld[k] ++ f (s.params.offFld[k] + 1) ++ f (s.params.offFld[k] + 2) ++
          f (s.params.offFld[k] + 3)) ∧
        { t with rd := s.rd } = s)

/-- R266. (`results` is the model's record of the output events, log 2.) -/
def Obligations.RaiseWritesFourElements : Prop :=
  ∀ (s : State) (e : DecodeError), s.stage = Sys2Proof.Certificates.raisedIn e →
    (e = .incompleteFrame → s.frState = .failed) →
    exec (.raise e) s = .next
      { s with
        stage := .complete, resValid := true, resOk := false, err := some e, results := s.results ++ [.err e] }

/-- R249. (`results` is the model's record of the output events, log 2.) -/
def Obligations.CompleteHoldsTheReading : Prop :=
  ∀ (s : State) (rd : Vector Word 8), s.stage = .extracting → s.rd = some rd →
    exec .complete s = .next
      { s with
        stage := .complete, resValid := true, resOk := true, err := none,
        results := s.results ++ [.ok {
          activeEnergyPos := { whole := rd[0].toNat / 1000, thousandths := rd[0].toNat % 1000 }
          activeEnergyNeg := { whole := rd[1].toNat / 1000, thousandths := rd[1].toNat % 1000 }
          reactiveEnergyPos := { whole := rd[2].toNat / 1000, thousandths := rd[2].toNat % 1000 }
          reactiveEnergyNeg := { whole := rd[3].toNat / 1000, thousandths := rd[3].toNat % 1000 }
          activePowerPos := rd[4]
          activePowerNeg := rd[5]
          reactivePowerPos := rd[6]
          reactivePowerNeg := rd[7] }] }

/-- R127, R246, R273: the closing marker is stored and the stages run in their order; the first error is the one reported. -/
def Obligations.FrameEndReportsFirstError : Prop :=
  ∀ (s : State) (F : Nat → Byte), s.stage = .framing → s.frState = .readingBody → s.len = 104 →
    s.params.WellFormed → s.key.isSome = s.keyValid → HoldsFrame s 104 F →
    ∃ t, exec .frEnd s = .next t ∧ t.frState = .done ∧ t.len = 105 ∧
      (∀ a, t.fbuf.read? a = if a = 104 then some 0x7E else s.fbuf.read? a) ∧
      t.stage = .complete ∧ t.resValid = true ∧ t.crcCalc = some (frameCrc F) ∧
      (frameCrc F ≠ frameCrcField F →
        t.err = some .crcMismatch ∧ t.iv = s.iv ∧ t.pt = s.pt ∧ t.rd = s.rd) ∧
      (frameCrc F = frameCrcField F → s.keyValid = false →
        t.err = some .decryptionFailure ∧ t.iv = s.iv ∧ t.pt = s.pt ∧ t.rd = s.rd) ∧
      (frameCrc F = frameCrcField F → s.keyValid = true →
        t.iv = some (frameIv s.params F) ∧
        (∀ key i, s.key = some key →
          t.pt.read? i = if i < s.params.lenCt then some (framePlain s.params key F i) else none) ∧
        (¬s.params.FieldsFit → t.err = some .fieldOutOfRange ∧ t.rd = s.rd) ∧
        (s.params.FieldsFit → t.err = none ∧ ∀ key, s.key = some key → ∃ rd, t.rd = some rd ∧
          ∀ k : Fin 8, rd[k] = fieldAt (framePlain s.params key F) s.params.offFld[k])) ∧
      (t.resOk = true ↔ t.err = none) ∧
      (∀ e, t.err = some e → t.results = s.results ++ [.err e]) ∧
      (t.err = none → ∃ rd, t.rd = some rd ∧ t.results = s.results ++ [.ok (readingOf rd)]) ∧
      { t with
        frState := s.frState, len := s.len, fbuf := s.fbuf, crcCalc := s.crcCalc, iv := s.iv, pt := s.pt, rd := s.rd,
        stage := s.stage, resValid := s.resValid, resOk := s.resOk, err := s.err, results := s.results } = s

/-- A frame with a right CRC field, offered after any bytes that contain no header, decodes to its own fields (R132, R133, R195,
R225). (`results` is the model's record of the output events, log 2.) -/
def Obligations.ValidFrameDecodesToItsFields : Prop :=
  ∀ (s : State) (g body : List Byte) (crc : Half) (key : Block), s.Inv → s.params.WellFormed → s.params.FieldsFit →
    s.stage = .framing → s.frState = .searching → s.keyValid = true → s.key = some key → body.length = 99 →
    (∀ p, p < g.length → ((g ++ frameBytes body crc).drop p).take 3 ≠ [0x7E, 0xA0, 0x67]) →
    crc = crc16 (0xA0 :: 0x67 :: body) →
    ∃ t rd, receiveAll (g ++ frameBytes body crc) s = .next t ∧ t.stage = .complete ∧ t.resOk = true ∧ t.rd = some rd ∧
      (∀ k : Fin 8, rd[k] =
        fieldAt (framePlain s.params key fun i => (frameBytes body crc).getD i 0) s.params.offFld[k]) ∧
      t.results = s.results ++ [.ok (readingOf rd)]

/-- R252: what a `RESULT(Ok)` means: the bytes of the decode were a prefix without a header, then a frame with a right CRC
field; a key was loaded; and the fields are those of the frame's decryption under it. -/
def Obligations.OkMeansAValidFrame : Prop :=
  ∀ (s t : State) (bs : List Byte), s.Inv → s.params.WellFormed → s.stage = .framing → s.frState = .searching →
    receiveAll bs s = .next t → t.resOk = true →
    ∃ (g fr rest : List Byte) (key : Block) (rd : Vector Word 8),
      bs = g ++ fr ++ rest ∧ fr.length = 105 ∧ fr.take 3 = [0x7E, 0xA0, 0x67] ∧ fr[104]? = some 0x7E ∧
      (∀ p, p < g.length → ((g ++ fr).drop p).take 3 ≠ [0x7E, 0xA0, 0x67]) ∧
      (frameCrc fun i => fr.getD i 0) = (frameCrcField fun i => fr.getD i 0) ∧
      s.keyValid = true ∧ s.key = some key ∧ t.rd = some rd ∧
      ∀ k : Fin 8, rd[k] = fieldAt (framePlain s.params key fun i => fr.getD i 0) s.params.offFld[k]

/-- R132: the attempt locks on the first 7E A0 67 and takes exactly the 102 bytes after it; no byte before ends it. -/
def Obligations.AttemptLocksOnFirstHeader : Prop :=
  ∀ (s : State) (g body : List Byte) (e : Byte), s.Inv → s.params.WellFormed →
    s.stage = .framing → s.frState = .searching → body.length = 101 →
    (∀ p, p < g.length → ((g ++ [0x7E, 0xA0, 0x67]).drop p).take 3 ≠ [0x7E, 0xA0, 0x67]) →
    (∃ t, receiveAll (g ++ [0x7E, 0xA0, 0x67] ++ body) s = .next t ∧ t.stage = .framing ∧
      t.frState = .readingBody ∧ t.len = 104) ∧
    (∃ t, receiveAll (g ++ [0x7E, 0xA0, 0x67] ++ body ++ [e]) s = .next t ∧ t.stage = .complete ∧ t.len = 105 ∧
      t.frState = (if e = 0x7E then .done else .failed) ∧
      ∀ i, t.fbuf.read? i = ([0x7E, 0xA0, 0x67] ++ body ++ [e])[i]?)

/-- R107: `FRAME x` is `RX*` of its 105 bytes, and `RX*` is its bytes offered one event, that is one step, at a time.
(The records are the model's, log 4.) -/
def Obligations.FrameIsItsBytesStepByStep : Prop :=
  (∀ (s : State) (body : List Byte) (crc : Half), exec (.frame body crc) s = receiveAll (frameBytes body crc) s) ∧
  (∀ (bs rest : List Byte) (s : State), s.params.WellFormed →
    Host.Core.run Sys2Proof.core bs.length { s with script := bs.flatMap rxRecord ++ rest } =
      receiveAll bs { s with script := rest })

/-- A frame offered whole completes, and its checksum decides whether it gets past `validate` (R102, R107, R159). (One
operation by the model's choice, log 12.) -/
def Obligations.FrameOfferedWholeCompletes : Prop :=
  ∀ (s : State) (body : List Byte) (crc : Half), s.Inv → s.params.WellFormed → s.stage = .framing →
    s.frState = .searching → body.length = 99 →
    ∃ t, exec (.frame body crc) s = .next t ∧ t.stage = .complete ∧ t.frState = .done ∧ t.len = 105 ∧
      (∀ i, t.fbuf.read? i = (frameBytes body crc)[i]?) ∧
      t.crcCalc = some (crc16 (0xA0 :: 0x67 :: body)) ∧
      (t.err = some .crcMismatch ↔ crc16 (0xA0 :: 0x67 :: body) ≠ crc) ∧
      { t with
        frState := s.frState, len := s.len, fbuf := s.fbuf, crcCalc := s.crcCalc, iv := s.iv, pt := s.pt, rd := s.rd,
        stage := s.stage, resValid := s.resValid, resOk := s.resOk, err := s.err, results := s.results } = s

/-! ## CRC functions -/

/-- R150: bit i of the result is bit 7 - i, and the function is its own inverse. (`value` is the model's, log 3.) -/
def Obligations.Mirror8ReversesBits : Prop :=
  ∀ (s : State) (b : Byte), ∃ m : Byte, exec (.mirror8 b) s = .next { s with value := .byte m } ∧
    (∀ i, i < 8 → m.getLsbD i = b.getLsbD (7 - i)) ∧ mirror8 m = b

/-- R153: the update is also the bit-serial form that the rule derives. (`value` is the model's, log 3.) -/
def Obligations.CrcUpdateIsBitSerial : Prop :=
  ∀ (s : State) (reg : Half) (b : Byte), exec (.crc16Update reg b) s = .next
    { s with
      value := .half (Sys2Proof.Certificates.times Sys2Proof.Certificates.serialBit 8
        (reg, (mirror8 b).setWidth 16 <<< 8)).1 }

/-- R155: start 0xFFFF, absorb in order, complement, mirror each byte; the empty sequence gives 0. (`value` is the
model's, log 3.) -/
def Obligations.CrcOfASequence : Prop :=
  (∀ (s : State) (seq : List Byte), ∃ h r : Half, exec (.crc16 seq) s = .next { s with value := .half h } ∧
    r = seq.foldl crc16Update 0xFFFF ^^^ 0xFFFF ∧
    h = mirror8 ((r >>> 8).setWidth 8) ++ mirror8 (r.setWidth 8)) ∧
  crc16 [] = 0

/-- R160: `crc16` is CRC-16/X-25 with its two result bytes exchanged. -/
def Obligations.CrcIsByteSwappedX25 : Prop :=
  ∀ seq : List Byte,
    crc16 seq = ((Sys2Proof.Certificates.x25 seq &&& 0xFF) <<< 8) ||| (Sys2Proof.Certificates.x25 seq >>> 8)

/-- R161 (b): a change confined to one byte always changes `crc16`. -/
def Obligations.SingleByteChangeChangesCrc : Prop :=
  ∀ (pre post : List Byte) (b c : Byte), b ≠ c → crc16 (pre ++ b :: post) ≠ crc16 (pre ++ c :: post)

/-! ## AES and CTR functions -/

/-- R176: the table is the algebraic S-box: the multiplicative inverse of `a` (0 for 0), then the affine step. -/
def Obligations.SboxTableIsAlgebraic : Prop :=
  ∀ a : Byte, ∃ x : Byte,
    (a = 0 → x = 0) ∧ (a ≠ 0 → Sys2Proof.Certificates.gfMul 8 a x = 1) ∧ sbox a = Sys2Proof.Certificates.affine x

/-- R177, R178, R180: what `SubBytes`, `ShiftRows` and `AddRoundKey` put at row r, column c; byte r of word c of the
round key is byte r + 4c of its 16 bytes. (`value` is the model's, log 3.) -/
def Obligations.RoundStepsOnEachByte : Prop :=
  ∀ (s : State) (st rk : Block), ∃ sub shift add : Block,
    exec (.subBytes st) s = .next { s with value := .block sub } ∧
    exec (.shiftRows st) s = .next { s with value := .block shift } ∧
    exec (.addRoundKey st rk) s = .next { s with value := .block add } ∧
    ∀ r c, r < 4 → c < 4 →
      blockByte sub (r + 4 * c) = sbox (blockByte st (r + 4 * c)) ∧
      blockByte shift (r + 4 * c) = blockByte st (r + 4 * ((c + r) % 4)) ∧
      blockByte add (r + 4 * c) = blockByte st (r + 4 * c) ^^^ blockByte rk (r + 4 * c)

/-- R179. (`value` is the model's, log 3.) -/
def Obligations.MixColumnsMixesEachColumn : Prop :=
  ∀ (s : State) (st : Block), ∃ out, exec (.mixColumns st) s = .next { s with value := .block out } ∧
    ∀ c, c < 4 →
      blockByte out (4 * c) = mul2 (blockByte st (4 * c)) ^^^ mul3 (blockByte st (1 + 4 * c)) ^^^
        blockByte st (2 + 4 * c) ^^^ blockByte st (3 + 4 * c) ∧
      blockByte out (1 + 4 * c) = blockByte st (4 * c) ^^^ mul2 (blockByte st (1 + 4 * c)) ^^^
        mul3 (blockByte st (2 + 4 * c)) ^^^ blockByte st (3 + 4 * c) ∧
      blockByte out (2 + 4 * c) = blockByte st (4 * c) ^^^ blockByte st (1 + 4 * c) ^^^
        mul2 (blockByte st (2 + 4 * c)) ^^^ mul3 (blockByte st (3 + 4 * c)) ∧
      blockByte out (3 + 4 * c) = mul3 (blockByte st (4 * c)) ^^^ blockByte st (1 + 4 * c) ^^^
        blockByte st (2 + 4 * c) ^^^ mul2 (blockByte st (3 + 4 * c))

/-- R181: the recurrence of the key schedule, and the round keys cut from it. (`value` is the model's, log 3.) -/
def Obligations.KeyScheduleFollowsRecurrence : Prop :=
  ∀ (s : State) (key : Block), ∃ w : Nat → Word,
    (∀ i, i < 4 → w i = blockByte key (4 * i) ++ blockByte key (4 * i + 1) ++ blockByte key (4 * i + 2) ++
      blockByte key (4 * i + 3)) ∧
    (∀ i, 4 ≤ i → i < 44 → i % 4 = 0 → w i = w (i - 4) ^^^
      ((sbox (wordByte (w (i - 1)) 1) ^^^ rcon (i / 4)) ++ sbox (wordByte (w (i - 1)) 2) ++
        sbox (wordByte (w (i - 1)) 3) ++ sbox (wordByte (w (i - 1)) 0))) ∧
    (∀ i, 4 ≤ i → i < 44 → i % 4 ≠ 0 → w i = w (i - 4) ^^^ w (i - 1)) ∧
    (List.range 10).map (fun n => rcon (n + 1)) = [0x01, 0x02, 0x04, 0x08, 0x10, 0x20, 0x40, 0x80, 0x1B, 0x36] ∧
    exec (.keyExpansion key) s = .next
      { s with
        value := .blocks ((List.range 11).map fun n =>
          w (4 * n) ++ w (4 * n + 1) ++ w (4 * n + 2) ++ w (4 * n + 3)) }

/-- R186: the rounds of AES-128, with the round keys of R181. (`value` is the model's, log 3.) -/
def Obligations.AesRunsTenRounds : Prop :=
  ∀ (s : State) (key blk : Block), ∃ st : Nat → Block,
    st 0 = addRoundKey blk ((keyExpansion key).getD 0 0) ∧
    (∀ n, n < 9 → st (n + 1) =
      addRoundKey (mixColumns (shiftRows (subBytes (st n)))) ((keyExpansion key).getD (n + 1) 0)) ∧
    exec (.aes128 key blk) s = .next
      { s with value := .block (addRoundKey (shiftRows (subBytes (st 9))) ((keyExpansion key).getD 10 0)) }

/-- R186: for a fixed key the cipher is a bijection on blocks. -/
def Obligations.AesIsABijection : Prop :=
  ∀ key : Block, Function.Bijective (aes128 key)

/-- R190: plus 1 modulo 2^128; and in a frame at most 6 blocks are used, over which no carry leaves the last byte.
(`value` is the model's, log 3.) -/
def Obligations.CounterIncrementsWithoutCarry : Prop :=
  (∀ (s : State) (blk : Block), ∃ out : Block, exec (.inc128 blk) s = .next { s with value := .block out } ∧
    out.toNat = (blk.toNat + 1) % 2 ^ 128) ∧
  ∀ (P : Params) (F : Nat → Byte), P.WellFormed →
    (P.lenCt + 15) / 16 ≤ 6 ∧
    ∀ j, j < (P.lenCt + 15) / 16 →
      ∃ cb, (counterBlocks (frameIv P F) ((P.lenCt + 15) / 16))[j]? = some cb ∧
        (∀ i, i < 15 → blockByte cb i = blockByte (frameIv P F) i) ∧ (blockByte cb 15).toNat = 2 + j

/-- R192. (`value` is the model's, log 3.) -/
def Obligations.KeystreamEncryptsCounterBlocks : Prop :=
  ∀ (s : State) (key iv : Block) (n : Nat), ∃ ks : List Block,
    exec (.keystream key iv n) s = .next { s with value := .blocks ks } ∧ ks.length = (n + 15) / 16 ∧
    ∀ j, j < (n + 15) / 16 → ks[j]? = some (aes128 key (iv + BitVec.ofNat 128 j))

/-- R197: the exclusive-or undoes itself, and a change of one CipherText byte changes that PlainText byte, by the same bits,
and nothing else. -/
def Obligations.CtrIsItsOwnInverse : Prop :=
  ∀ (ct : List Byte) (ks : List Block),
    xorStream (xorStream ct ks) ks = ct ∧
    ∀ (i : Nat) (c m : Byte), ct[i]? = some c →
      ∃ p, (xorStream ct ks)[i]? = some p ∧ xorStream (ct.set i (c ^^^ m)) ks = (xorStream ct ks).set i (p ^^^ m)

/-! ## Fields -/

/-- R221. (`value` is the model's, log 3.) -/
def Obligations.FieldIsBigEndian : Prop :=
  ∀ (s : State) (f : Nat → Byte) (o : Nat), s.params.WellFormed → o + 4 ≤ s.params.lenCt →
    (∀ j, j < s.params.lenCt → s.pt.read? j = some (f j)) →
    ∃ v : Word, exec (.u32be o) s = .next { s with value := .word v } ∧
      v.toNat = (f o).toNat * 2 ^ 24 + (f (o + 1)).toNat * 2 ^ 16 + (f (o + 2)).toNat * 2 ^ 8 + (f (o + 3)).toNat

/-- R223, R224: an energy value is the exact pair of quotient and remainder by 1000; a power value is unscaled. (`value`
is the model's, log 3.) -/
def Obligations.EnergyIsExactAndPowerUnscaled : Prop :=
  ∀ (s : State) (v : Word),
    (∃ q r : Nat, exec (.scaleEnergy v) s = .next { s with value := .energy { whole := q, thousandths := r } } ∧
      v.toNat = 1000 * q + r ∧ q ≤ 4294967 ∧ r ≤ 999) ∧
    exec (.powerValue v) s = .next { s with value := .word v }

/-! ## Where an operation stops -/

/-- R12 (the model's rendering of U1): reading an undefined element, or an offset a space does not have, is a fault.
(The faults are the model's, log 6; that `ctr_xor` run by itself faults on a keystream shorter than the CipherText is log 13.) -/
def Obligations.UndefinedReadsFault : Prop :=
  (∀ (sp : Space) (size : Nat) (m : Memory) (i : Nat),
    (i < size → m.read? i = none → readByte sp size m i = .fault (.undefinedRead sp i)) ∧
    (size ≤ i → readByte sp size m i = .fault (.noSuchOffset sp i))) ∧
  (∀ s : State, s.stage = .validating → s.fbuf = [] → exec .validate s = .fault (.undefinedRead .fbuf 1)) ∧
  (∀ s : State, s.stage = .decrypting → s.params.WellFormed → s.fbuf = [] →
    exec .deriveIv s = .fault (.undefinedRead .fbuf s.params.offSt)) ∧
  (∀ s : State, s.stage = .extracting → s.rd = none → exec .complete s = .fault (.undefinedRead .rd 0)) ∧
  (∀ (s : State) (o : Nat), s.params.WellFormed → o < s.params.lenCt → s.pt = [] →
    exec (.u32be o) s = .fault (.undefinedRead .pt o)) ∧
  (∀ (s : State) (F : Nat → Byte) (ks : List Block), s.stage = .decrypting → s.params.WellFormed → HoldsFrame s 102 F →
    16 * ks.length < s.params.lenCt → exec (.ctrXor ks) s = .fault (.noSuchOffset .keystream (16 * ks.length)))

/-- R7, D4: an instance whose `P` is ill-formed is given no meaning. -/
def Obligations.IllFormedParametersAreRefused : Prop :=
  ∀ s : State, ¬s.params.WellFormed →
    step s = .refused .illFormedParams ∧
    (s.stage = .decrypting → exec .decrypt s = .refused .illFormedParams) ∧
    (s.stage = .extracting → exec .extract s = .refused .illFormedParams)

/-! ## Records and steps -/

/-- Decode and encode agree on every well-formed operation, in every context that admits it. (The records are the
model's, log 4.) -/
def Obligations.DecodeOfEncode : Prop :=
  ∀ (ctx : Context) (i : Instr) (rest : List Byte), i.wellFormed = true → ctx.admits i →
    decode ctx (encode i ++ rest) = .op i rest

/-- Whatever the decoder answers is well-formed, admitted by the context, and its record is the one encoding. (The
records are the model's, log 4.) -/
def Obligations.DecodedOperationsAreCanonical : Prop :=
  ∀ (ctx : Context) (tape : List Byte) (i : Instr) (rest : List Byte), decode ctx tape = .op i rest →
    i.wellFormed = true ∧ ctx.admits i ∧ tape = encode i ++ rest

/-- The bytes of R101 and R102 and the command codes of R103, written out. (The records are the model's, log 4.) -/
def Obligations.WordsOfTheMapDecode : Prop :=
  decode ⟨.framing, .searching, 0⟩ [5, 0x7E] = .op .frMark [] ∧
  decode ⟨.framing, .searching, 0⟩ [5, 0xA0] = .op (.frSkip 0xA0) [] ∧
  decode ⟨.framing, .matchingHeader, 2⟩ [5, 0x7E] = .op .frRemark [] ∧
  decode ⟨.framing, .matchingHeader, 1⟩ [5, 0xA0] = .op .frHdr1 [] ∧
  decode ⟨.framing, .matchingHeader, 2⟩ [5, 0x67] = .op .frHdr2 [] ∧
  decode ⟨.framing, .matchingHeader, 2⟩ [5, 0xA0] = .op (.frMiss 0xA0) [] ∧
  decode ⟨.framing, .readingBody, 103⟩ [5, 0x7E] = .op (.frBody 0x7E) [] ∧
  decode ⟨.framing, .readingBody, 104⟩ [5, 0x7E] = .op .frEnd [] ∧
  decode ⟨.framing, .readingBody, 104⟩ [5, 0x67] = .op (.frBadend 0x67) [] ∧
  decode ⟨.complete, .done, 105⟩ [5, 0x7E] = .notAccepted [] ∧
  decode ⟨.idle, .searching, 0⟩ [0, 2, 3] = .op .nop [2, 3] ∧
  decode ⟨.idle, .searching, 0⟩ [2, 3] = .op .start [3] ∧ decode ⟨.idle, .searching, 0⟩ [3] = .op .abort []

/-- A step takes the operation at the head of the script off it and runs it; with nothing offered the state is as
before. (The script is the model's own field, log 4.) -/
def Obligations.StepRunsTheDecodedOperation : Prop :=
  (∀ (s : State) (i : Instr) (rest : List Byte), s.params.WellFormed → decode s.context s.script = .op i rest →
    step s = exec i { s with script := rest }) ∧
  (∀ s : State, s.params.WellFormed → s.script = [] → step s = .next s)

/-! ## Invariants of every step -/

/-- R35: the state after reset is sound (`P0` is PRESUMED, log 1). -/
def Obligations.ResetStateIsSound : Prop :=
  State.reset.Inv ∧ State.reset.params.WellFormed

/-- R21, R22, R27, R29, R30, R34: every step keeps the state sound. -/
def Obligations.EveryStepKeepsTheStateSound : Prop :=
  ∀ s t : State, s.Inv → step s = .next t → t.Inv

/-- R12, R61, R62: in a sound state no event and no stage meets an undefined element or an offset outside its space, so
every step answers, and answers a sound state; only the function `u32be`, run by itself, can be given an offset where `PT` is
undefined. -/
def Obligations.SoundStatesNeverFault : Prop :=
  ∀ (s : State) (i : Instr) (rest : List Byte), s.Inv → s.params.WellFormed → fetch s = .op i rest →
    (∀ o, i ≠ .u32be o) → ∃ t, step s = .next t ∧ t.Inv

/-- R318: the key is constant from its loading to the next `RESET`. -/
def Obligations.KeyIsConstantUntilReset : Prop :=
  ∀ s t : State, s.keyValid = true → step s = .next t → (∀ rest, fetch s ≠ .op .reset rest) →
    t.key = s.key ∧ t.keyValid = true

/-- R31, R32: no operation writes the configuration record (`P` is held in State by the model's choice, log 1). -/
def Obligations.ParametersAreNeverWritten : Prop :=
  ∀ (i : Instr) (s t : State), exec i s = .next t → t.params = s.params

/-- R251, R249, R266: a step that goes from `Framing` to `Complete` emits exactly one `RESULT`, which says what the result flags
then hold, and no other step emits any; `Framing` is entered only by an accepted `START`. So there is a `START` before every
`RESULT` and between two. (`results` is the model's record of the output events, log 2.) -/
def Obligations.OneResultPerDecode : Prop :=
  ∀ s t : State, s.Inv → step s = .next t →
    (if s.stage = .framing ∧ t.stage = .complete then
      (∃ rd, t.resOk = true ∧ t.rd = some rd ∧ t.results = s.results ++ [.ok (readingOf rd)]) ∨
        (∃ e, t.resOk = false ∧ t.err = some e ∧ t.results = s.results ++ [.err e])
    else t.results = s.results) ∧
    (s.stage ≠ .framing → t.stage = .framing → CommandReady s ∧ ∃ rest, fetch s = .op .start rest) ∧
    (s.stage ≠ .complete → t.stage = .complete → s.stage = .framing)

/-- R262: with a key loaded and fields that fit, only `IncompleteFrame` and `CrcMismatch` can be reported. -/
def Obligations.OnlyFramingErrorsWithAKeyAndFit : Prop :=
  ∀ s t : State, s.Inv → s.params.FieldsFit → s.keyValid = true → step s = .next t →
    s.err ≠ some .decryptionFailure → s.err ≠ some .fieldOutOfRange →
    t.err ≠ some .decryptionFailure ∧ t.err ≠ some .fieldOutOfRange

/-- R31, R74, R319: no output shows `KEY`, `FBUF`, `CRC_CALC`, `IV` or `PT`, whatever the inputs; in a sound state `RD` can be
read exactly while `RES_VALID` = 1 and `RES_OK` = 1. -/
def Obligations.OutputsShowOnlyTheHeldReading : Prop :=
  (∀ (s : State) (key iv : Element Block) (fbuf pt : Memory) (c : Element Half),
    outputs { s with key := key, fbuf := fbuf, crcCalc := c, iv := iv, pt := pt } = outputs s ∧
    ∀ p : Pins, p.outputs { s with key := key, fbuf := fbuf, crcCalc := c, iv := iv, pt := pt } = p.outputs s) ∧
  (∀ s : State, s.Inv → ∀ k : Fin 8,
    ((readRd s k).isSome = true ↔ s.resValid = true ∧ s.resOk = true) ∧
    ((outputs s).resRd.isSome = true ↔ s.resValid = true ∧ s.resOk = true) ∧
    ∀ rd, s.rd = some rd → readRd s k = some rd[k])

/-- R272: events offered together are taken in the order `RESET`, `ABORT`, other command, `RX`, `RX_TIMEOUT`, each tested
against the state that the earlier ones left; the signal binding never offers a byte and a timeout together. An edge of the
binding is these offers, a command an event exactly where `cmd_valid` and `cmd_ready` are both 1, a byte where `rx_valid` and
`rx_ready` are both 1, a timeout pulse where `rx_ready` is 1 and `rx_valid` 0 (R43; that the ready outputs follow the inputs of
the same edge is the model's inference, log 15). -/
def Obligations.SimultaneousEventsAreSerialised : Prop :=
  (∀ (s : State) (o : Offers), s.params.WellFormed →
    offerAll o.records s =
      andThen (if o.reset then exec .reset s else .next s) fun s1 =>
      andThen (if o.abort then exec .abort s1 else .next s1) fun s2 =>
      andThen (match o.command with | some c => exec c.toInstr s2 | none => .next s2) fun s3 =>
      andThen (match o.rx with | some b => receive b s3 | none => .next s3) fun s4 =>
        if o.timeout then exec .frTimeout s4 else .next s4) ∧
  (∀ p : Pins, p.offers.rx.isSome = true → p.offers.timeout = false) ∧
  ∀ (p : Pins) (s : State), s.params.WellFormed →
    clockEdge p s = offerAll p.offers.records s ∧
    ∃ s1 s2 : State,
      (if p.rst then exec .reset s else .next s) = .next s1 ∧
      (if p.cmdValid = true ∧ (p.outputs s).cmdReady = true then
        exec (if p.cmd = 0 then .nop else if p.cmd = 1 then .loadKey p.cmdKey else if p.cmd = 2 then .start else .abort) s1
        else .next s1) = .next s2 ∧
      clockEdge p s =
        if p.rxValid = true ∧ (p.outputs s).rxReady = true then receive p.rxData s2
        else if p.rxTimeout = true ∧ p.rxValid = false ∧ (p.outputs s).rxReady = true then exec .frTimeout s2
        else .next s2
end

