-- ==== Sys2Proof/Laws/State.lean ====
section
/-! SUPPORT. One lemma per field per named update of the state, each true by unfolding. -/

namespace Sys2Proof.Machine

/-! ## `emit` -/

@[simp] theorem emit_key (r : Result) (s : State) : (emit r s).key = s.key := rfl
@[simp] theorem emit_keyValid (r : Result) (s : State) : (emit r s).keyValid = s.keyValid := rfl
@[simp] theorem emit_frState (r : Result) (s : State) : (emit r s).frState = s.frState := rfl
@[simp] theorem emit_len (r : Result) (s : State) : (emit r s).len = s.len := rfl
@[simp] theorem emit_fbuf (r : Result) (s : State) : (emit r s).fbuf = s.fbuf := rfl
@[simp] theorem emit_crcCalc (r : Result) (s : State) : (emit r s).crcCalc = s.crcCalc := rfl
@[simp] theorem emit_iv (r : Result) (s : State) : (emit r s).iv = s.iv := rfl
@[simp] theorem emit_pt (r : Result) (s : State) : (emit r s).pt = s.pt := rfl
@[simp] theorem emit_rd (r : Result) (s : State) : (emit r s).rd = s.rd := rfl
@[simp] theorem emit_stage (r : Result) (s : State) : (emit r s).stage = s.stage := rfl
@[simp] theorem emit_resValid (r : Result) (s : State) : (emit r s).resValid = s.resValid := rfl
@[simp] theorem emit_resOk (r : Result) (s : State) : (emit r s).resOk = s.resOk := rfl
@[simp] theorem emit_err (r : Result) (s : State) : (emit r s).err = s.err := rfl
@[simp] theorem emit_params (r : Result) (s : State) : (emit r s).params = s.params := rfl
@[simp] theorem emit_script (r : Result) (s : State) : (emit r s).script = s.script := rfl
@[simp] theorem emit_results (r : Result) (s : State) : (emit r s).results = s.results ++ [r] := rfl
@[simp] theorem emit_value (r : Result) (s : State) : (emit r s).value = s.value := rfl

/-! ## `raiseError` -/

@[simp] theorem raiseError_key (e : DecodeError) (s : State) : (raiseError e s).key = s.key := rfl
@[simp] theorem raiseError_keyValid (e : DecodeError) (s : State) : (raiseError e s).keyValid = s.keyValid := rfl
@[simp] theorem raiseError_frState (e : DecodeError) (s : State) : (raiseError e s).frState = s.frState := rfl
@[simp] theorem raiseError_len (e : DecodeError) (s : State) : (raiseError e s).len = s.len := rfl
@[simp] theorem raiseError_fbuf (e : DecodeError) (s : State) : (raiseError e s).fbuf = s.fbuf := rfl
@[simp] theorem raiseError_crcCalc (e : DecodeError) (s : State) : (raiseError e s).crcCalc = s.crcCalc := rfl
@[simp] theorem raiseError_iv (e : DecodeError) (s : State) : (raiseError e s).iv = s.iv := rfl
@[simp] theorem raiseError_pt (e : DecodeError) (s : State) : (raiseError e s).pt = s.pt := rfl
@[simp] theorem raiseError_rd (e : DecodeError) (s : State) : (raiseError e s).rd = s.rd := rfl
@[simp] theorem raiseError_stage (e : DecodeError) (s : State) : (raiseError e s).stage = .complete := rfl
@[simp] theorem raiseError_resValid (e : DecodeError) (s : State) : (raiseError e s).resValid = true := rfl
@[simp] theorem raiseError_resOk (e : DecodeError) (s : State) : (raiseError e s).resOk = false := rfl
@[simp] theorem raiseError_err (e : DecodeError) (s : State) : (raiseError e s).err = some e := rfl
@[simp] theorem raiseError_params (e : DecodeError) (s : State) : (raiseError e s).params = s.params := rfl
@[simp] theorem raiseError_script (e : DecodeError) (s : State) : (raiseError e s).script = s.script := rfl
@[simp] theorem raiseError_results (e : DecodeError) (s : State) : (raiseError e s).results = s.results ++ [.err e] := rfl
@[simp] theorem raiseError_value (e : DecodeError) (s : State) : (raiseError e s).value = s.value := rfl

/-! ## `completeOk` -/

@[simp] theorem completeOk_key (rd : Vector Word 8) (s : State) : (completeOk rd s).key = s.key := rfl
@[simp] theorem completeOk_keyValid (rd : Vector Word 8) (s : State) : (completeOk rd s).keyValid = s.keyValid := rfl
@[simp] theorem completeOk_frState (rd : Vector Word 8) (s : State) : (completeOk rd s).frState = s.frState := rfl
@[simp] theorem completeOk_len (rd : Vector Word 8) (s : State) : (completeOk rd s).len = s.len := rfl
@[simp] theorem completeOk_fbuf (rd : Vector Word 8) (s : State) : (completeOk rd s).fbuf = s.fbuf := rfl
@[simp] theorem completeOk_crcCalc (rd : Vector Word 8) (s : State) : (completeOk rd s).crcCalc = s.crcCalc := rfl
@[simp] theorem completeOk_iv (rd : Vector Word 8) (s : State) : (completeOk rd s).iv = s.iv := rfl
@[simp] theorem completeOk_pt (rd : Vector Word 8) (s : State) : (completeOk rd s).pt = s.pt := rfl
@[simp] theorem completeOk_rd (rd : Vector Word 8) (s : State) : (completeOk rd s).rd = s.rd := rfl
@[simp] theorem completeOk_stage (rd : Vector Word 8) (s : State) : (completeOk rd s).stage = .complete := rfl
@[simp] theorem completeOk_resValid (rd : Vector Word 8) (s : State) : (completeOk rd s).resValid = true := rfl
@[simp] theorem completeOk_resOk (rd : Vector Word 8) (s : State) : (completeOk rd s).resOk = true := rfl
@[simp] theorem completeOk_err (rd : Vector Word 8) (s : State) : (completeOk rd s).err = none := rfl
@[simp] theorem completeOk_params (rd : Vector Word 8) (s : State) : (completeOk rd s).params = s.params := rfl
@[simp] theorem completeOk_script (rd : Vector Word 8) (s : State) : (completeOk rd s).script = s.script := rfl
@[simp] theorem completeOk_results (rd : Vector Word 8) (s : State) : (completeOk rd s).results = s.results ++ [.ok (readingOf rd)] := rfl
@[simp] theorem completeOk_value (rd : Vector Word 8) (s : State) : (completeOk rd s).value = s.value := rfl

/-! ## `invalidate` -/

@[simp] theorem invalidate_key (s : State) : (invalidate s).key = s.key := rfl
@[simp] theorem invalidate_keyValid (s : State) : (invalidate s).keyValid = s.keyValid := rfl
@[simp] theorem invalidate_frState (s : State) : (invalidate s).frState = s.frState := rfl
@[simp] theorem invalidate_len (s : State) : (invalidate s).len = s.len := rfl
@[simp] theorem invalidate_fbuf (s : State) : (invalidate s).fbuf = [] := rfl
@[simp] theorem invalidate_crcCalc (s : State) : (invalidate s).crcCalc = none := rfl
@[simp] theorem invalidate_iv (s : State) : (invalidate s).iv = none := rfl
@[simp] theorem invalidate_pt (s : State) : (invalidate s).pt = [] := rfl
@[simp] theorem invalidate_rd (s : State) : (invalidate s).rd = none := rfl
@[simp] theorem invalidate_stage (s : State) : (invalidate s).stage = s.stage := rfl
@[simp] theorem invalidate_resValid (s : State) : (invalidate s).resValid = false := rfl
@[simp] theorem invalidate_resOk (s : State) : (invalidate s).resOk = false := rfl
@[simp] theorem invalidate_err (s : State) : (invalidate s).err = none := rfl
@[simp] theorem invalidate_params (s : State) : (invalidate s).params = s.params := rfl
@[simp] theorem invalidate_script (s : State) : (invalidate s).script = s.script := rfl
@[simp] theorem invalidate_results (s : State) : (invalidate s).results = s.results := rfl
@[simp] theorem invalidate_value (s : State) : (invalidate s).value = s.value := rfl

/-! ## `restartAt` -/

@[simp] theorem restartAt_key (g : Stage) (s : State) : (restartAt g s).key = s.key := rfl
@[simp] theorem restartAt_keyValid (g : Stage) (s : State) : (restartAt g s).keyValid = s.keyValid := rfl
@[simp] theorem restartAt_frState (g : Stage) (s : State) : (restartAt g s).frState = .searching := rfl
@[simp] theorem restartAt_len (g : Stage) (s : State) : (restartAt g s).len = 0 := rfl
@[simp] theorem restartAt_fbuf (g : Stage) (s : State) : (restartAt g s).fbuf = [] := rfl
@[simp] theorem restartAt_crcCalc (g : Stage) (s : State) : (restartAt g s).crcCalc = none := rfl
@[simp] theorem restartAt_iv (g : Stage) (s : State) : (restartAt g s).iv = none := rfl
@[simp] theorem restartAt_pt (g : Stage) (s : State) : (restartAt g s).pt = [] := rfl
@[simp] theorem restartAt_rd (g : Stage) (s : State) : (restartAt g s).rd = none := rfl
@[simp] theorem restartAt_stage (g : Stage) (s : State) : (restartAt g s).stage = g := rfl
@[simp] theorem restartAt_resValid (g : Stage) (s : State) : (restartAt g s).resValid = false := rfl
@[simp] theorem restartAt_resOk (g : Stage) (s : State) : (restartAt g s).resOk = false := rfl
@[simp] theorem restartAt_err (g : Stage) (s : State) : (restartAt g s).err = none := rfl
@[simp] theorem restartAt_params (g : Stage) (s : State) : (restartAt g s).params = s.params := rfl
@[simp] theorem restartAt_script (g : Stage) (s : State) : (restartAt g s).script = s.script := rfl
@[simp] theorem restartAt_results (g : Stage) (s : State) : (restartAt g s).results = s.results := rfl
@[simp] theorem restartAt_value (g : Stage) (s : State) : (restartAt g s).value = s.value := rfl

/-! ## `beginDecode` -/

@[simp] theorem beginDecode_key (s : State) : (beginDecode s).key = s.key := rfl
@[simp] theorem beginDecode_keyValid (s : State) : (beginDecode s).keyValid = s.keyValid := rfl
@[simp] theorem beginDecode_frState (s : State) : (beginDecode s).frState = .searching := rfl
@[simp] theorem beginDecode_len (s : State) : (beginDecode s).len = 0 := rfl
@[simp] theorem beginDecode_fbuf (s : State) : (beginDecode s).fbuf = [] := rfl
@[simp] theorem beginDecode_crcCalc (s : State) : (beginDecode s).crcCalc = none := rfl
@[simp] theorem beginDecode_iv (s : State) : (beginDecode s).iv = none := rfl
@[simp] theorem beginDecode_pt (s : State) : (beginDecode s).pt = [] := rfl
@[simp] theorem beginDecode_rd (s : State) : (beginDecode s).rd = none := rfl
@[simp] theorem beginDecode_stage (s : State) : (beginDecode s).stage = .framing := rfl
@[simp] theorem beginDecode_resValid (s : State) : (beginDecode s).resValid = false := rfl
@[simp] theorem beginDecode_resOk (s : State) : (beginDecode s).resOk = false := rfl
@[simp] theorem beginDecode_err (s : State) : (beginDecode s).err = none := rfl
@[simp] theorem beginDecode_params (s : State) : (beginDecode s).params = s.params := rfl
@[simp] theorem beginDecode_script (s : State) : (beginDecode s).script = s.script := rfl
@[simp] theorem beginDecode_results (s : State) : (beginDecode s).results = s.results := rfl
@[simp] theorem beginDecode_value (s : State) : (beginDecode s).value = s.value := rfl

/-! ## `resetCore` -/

@[simp] theorem resetCore_key (s : State) : (resetCore s).key = none := rfl
@[simp] theorem resetCore_keyValid (s : State) : (resetCore s).keyValid = false := rfl
@[simp] theorem resetCore_frState (s : State) : (resetCore s).frState = .searching := rfl
@[simp] theorem resetCore_len (s : State) : (resetCore s).len = 0 := rfl
@[simp] theorem resetCore_fbuf (s : State) : (resetCore s).fbuf = [] := rfl
@[simp] theorem resetCore_crcCalc (s : State) : (resetCore s).crcCalc = none := rfl
@[simp] theorem resetCore_iv (s : State) : (resetCore s).iv = none := rfl
@[simp] theorem resetCore_pt (s : State) : (resetCore s).pt = [] := rfl
@[simp] theorem resetCore_rd (s : State) : (resetCore s).rd = none := rfl
@[simp] theorem resetCore_stage (s : State) : (resetCore s).stage = .idle := rfl
@[simp] theorem resetCore_resValid (s : State) : (resetCore s).resValid = false := rfl
@[simp] theorem resetCore_resOk (s : State) : (resetCore s).resOk = false := rfl
@[simp] theorem resetCore_err (s : State) : (resetCore s).err = none := rfl
@[simp] theorem resetCore_params (s : State) : (resetCore s).params = s.params := rfl
@[simp] theorem resetCore_script (s : State) : (resetCore s).script = s.script := rfl
@[simp] theorem resetCore_results (s : State) : (resetCore s).results = s.results := rfl
@[simp] theorem resetCore_value (s : State) : (resetCore s).value = s.value := rfl

/-! ## `installKey` -/

@[simp] theorem installKey_key (k : Block) (s : State) : (installKey k s).key = some k := rfl
@[simp] theorem installKey_keyValid (k : Block) (s : State) : (installKey k s).keyValid = true := rfl
@[simp] theorem installKey_frState (k : Block) (s : State) : (installKey k s).frState = s.frState := rfl
@[simp] theorem installKey_len (k : Block) (s : State) : (installKey k s).len = s.len := rfl
@[simp] theorem installKey_fbuf (k : Block) (s : State) : (installKey k s).fbuf = s.fbuf := rfl
@[simp] theorem installKey_crcCalc (k : Block) (s : State) : (installKey k s).crcCalc = s.crcCalc := rfl
@[simp] theorem installKey_iv (k : Block) (s : State) : (installKey k s).iv = s.iv := rfl
@[simp] theorem installKey_pt (k : Block) (s : State) : (installKey k s).pt = s.pt := rfl
@[simp] theorem installKey_rd (k : Block) (s : State) : (installKey k s).rd = s.rd := rfl
@[simp] theorem installKey_stage (k : Block) (s : State) : (installKey k s).stage = s.stage := rfl
@[simp] theorem installKey_resValid (k : Block) (s : State) : (installKey k s).resValid = s.resValid := rfl
@[simp] theorem installKey_resOk (k : Block) (s : State) : (installKey k s).resOk = s.resOk := rfl
@[simp] theorem installKey_err (k : Block) (s : State) : (installKey k s).err = s.err := rfl
@[simp] theorem installKey_params (k : Block) (s : State) : (installKey k s).params = s.params := rfl
@[simp] theorem installKey_script (k : Block) (s : State) : (installKey k s).script = s.script := rfl
@[simp] theorem installKey_results (k : Block) (s : State) : (installKey k s).results = s.results := rfl
@[simp] theorem installKey_value (k : Block) (s : State) : (installKey k s).value = s.value := rfl

/-! ## `startAccumulation` -/

@[simp] theorem startAccumulation_key (s : State) : (startAccumulation s).key = s.key := rfl
@[simp] theorem startAccumulation_keyValid (s : State) : (startAccumulation s).keyValid = s.keyValid := rfl
@[simp] theorem startAccumulation_frState (s : State) : (startAccumulation s).frState = .matchingHeader := rfl
@[simp] theorem startAccumulation_len (s : State) : (startAccumulation s).len = 1 := rfl
@[simp] theorem startAccumulation_fbuf (s : State) : (startAccumulation s).fbuf = [(0, Config.marker)] := rfl
@[simp] theorem startAccumulation_crcCalc (s : State) : (startAccumulation s).crcCalc = s.crcCalc := rfl
@[simp] theorem startAccumulation_iv (s : State) : (startAccumulation s).iv = s.iv := rfl
@[simp] theorem startAccumulation_pt (s : State) : (startAccumulation s).pt = s.pt := rfl
@[simp] theorem startAccumulation_rd (s : State) : (startAccumulation s).rd = s.rd := rfl
@[simp] theorem startAccumulation_stage (s : State) : (startAccumulation s).stage = s.stage := rfl
@[simp] theorem startAccumulation_resValid (s : State) : (startAccumulation s).resValid = s.resValid := rfl
@[simp] theorem startAccumulation_resOk (s : State) : (startAccumulation s).resOk = s.resOk := rfl
@[simp] theorem startAccumulation_err (s : State) : (startAccumulation s).err = s.err := rfl
@[simp] theorem startAccumulation_params (s : State) : (startAccumulation s).params = s.params := rfl
@[simp] theorem startAccumulation_script (s : State) : (startAccumulation s).script = s.script := rfl
@[simp] theorem startAccumulation_results (s : State) : (startAccumulation s).results = s.results := rfl
@[simp] theorem startAccumulation_value (s : State) : (startAccumulation s).value = s.value := rfl

/-! ## The context -/

@[simp] theorem context_stage (s : State) : s.context.stage = s.stage := rfl
@[simp] theorem context_frState (s : State) : s.context.frState = s.frState := rfl
@[simp] theorem context_len (s : State) : s.context.len = s.len := rfl

end Sys2Proof.Machine
end

