-- ==== Sys2Proof/Laws/Memory.lean ====
section
/-! SUPPORT. The laws of the byte spaces: read after write, and the canonical form that every memory operation keeps. -/

namespace Sys2Proof.Machine

@[simp] theorem read?_nil (i : Nat) : Memory.read? [] i = none := rfl

@[simp] theorem read?_cons (a : Nat) (b : Byte) (m : Memory) (i : Nat) :
    Memory.read? ((a, b) :: m) i = if a = i then some b else Memory.read? m i := rfl

theorem read?_write_same (m : Memory) (i : Nat) (v : Byte) : (m.write i v).read? i = some v := by
  induction m with
  | nil => simp [Memory.write]
  | cons c m ih =>
    obtain ⟨a, b⟩ := c
    simp only [Memory.write]
    split
    · simp
    · split
      · simp
      · next h1 h2 => rw [read?_cons, if_neg (Ne.symm h2), ih]

theorem read?_write_other (m : Memory) {i j : Nat} (v : Byte) (h : j ≠ i) : (m.write i v).read? j = m.read? j := by
  induction m with
  | nil => simp [Memory.write, Ne.symm h]
  | cons c m ih =>
    obtain ⟨a, b⟩ := c
    simp only [Memory.write]
    split
    · simp [Ne.symm h]
    · split
      · next h1 h2 => subst h2; simp [Ne.symm h]
      · simp [ih]

/-- A write changes the byte at its address and no other (R11 `A[i] <- v`). -/
theorem read?_write (m : Memory) (i j : Nat) (v : Byte) :
    (m.write i v).read? j = if j = i then some v else m.read? j := by
  by_cases h : j = i
  · subst h; rw [if_pos rfl, read?_write_same]
  · rw [if_neg h, read?_write_other m v h]

theorem read?_ofBytes (bs : List Byte) (base i : Nat) :
    (Memory.ofBytes base bs).read? i = if base ≤ i then bs[i - base]? else none := by
  induction bs generalizing base with
  | nil => simp [Memory.ofBytes]
  | cons b bs ih =>
    simp only [Memory.ofBytes, read?_cons, ih]
    by_cases h : base = i
    · subst h; simp
    · rw [if_neg h]
      by_cases h2 : base ≤ i
      · have h3 : i - base = (i - (base + 1)) + 1 := by omega
        rw [if_pos h2, if_pos (by omega), h3, List.getElem?_cons_succ]
      · rw [if_neg h2, if_neg (by omega)]

@[simp] theorem read?_ofBytes_zero (bs : List Byte) (i : Nat) : (Memory.ofBytes 0 bs).read? i = bs[i]? := by
  simp [read?_ofBytes]

/-! ## The canonical form -/

theorem wf_nil : Memory.wf [] := by simp [Memory.wf]

theorem fst_mem_write {m : Memory} {i : Nat} {v : Byte} {a : Nat} (h : a ∈ (m.write i v).map Prod.fst) :
    a = i ∨ a ∈ m.map Prod.fst := by
  induction m with
  | nil => simp_all [Memory.write]
  | cons c m ih =>
    obtain ⟨x, b⟩ := c
    simp only [Memory.write] at h
    split at h
    · simpa using h
    · split at h
      · next h1 h2 => subst h2; simp at h ⊢; tauto
      · simp only [List.map_cons, List.mem_cons] at h ⊢
        rcases h with h | h
        · exact .inr (.inl h)
        · rcases ih h with h | h
          · exact .inl h
          · exact .inr (.inr h)

theorem wf_write {m : Memory} (h : m.wf) (i : Nat) (v : Byte) : (m.write i v).wf := by
  induction m with
  | nil => simp [Memory.write, Memory.wf]
  | cons c m ih =>
    obtain ⟨a, b⟩ := c
    simp only [Memory.wf, List.map_cons, List.pairwise_cons] at h
    obtain ⟨h1, h2⟩ := h
    simp only [Memory.write]
    split
    · next hi =>
      simp only [Memory.wf, List.map_cons, List.pairwise_cons, List.mem_cons]
      refine ⟨?_, h1, h2⟩
      rintro x (rfl | hx)
      · exact hi
      · exact Nat.lt_trans hi (h1 x hx)
    · split
      · next _ hi =>
        subst hi
        simpa only [Memory.wf, List.map_cons, List.pairwise_cons] using ⟨h1, h2⟩
      · next hn hne =>
        simp only [Memory.wf, List.map_cons, List.pairwise_cons]
        refine ⟨?_, ih h2⟩
        intro x hx
        rcases fst_mem_write hx with rfl | hx
        · omega
        · exact h1 x hx

theorem le_of_mem_ofBytes {bs : List Byte} {base a : Nat} (h : a ∈ (Memory.ofBytes base bs).map Prod.fst) : base ≤ a := by
  induction bs generalizing base with
  | nil => simp [Memory.ofBytes] at h
  | cons b bs ih =>
    simp only [Memory.ofBytes, List.map_cons, List.mem_cons] at h
    rcases h with rfl | h
    · exact Nat.le_refl _
    · have := ih h; omega

theorem wf_ofBytes (bs : List Byte) (base : Nat) : (Memory.ofBytes base bs).wf := by
  induction bs generalizing base with
  | nil => exact wf_nil
  | cons b bs ih =>
    simp only [Memory.wf, Memory.ofBytes, List.map_cons, List.pairwise_cons]
    exact ⟨fun a ha => le_of_mem_ofBytes ha, ih (base + 1)⟩

/-- The memory after reset has the canonical form (R35: nothing is defined). -/
theorem wf_reset : State.reset.fbuf.wf ∧ State.reset.pt.wf := ⟨wf_nil, wf_nil⟩

end Sys2Proof.Machine
end

