-- ==== Sys2Proof/Laws/Ops.lean ====
section
/-! SUPPORT. What each shared operation can do, said once. -/

namespace Sys2Proof.Machine

/-! ## Sequencing -/

@[simp] theorem andThen_next {α β : Type} (a : α) (k : α → Res β) : andThen (.next a) k = k a := rfl
@[simp] theorem andThen_fault {α β : Type} (f : Fault) (k : α → Res β) : andThen (.fault f) k = .fault f := rfl
@[simp] theorem andThen_refused {α β : Type} (q : Refusal) (k : α → Res β) : andThen (.refused q) k = .refused q := rfl

/-- A sequence answers exactly where both its parts do. -/
theorem andThen_eq_next {α β : Type} {r : Res α} {k : α → Res β} {b : β} :
    andThen r k = .next b ↔ ∃ a, r = .next a ∧ k a = .next b := by
  cases r <;> simp [andThen]

/-- `computed` only fixes an order of evaluation. -/
@[simp] theorem computed_eq {w : Nat} {α : Type} (v : BitVec w) (k : BitVec w → α) : computed v k = k v := by
  unfold computed
  split
  · next h =>
    have : v = 0 := by apply BitVec.eq_of_toNat_eq; simpa using h
    rw [this]
  · next n h =>
    have : v = BitVec.ofNat w (n + 1) := by rw [← Nat.succ_eq_add_one, ← h]; simp
    rw [this]

/-! ## Acceptance -/

@[simp] theorem performIf_pos {p : Prop} [Decidable p] (h : p) (act : State → Res State) (s : State) :
    performIf p act s = act s := if_pos h

@[simp] theorem performIf_neg {p : Prop} [Decidable p] (h : ¬p) (act : State → Res State) (s : State) :
    performIf p act s = .next s := if_neg h

/-- An operation is performed where it is selected, and changes nothing elsewhere. -/
theorem performIf_eq_next {p : Prop} [Decidable p] {act : State → Res State} {s t : State} :
    performIf p act s = .next t ↔ (p ∧ act s = .next t) ∨ (¬p ∧ t = s) := by
  unfold performIf
  split <;> simp_all [eq_comm]

/-! ## Readers -/

theorem readByte_eq_next {sp : Space} {size : Nat} {m : Memory} {i : Nat} {b : Byte} :
    readByte sp size m i = .next b ↔ i < size ∧ m.read? i = some b := by
  unfold readByte
  split
  · next h => cases hm : m.read? i <;> simp [h]
  · next h => simp [h]

/-- Reading a range whose bytes are all defined gives them in order. -/
theorem readBytes_next {sp : Space} {size : Nat} {m : Memory} {f : Nat → Byte} {i n : Nat} (hs : i + n ≤ size)
    (h : ∀ j, i ≤ j → j < i + n → m.read? j = some (f j)) :
    readBytes sp size m i n = .next ((List.range n).map fun j => f (i + j)) := by
  induction n generalizing i with
  | zero => rfl
  | succ n ih =>
    have hb : readByte sp size m i = .next (f i) :=
      readByte_eq_next.mpr ⟨by omega, h i (Nat.le_refl _) (by omega)⟩
    rw [readBytes, hb, andThen_next, ih (by omega) (fun j h1 h2 => h j (by omega) (by omega)), andThen_next,
      List.range_succ_eq_map, List.map_cons, List.map_map]
    simp [Function.comp_def, Nat.add_assoc, Nat.add_comm 1]

/-- A range read that answers has met a defined byte at each of its offsets, all of them inside the space. -/
theorem readBytes_eq_next {sp : Space} {size : Nat} {m : Memory} {i n : Nat} {bs : List Byte}
    (h : readBytes sp size m i n = .next bs) :
    bs.length = n ∧ ∀ j, j < n → i + j < size ∧ m.read? (i + j) = bs[j]? := by
  induction n generalizing i bs with
  | zero =>
    simp only [readBytes, Host.Outcome.next.injEq] at h
    subst h
    simp
  | succ n ih =>
    simp only [readBytes, andThen_eq_next, Host.Outcome.next.injEq] at h
    obtain ⟨b, hb, cs, hcs, rfl⟩ := h
    obtain ⟨hlen, hall⟩ := ih hcs
    obtain ⟨hi, hm⟩ := readByte_eq_next.mp hb
    refine ⟨by simp [hlen], fun j hj => ?_⟩
    cases j with
    | zero => simpa using ⟨hi, hm⟩
    | succ j =>
      have := hall j (by omega)
      rw [show i + (j + 1) = i + 1 + j by omega]
      simpa using this

theorem memRead_next {sp : Space} {size : Nat} {m : Memory} {f : Nat → Byte} {i n : Nat} (hs : i + n ≤ size)
    (h : ∀ j, i ≤ j → j < i + n → m.read? j = some (f j)) :
    memRead sp size m i n = .next (beNat ((List.range n).map fun j => f (i + j))) := by
  rw [memRead, readBytes_next hs h, andThen_next]

theorem memRead_eq_next {sp : Space} {size : Nat} {m : Memory} {i n v : Nat} :
    memRead sp size m i n = .next v ↔ ∃ bs, readBytes sp size m i n = .next bs ∧ v = beNat bs := by
  simp only [memRead, andThen_eq_next, Host.Outcome.next.injEq]
  simp only [eq_comm (a := v)]

@[simp] theorem readElement_some {α : Type} (sp : Space) (a : α) : readElement sp (some a) = .next a := rfl

theorem readElement_eq_next {α : Type} {sp : Space} {e : Element α} {a : α} :
    readElement sp e = .next a ↔ e = some a := by
  cases e <;> simp [readElement]

@[simp] theorem config_next {s : State} (h : s.params.WellFormed) : config s = .next s.params := if_pos h

theorem config_eq_next {s : State} {P : Params} : config s = .next P ↔ s.params.WellFormed ∧ P = s.params := by
  unfold config
  split
  · next h => simp only [Host.Outcome.next.injEq, eq_comm (a := P)]; exact ⟨fun e => ⟨h, e⟩, fun e => e.2⟩
  · next h => simp [h]

theorem gather8_next {α : Type} {f : Fin 8 → Res α} {g : Fin 8 → α} (h : ∀ k, f k = .next (g k)) :
    gather8 f = .next #v[g 0, g 1, g 2, g 3, g 4, g 5, g 6, g 7] := by
  simp only [gather8, h, andThen_next]

/-- Eight gathered results are the eight results, in index order. -/
theorem gather8_eq_next {α : Type} {f : Fin 8 → Res α} {v : Vector α 8} (h : gather8 f = .next v) :
    ∀ k : Fin 8, f k = .next v[k] := by
  simp only [gather8, andThen_eq_next, Host.Outcome.next.injEq] at h
  obtain ⟨r0, h0, r1, h1, r2, h2, r3, h3, r4, h4, r5, h5, r6, h6, r7, h7, rfl⟩ := h
  intro k
  fin_cases k <;> assumption

end Sys2Proof.Machine
end

