-- ==== Sys2Proof/Laws/Codec.lean ====
section
/-! SUPPORT. Big-endian bytes: from a number to its bytes and back; blocks; and that a frame's 840-bit word is read as the
frame (R90). -/

namespace Sys2Proof

@[simp] theorem length_beBytes (n v : Nat) : (beBytes n v).length = n := by
  induction n with
  | zero => rfl
  | succ n ih => simp [beBytes, ih]

@[simp] theorem beNat_nil : beNat [] = 0 := rfl

theorem beNat_foldl (bs : List Byte) (acc : Nat) :
    bs.foldl (fun acc b => acc * 256 + b.toNat) acc = acc * 256 ^ bs.length + beNat bs := by
  induction bs generalizing acc with
  | nil => simp
  | cons b bs ih =>
    rw [beNat, List.foldl_cons, List.foldl_cons, ih, ih (0 * 256 + b.toNat), List.length_cons, pow_succ]
    ring

theorem beNat_cons (b : Byte) (bs : List Byte) : beNat (b :: bs) = b.toNat * 256 ^ bs.length + beNat bs := by
  rw [beNat, List.foldl_cons, beNat_foldl]
  simp

theorem beNat_append (as bs : List Byte) : beNat (as ++ bs) = beNat as * 256 ^ bs.length + beNat bs := by
  rw [beNat, List.foldl_append, beNat_foldl]
  rfl

theorem beNat_lt (bs : List Byte) : beNat bs < 256 ^ bs.length := by
  induction bs with
  | nil => simp
  | cons b bs ih =>
    rw [beNat_cons, List.length_cons, pow_succ]
    have hb : b.toNat < 256 := b.isLt
    calc b.toNat * 256 ^ bs.length + beNat bs < b.toNat * 256 ^ bs.length + 256 ^ bs.length := by omega
      _ = (b.toNat + 1) * 256 ^ bs.length := by ring
      _ ≤ 256 * 256 ^ bs.length := Nat.mul_le_mul_right _ (by omega)
      _ = 256 ^ bs.length * 256 := by ring

/-- The bytes of a number denote it, modulo what they can hold. -/
theorem beNat_beBytes (n v : Nat) : beNat (beBytes n v) = v % 256 ^ n := by
  induction n with
  | zero => simp [beBytes, Nat.mod_one]
  | succ n ih =>
    rw [beBytes, beNat_cons, ih, length_beBytes, BitVec.toNat_ofNat, Nat.shiftRight_eq_div_pow, pow_mul,
      show (2 : Nat) ^ 8 = 256 from rfl, pow_succ, Nat.mod_mul]
    ring

/-- Big-endian bytes are determined by the number they denote. -/
theorem beBytes_beNat (bs : List Byte) : beBytes bs.length (beNat bs) = bs := by
  induction bs with
  | nil => rfl
  | cons b bs ih =>
    have key : ∀ n v w : Nat, beBytes n (w * 256 ^ n + v) = beBytes n v := by
      intro n
      induction n with
      | zero => intros; rfl
      | succ n ihn =>
        intro v w
        rw [beBytes, beBytes]
        congr 1
        · apply BitVec.eq_of_toNat_eq
          rw [BitVec.toNat_ofNat, BitVec.toNat_ofNat, Nat.shiftRight_eq_div_pow, Nat.shiftRight_eq_div_pow, pow_mul,
            show (2 : Nat) ^ 8 = 256 from rfl, pow_succ,
            show w * (256 ^ n * 256) + v = v + 256 ^ n * (256 * w) by ring, Nat.add_mul_div_left _ _ (by positivity),
            Nat.add_mul_mod_self_left]
        · rw [pow_succ, show w * (256 ^ n * 256) + v = (w * 256) * 256 ^ n + v by ring, ihn]
    rw [List.length_cons, beBytes, beNat_cons, key, ih]
    congr 1
    apply BitVec.eq_of_toNat_eq
    have := beNat_lt bs
    rw [BitVec.toNat_ofNat, Nat.shiftRight_eq_div_pow, pow_mul, show (2 : Nat) ^ 8 = 256 from rfl,
      Nat.mul_comm, Nat.mul_add_div (by positivity), Nat.div_eq_of_lt this, Nat.add_zero]
    exact Nat.mod_eq_of_lt b.isLt

theorem beBytes_beNat' {bs : List Byte} {n : Nat} (h : bs.length = n) : beBytes n (beNat bs) = bs := by
  subst h; exact beBytes_beNat bs

/-! ## Blocks -/

@[simp] theorem length_blockBytes (k : Block) : (blockBytes k).length = 16 := length_beBytes _ _

@[simp] theorem blockOfBytes_blockBytes (k : Block) : blockOfBytes (blockBytes k) = k := by
  rw [blockOfBytes, blockBytes, beNat_beBytes]
  apply BitVec.eq_of_toNat_eq
  rw [BitVec.toNat_ofNat, show (256 : Nat) ^ 16 = 2 ^ 128 by norm_num, Nat.mod_mod, Nat.mod_eq_of_lt k.isLt]

theorem toNat_blockOfBytes {bs : List Byte} (h : bs.length = 16) : (blockOfBytes bs).toNat = beNat bs := by
  have := beNat_lt bs
  rw [h] at this
  rw [blockOfBytes, BitVec.toNat_ofNat, Nat.mod_eq_of_lt (by simpa using this)]

theorem blockBytes_blockOfBytes {bs : List Byte} (h : bs.length = 16) : blockBytes (blockOfBytes bs) = bs := by
  rw [blockBytes, toNat_blockOfBytes h, beBytes_beNat' h]

theorem getElem?_beBytes {n : Nat} (v i : Nat) (h : i < n) :
    (beBytes n v)[i]? = some (BitVec.ofNat 8 (v >>> (8 * (n - 1 - i)))) := by
  induction n generalizing i with
  | zero => omega
  | succ n ih =>
    cases i with
    | zero => simp [beBytes]
    | succ i =>
      rw [beBytes, List.getElem?_cons_succ, ih i (by omega)]
      congr 4
      omega

theorem getElem?_blockBytes (k : Block) {i : Nat} (h : i < 16) :
    (blockBytes k)[i]? = some (Machine.blockByte k i) := by
  rw [blockBytes, getElem?_beBytes _ _ h, Machine.blockByte]

/-- Byte `i` of a block built from 16 bytes is byte `i` (R175). -/
theorem blockByte_blockOfBytes {bs : List Byte} (h : bs.length = 16) {i : Nat} (hi : i < 16) :
    some (Machine.blockByte (blockOfBytes bs) i) = bs[i]? := by
  rw [← getElem?_blockBytes _ hi, blockBytes_blockOfBytes h]

/-- Byte `i` of a block built by `f` is `f i` (R175). -/
@[simp] theorem blockByte_blockOfFn (f : Nat → Byte) {i : Nat} (hi : i < 16) :
    Machine.blockByte (Machine.blockOfFn f) i = f i := by
  have h := blockByte_blockOfBytes (bs := (List.range 16).map f) (by simp) hi
  simpa [Machine.blockOfFn, hi] using h

/-- A block is determined by its bytes. -/
theorem block_ext {a b : Block} (h : ∀ i, i < 16 → Machine.blockByte a i = Machine.blockByte b i) : a = b := by
  have hb : blockBytes a = blockBytes b := by
    apply List.ext_getElem?
    intro i
    by_cases hi : i < 16
    · rw [getElem?_blockBytes a hi, getElem?_blockBytes b hi, h i hi]
    · rw [List.getElem?_eq_none (by simp; omega), List.getElem?_eq_none (by simp; omega)]
  rw [← blockOfBytes_blockBytes a, hb, blockOfBytes_blockBytes]

/-! ## Frames (R90) -/

/-- The frame's fixed bytes and fields are read back from its 105 bytes (R90). -/
theorem frameOfBytes_frameBytes {body : List Byte} (h : body.length = 99) (crc : Half) :
    frameOfBytes (frameBytes body crc) = some (.frame body crc) := by
  have h2 : (beBytes 2 crc.toNat).length = 2 := length_beBytes _ _
  have hd : (body ++ beBytes 2 crc.toNat ++ [Config.marker]).drop 101 = [Config.marker] :=
    List.drop_left' (by simp [h])
  have hb : (body ++ beBytes 2 crc.toNat ++ [Config.marker]).take 99 = body := by
    rw [List.append_assoc]; exact List.take_left' h
  have hc : ((body ++ beBytes 2 crc.toNat ++ [Config.marker]).drop 99).take 2 = beBytes 2 crc.toNat := by
    rw [List.append_assoc, List.drop_left' h]; exact List.take_left' h2
  have hv : BitVec.ofNat 16 (beNat (beBytes 2 crc.toNat)) = crc := by
    rw [beNat_beBytes, show (256 : Nat) ^ 2 = 2 ^ 16 by norm_num, Nat.mod_eq_of_lt crc.isLt, BitVec.ofNat_toNat, BitVec.setWidth_eq]
  simp only [frameBytes, frameOfBytes, hd, hb, hc, hv, and_self, if_true]

theorem length_frameBytes {body : List Byte} (h : body.length = 99) (crc : Half) : (frameBytes body crc).length = 105 := by
  simp [frameBytes, h]

/-- The frame as one word, frame offset 0 in its most significant byte, is the operation `FRAME` of its fields (R90). -/
theorem decodeTableWord_frame {body : List Byte} (h : body.length = 99) (crc : Half) :
    decodeTableWord 840 (beNat (frameBytes body crc)) = some (.frame body crc) := by
  have hw : frameWordBytes (beNat (frameBytes body crc)) = frameBytes body crc := by
    simp [frameWordBytes, beBytes_beNat' (length_frameBytes h crc), frameOfBytes_frameBytes h]
  have hl := length_frameBytes h crc
  simp [decodeTableWord, tableScript, hw, decode, decodeRecord, withBytes, hl, List.take_of_length_le (Nat.le_of_eq hl),
    frameOfBytes_frameBytes h]

end Sys2Proof
end

