-- ==== Sys2Proof/Laws/Stages.lean ====
section
/-! SUPPORT. What `validate`, `derive_iv`, the exclusive-or, `decrypt`, `extract` and the stages after the frame can do: for
each, what it answers where its operands are defined, and what an answer tells. -/

namespace Sys2Proof.Machine

/-! ## Two- and four-byte numbers -/

theorem toNat_append8 {n : Nat} (a : BitVec n) (b : Byte) : (a ++ b).toNat = a.toNat * 256 + b.toNat := by
  rw [BitVec.toNat_append, ← Nat.shiftLeft_add_eq_or_of_lt b.isLt, Nat.shiftLeft_eq]

theorem ofNat_beNat_two (a b : Byte) : BitVec.ofNat 16 (beNat [a, b]) = a ++ b := by
  apply BitVec.eq_of_toNat_eq
  have ha : a.toNat < 256 := a.isLt
  have hb : b.toNat < 256 := b.isLt
  rw [toNat_append8, BitVec.toNat_ofNat]
  simp only [beNat_cons, beNat_nil, List.length_cons, List.length_nil]
  omega

theorem ofNat_beNat_four (a b c d : Byte) : BitVec.ofNat 32 (beNat [a, b, c, d]) = a ++ b ++ c ++ d := by
  apply BitVec.eq_of_toNat_eq
  have ha : a.toNat < 256 := a.isLt
  have hb : b.toNat < 256 := b.isLt
  have hc : c.toNat < 256 := c.isLt
  have hd : d.toNat < 256 := d.isLt
  rw [toNat_append8, toNat_append8, toNat_append8, BitVec.toNat_ofNat]
  simp only [beNat_cons, beNat_nil, List.length_cons, List.length_nil]
  omega

/-! ## CRC -/

/-- The register absorbs the bytes in order (R155). -/
theorem crcBytes_eq_foldl (reg : Half) (bs : List Byte) : crcBytes reg bs = bs.foldl crc16Update reg := by
  induction bs generalizing reg with
  | nil => rfl
  | cons b bs ih => rw [crcBytes, computed_eq, ih, List.foldl_cons]

theorem crcBytes_append (reg : Half) (as bs : List Byte) : crcBytes reg (as ++ bs) = crcBytes (crcBytes reg as) bs := by
  simp only [crcBytes_eq_foldl, List.foldl_append]

theorem embeddedCrc_next {s : State} {F : Nat → Byte} (h : HoldsFrame s 104 F) :
    embeddedCrc s = .next (frameCrcField F) := by
  rw [embeddedCrc, memRead_next (f := F) (by decide) (fun j _ hj => h j (by omega)), andThen_next]
  exact congrArg _ (ofNat_beNat_two _ _)

theorem checksummed_next {s : State} {F : Nat → Byte} (h : HoldsFrame s 104 F) :
    checksummed s = .next ((List.range 101).map fun j => F (1 + j)) :=
  readBytes_next (by decide) (fun j _ hj => h j (by simp only [Config.crcLast, Config.crcFirst] at hj; omega))

/-- `validate` where the frame is stored (R158, R159). -/
theorem runValidate_next {s : State} {F : Nat → Byte} (h : HoldsFrame s 104 F) :
    runValidate s =
      if frameCrc F = frameCrcField F then .next { s with crcCalc := some (frameCrc F) }
      else .next (raiseError .crcMismatch { s with crcCalc := some (frameCrc F) }) := by
  rw [runValidate, checksummed_next h, andThen_next, embeddedCrc_next h, andThen_next]
  rfl

/-- An answer of `validate` writes `CRC_CALC`, and raises at most `CrcMismatch`. -/
theorem runValidate_eq_next {s t : State} (h : runValidate s = .next t) :
    ∃ c, t = { s with crcCalc := some c } ∨ t = raiseError .crcMismatch { s with crcCalc := some c } := by
  simp only [runValidate, andThen_eq_next] at h
  obtain ⟨seq, -, c, -, h⟩ := h
  split at h
  · exact ⟨_, .inl (Host.Outcome.next.inj h).symm⟩
  · exact ⟨_, .inr (Host.Outcome.next.inj h).symm⟩

/-! ## Decryption -/

@[simp] theorem length_xorStream (ct : List Byte) (ks : List Block) : (xorStream ct ks).length = ct.length := by
  simp [xorStream]

/-- Byte `i` of the exclusive-or (R193). -/
theorem getElem?_xorStream (ct : List Byte) (ks : List Block) (i : Nat) :
    (xorStream ct ks)[i]? = (ct[i]?).map (· ^^^ keystreamByte ks i) := by
  simp [xorStream]

@[simp] theorem length_counterBlocks (cb : Block) (n : Nat) : (counterBlocks cb n).length = n := by
  induction n generalizing cb with
  | zero => rfl
  | succ n ih => simp [counterBlocks, ih]

@[simp] theorem length_keystream (key iv : Block) (n : Nat) : (keystream key iv n).length = (n + 15) / 16 := by
  simp [keystream]

/-- The keystream is long enough for the bytes it is made for (R192). -/
theorem keystream_covers (key iv : Block) (n : Nat) : n ≤ 16 * (keystream key iv n).length := by
  rw [length_keystream]; omega

theorem runDeriveIv_next {s : State} {F : Nat → Byte} (hP : s.params.WellFormed) (h : HoldsFrame s 102 F) :
    runDeriveIv s = .next { s with iv := some (frameIv s.params F) } := by
  have ⟨_, h2, _, h4, _⟩ := hP
  rw [runDeriveIv, config_next hP, andThen_next, systemTitle, readFbuf,
    readBytes_next (f := F) (by simp only [Config.stLen, Config.frameLen]; omega)
      (fun j _ hj => h j (by simp only [Config.stLen] at hj; omega)),
    andThen_next, invocationCounter, readFbuf,
    readBytes_next (f := F) (by simp only [Config.icLen, Config.frameLen]; omega)
      (fun j _ hj => h j (by simp only [Config.icLen] at hj; omega)), andThen_next]
  rfl

/-- An answer of `derive_iv` writes `IV` and nothing else. -/
theorem runDeriveIv_eq_next {s t : State} (h : runDeriveIv s = .next t) : ∃ iv, t = { s with iv := some iv } := by
  simp only [runDeriveIv, andThen_eq_next] at h
  obtain ⟨_, -, _, -, _, -, h⟩ := h
  exact ⟨_, (Host.Outcome.next.inj h).symm⟩

theorem runCtrXor_next {s : State} {F : Nat → Byte} {ks : List Block} (hP : s.params.WellFormed) (h : HoldsFrame s 102 F)
    (hk : s.params.lenCt ≤ 16 * ks.length) :
    runCtrXor ks s = .next { s with
      pt := Memory.ofBytes 0 ((List.range s.params.lenCt).map fun i => F (s.params.offCt + i) ^^^ keystreamByte ks i) } := by
  have ⟨_, _, _, _, _, _, h7, _⟩ := hP
  rw [runCtrXor, config_next hP, andThen_next, cipherText, readFbuf,
    readBytes_next (f := F) (by simp only [Config.frameLen]; omega) (fun j _ hj => h j (by omega)), andThen_next,
    if_pos hk]
  congr 3
  apply List.ext_getElem?
  intro i
  simp only [getElem?_xorStream, List.getElem?_map]
  by_cases hi : i < s.params.lenCt
  · simp [hi]
  · rw [List.getElem?_eq_none (by simpa using hi)]; rfl

/-- An answer of the exclusive-or defines `PT`, all `LEN_CT` bytes of it, and changes nothing else. -/
theorem runCtrXor_eq_next {s t : State} {ks : List Block} (h : runCtrXor ks s = .next t) :
    ∃ bs, bs.length = s.params.lenCt ∧ t = { s with pt := Memory.ofBytes 0 bs } := by
  simp only [runCtrXor, andThen_eq_next] at h
  obtain ⟨P, hP, ct, hct, h⟩ := h
  obtain ⟨-, rfl⟩ := config_eq_next.mp hP
  split at h
  · exact ⟨xorStream ct ks, by rw [length_xorStream]; exact (readBytes_eq_next hct).1, (Host.Outcome.next.inj h).symm⟩
  · cases h

theorem runDecrypt_no_key {s : State} (hP : s.params.WellFormed) (hk : s.keyValid = false) :
    runDecrypt s = .next (raiseError .decryptionFailure s) := by
  rw [runDecrypt, config_next hP, andThen_next, hk]; rfl

/-- `decrypt` with a key, where the frame is stored (R195). -/
theorem runDecrypt_next {s : State} {F : Nat → Byte} {key : Block} (hP : s.params.WellFormed) (h : HoldsFrame s 102 F)
    (hv : s.keyValid = true) (hk : s.key = some key) :
    runDecrypt s = .next { s with
      iv := some (frameIv s.params F)
      pt := Memory.ofBytes 0 ((List.range s.params.lenCt).map (framePlain s.params key F)) } := by
  rw [runDecrypt, config_next hP, andThen_next, if_pos hv, runDeriveIv_next hP h, andThen_next]
  have e : readElement .key s.key = .next key := readElement_eq_next.mpr hk
  change andThen (readElement .key s.key) _ = _
  rw [e]
  exact runCtrXor_next (s := { s with iv := some (frameIv s.params F) }) hP h (keystream_covers _ _ _)

/-- An answer of `decrypt` raises `DecryptionFailure` exactly where no key is loaded; with one it defines `IV` and `PT`. -/
theorem runDecrypt_eq_next {s t : State} (h : runDecrypt s = .next t) :
    (s.keyValid = false ∧ t = raiseError .decryptionFailure s) ∨
    (s.keyValid = true ∧ ∃ iv bs, bs.length = s.params.lenCt ∧ t = { s with iv := some iv, pt := Memory.ofBytes 0 bs }) := by
  simp only [runDecrypt, andThen_eq_next] at h
  obtain ⟨P, hP, h⟩ := h
  split at h
  · next hv =>
    simp only [andThen_eq_next] at h
    obtain ⟨s', hs', _, -, _, -, h⟩ := h
    obtain ⟨iv, rfl⟩ := runDeriveIv_eq_next hs'
    obtain ⟨bs, hbs, rfl⟩ := runCtrXor_eq_next h
    exact .inr ⟨hv, iv, bs, hbs, rfl⟩
  · next hv => exact .inl ⟨by simpa using hv, (Host.Outcome.next.inj h).symm⟩

/-! ## Extraction -/

/-- A field inside a defined PlainText is read big-endian (R221). -/
theorem readField_next {P : Params} {pt : Memory} {f : Nat → Byte} {o : Nat} (ho : o + 4 ≤ P.lenCt)
    (h : ∀ j, j < P.lenCt → pt.read? j = some (f j)) : readField P pt o = .next (fieldAt f o) := by
  rw [readField, memRead_next (f := f) ho (fun j _ hj => h j (by omega)), andThen_next]
  exact congrArg _ (ofNat_beNat_four _ _ _ _)

theorem runExtract_misfit {s : State} (hP : s.params.WellFormed) (hf : ¬s.params.FieldsFit) :
    runExtract s = .next (raiseError .fieldOutOfRange s) := by
  rw [runExtract, config_next hP, andThen_next, if_neg hf]

/-- `extract` on a defined PlainText whose fields fit (R225). -/
theorem runExtract_next {s : State} {f : Nat → Byte} (hP : s.params.WellFormed) (hf : s.params.FieldsFit)
    (h : ∀ j, j < s.params.lenCt → s.pt.read? j = some (f j)) :
    runExtract s = .next { s with
      rd := some #v[fieldAt f s.params.offFld[0], fieldAt f s.params.offFld[1], fieldAt f s.params.offFld[2],
        fieldAt f s.params.offFld[3], fieldAt f s.params.offFld[4], fieldAt f s.params.offFld[5],
        fieldAt f s.params.offFld[6], fieldAt f s.params.offFld[7]] } := by
  rw [runExtract, config_next hP, andThen_next, if_pos hf,
    gather8_next (g := fun k => fieldAt f s.params.offFld[k]) (fun k => readField_next (hf k) h), andThen_next]
  rfl

/-- An answer of `extract` raises `FieldOutOfRange` exactly where a field does not fit; else it defines all of `RD`. -/
theorem runExtract_eq_next {s t : State} (h : runExtract s = .next t) :
    (¬s.params.FieldsFit ∧ t = raiseError .fieldOutOfRange s) ∨
    (s.params.FieldsFit ∧ ∃ rd, t = { s with rd := some rd }) := by
  simp only [runExtract, andThen_eq_next] at h
  obtain ⟨P, hP, h⟩ := h
  obtain ⟨-, rfl⟩ := config_eq_next.mp hP
  split at h
  · next hf =>
    simp only [andThen_eq_next] at h
    obtain ⟨rd, -, h⟩ := h
    exact .inr ⟨hf, rd, (Host.Outcome.next.inj h).symm⟩
  · next hf => exact .inl ⟨hf, (Host.Outcome.next.inj h).symm⟩

/-! ## The stages after the frame -/

/-- What the stages after the frame can do, in their order (R246, R250, R273). -/
theorem runBackEnd_eq_next {s t : State} (h : runBackEnd s = .next t) :
    ∃ c, t = raiseError .crcMismatch { s with crcCalc := some c } ∨
      (s.keyValid = false ∧ t = raiseError .decryptionFailure { s with crcCalc := some c }) ∨
      (s.keyValid = true ∧ ∃ iv bs, bs.length = s.params.lenCt ∧
        ((¬s.params.FieldsFit ∧
            t = raiseError .fieldOutOfRange { s with crcCalc := some c, iv := some iv, pt := Memory.ofBytes 0 bs }) ∨
          (s.params.FieldsFit ∧ ∃ rd,
            t = completeOk rd
              { s with crcCalc := some c, iv := some iv, pt := Memory.ofBytes 0 bs, rd := some rd }))) := by
  simp only [runBackEnd, andThen_eq_next] at h
  obtain ⟨s1, h1, s2, h2, s3, h3, h4⟩ := h
  obtain ⟨c, rfl | rfl⟩ := runValidate_eq_next h1
  · refine ⟨c, .inr ?_⟩
    simp only [thenStage, if_true] at h2
    rcases runDecrypt_eq_next h2 with ⟨hk, rfl⟩ | ⟨hk, iv, bs, hbs, rfl⟩
    · refine .inl ⟨hk, ?_⟩
      simp only [thenStage, raiseError_stage, reduceCtorEq, if_false, Host.Outcome.next.injEq] at h3
      subst h3
      simp only [raiseError_stage, reduceCtorEq, if_false, Host.Outcome.next.injEq] at h4
      exact h4.symm
    · refine .inr ⟨hk, iv, bs, hbs, ?_⟩
      simp only [thenStage, if_true] at h3
      rcases runExtract_eq_next h3 with ⟨hf, rfl⟩ | ⟨hf, rd, rfl⟩
      · refine .inl ⟨hf, ?_⟩
        simp only [raiseError_stage, reduceCtorEq, if_false, Host.Outcome.next.injEq] at h4
        exact h4.symm
      · refine .inr ⟨hf, rd, ?_⟩
        simp only [if_true, runComplete, readElement_some, andThen_next, Host.Outcome.next.injEq] at h4
        exact h4.symm
  · refine ⟨c, .inl ?_⟩
    simp only [thenStage, raiseError_stage, reduceCtorEq, if_false, Host.Outcome.next.injEq] at h2
    subst h2
    simp only [thenStage, raiseError_stage, reduceCtorEq, if_false, Host.Outcome.next.injEq] at h3
    subst h3
    simp only [raiseError_stage, reduceCtorEq, if_false, Host.Outcome.next.injEq] at h4
    exact h4.symm

end Sys2Proof.Machine
end

