-- ==== Sys2Proof/Laws/FrameReader.lean ====
section
/-! SUPPORT. The operation map of R102 row by row, and what the event `RX(b)` can do. -/

namespace Sys2Proof

/-! ## The rows of the map -/

theorem selectRx_eq_mark {ctx : Context} {b : Byte} :
    selectRx ctx b = some .mark ↔
      ctx.stage = .framing ∧ ctx.frState = .searching ∧ ctx.len = 0 ∧ b = Config.marker := by
  unfold selectRx
  repeat' split
  all_goals simp_all

theorem selectRx_eq_skip {ctx : Context} {b c : Byte} :
    selectRx ctx b = some (.skip c) ↔
      ctx.stage = .framing ∧ ctx.frState = .searching ∧ ctx.len = 0 ∧ b ≠ Config.marker ∧ b = c := by
  unfold selectRx
  repeat' split
  all_goals simp_all

theorem selectRx_eq_remark {ctx : Context} {b : Byte} :
    selectRx ctx b = some .remark ↔
      ctx.stage = .framing ∧ ctx.frState = .matchingHeader ∧ (ctx.len = 1 ∨ ctx.len = 2) ∧ b = Config.marker := by
  unfold selectRx
  repeat' split
  all_goals simp_all

theorem selectRx_eq_hdr1 {ctx : Context} {b : Byte} :
    selectRx ctx b = some .hdr1 ↔
      ctx.stage = .framing ∧ ctx.frState = .matchingHeader ∧ ctx.len = 1 ∧ b = Config.hdr1 := by
  unfold selectRx
  repeat' split
  all_goals simp_all

theorem selectRx_eq_hdr2 {ctx : Context} {b : Byte} :
    selectRx ctx b = some .hdr2 ↔
      ctx.stage = .framing ∧ ctx.frState = .matchingHeader ∧ ctx.len = 2 ∧ b = Config.hdr2 := by
  unfold selectRx
  repeat' split
  all_goals simp_all

theorem selectRx_eq_miss {ctx : Context} {b c : Byte} :
    selectRx ctx b = some (.miss c) ↔
      ctx.stage = .framing ∧ ctx.frState = .matchingHeader ∧ (ctx.len = 1 ∨ ctx.len = 2) ∧ b ≠ Config.marker ∧
        ¬(ctx.len = 1 ∧ b = Config.hdr1) ∧ ¬(ctx.len = 2 ∧ b = Config.hdr2) ∧ b = c := by
  unfold selectRx
  repeat' split
  all_goals simp_all

theorem selectRx_eq_body {ctx : Context} {b c : Byte} :
    selectRx ctx b = some (.body c) ↔
      ctx.stage = .framing ∧ ctx.frState = .readingBody ∧ 3 ≤ ctx.len.toNat ∧ ctx.len.toNat ≤ 103 ∧ b = c := by
  unfold selectRx
  repeat' split
  all_goals simp_all

theorem selectRx_eq_endFrame {ctx : Context} {b : Byte} :
    selectRx ctx b = some .endFrame ↔
      ctx.stage = .framing ∧ ctx.frState = .readingBody ∧ ctx.len.toNat = 104 ∧ b = Config.marker := by
  unfold selectRx
  repeat' split
  all_goals simp_all
  intro h
  omega

theorem selectRx_eq_badend {ctx : Context} {b c : Byte} :
    selectRx ctx b = some (.badend c) ↔
      ctx.stage = .framing ∧ ctx.frState = .readingBody ∧ ctx.len.toNat = 104 ∧ b ≠ Config.marker ∧ b = c := by
  unfold selectRx
  repeat' split
  all_goals simp_all
  intro h
  omega

/-- Outside `Framing` no byte is accepted (R42). -/
theorem selectRx_not_framing {ctx : Context} (h : ctx.stage ≠ .framing) (b : Byte) : selectRx ctx b = none := if_neg h

/-- The operation that the map selects is the one that its own row describes. -/
theorem rxOp_of_selectRx {ctx : Context} {b : Byte} {op : RxOp} (h : selectRx ctx b = some op) :
    op.toInstr.rxOp = some (b, op) := by
  cases op with
  | mark => simp [RxOp.toInstr, Instr.rxOp, (selectRx_eq_mark.mp h).2.2.2]
  | skip c => simp [RxOp.toInstr, Instr.rxOp, (selectRx_eq_skip.mp h).2.2.2.2]
  | remark => simp [RxOp.toInstr, Instr.rxOp, (selectRx_eq_remark.mp h).2.2.2]
  | hdr1 => simp [RxOp.toInstr, Instr.rxOp, (selectRx_eq_hdr1.mp h).2.2.2]
  | hdr2 => simp [RxOp.toInstr, Instr.rxOp, (selectRx_eq_hdr2.mp h).2.2.2]
  | miss c => simp [RxOp.toInstr, Instr.rxOp, (selectRx_eq_miss.mp h).2.2.2.2.2.2]
  | body c => simp [RxOp.toInstr, Instr.rxOp, (selectRx_eq_body.mp h).2.2.2.2]
  | endFrame => simp [RxOp.toInstr, Instr.rxOp, (selectRx_eq_endFrame.mp h).2.2.2]
  | badend c => simp [RxOp.toInstr, Instr.rxOp, (selectRx_eq_badend.mp h).2.2.2.2]

namespace Machine

/-! ## The operations where the map selects them -/

theorem execFrSkip_selected {s : State} {b : Byte} (h : Selects s b (.skip b)) : execFrSkip b s = .next s := if_pos h

theorem execFrMark_selected {s : State} (h : Selects s Config.marker .mark) :
    execFrMark s = .next (startAccumulation s) := if_pos h

theorem execFrRemark_selected {s : State} (h : Selects s Config.marker .remark) :
    execFrRemark s = .next (startAccumulation s) := if_pos h

theorem execFrHdr1_selected {s : State} (h : Selects s Config.hdr1 .hdr1) :
    execFrHdr1 s = .next { s with fbuf := s.fbuf.write 1 Config.hdr1, len := 2 } := if_pos h

theorem execFrHdr2_selected {s : State} (h : Selects s Config.hdr2 .hdr2) :
    execFrHdr2 s = .next { s with fbuf := s.fbuf.write 2 Config.hdr2, len := 3, frState := .readingBody } := if_pos h

theorem execFrMiss_selected {s : State} {b : Byte} (h : Selects s b (.miss b)) :
    execFrMiss b s = .next { s with fbuf := [], len := 0, frState := .searching } := if_pos h

theorem execFrBody_selected {s : State} {b : Byte} (h : Selects s b (.body b)) :
    execFrBody b s = .next { s with fbuf := s.fbuf.write s.len.toNat b, len := s.len + 1 } := if_pos h

theorem execFrEnd_selected {s : State} (h : Selects s Config.marker .endFrame) :
    execFrEnd s = runBackEnd { s with fbuf := s.fbuf.write 104 Config.marker, len := 105, frState := .done } := if_pos h

theorem execFrBadend_selected {s : State} {b : Byte} (h : Selects s b (.badend b)) :
    execFrBadend b s = .next
      (raiseError .incompleteFrame { s with fbuf := s.fbuf.write 104 b, len := 105, frState := .failed }) := if_pos h

theorem execFrTimeout_framing {s : State} (h : s.stage = .framing)
    (hf : s.frState = .searching ∨ s.frState = .matchingHeader ∨ s.frState = .readingBody) :
    execFrTimeout s = .next (raiseError .incompleteFrame { s with frState := .failed }) := if_pos ⟨h, hf⟩

/-- Outside `Framing` a timeout is dropped (R42). -/
theorem execFrTimeout_dropped {s : State} (h : s.stage ≠ .framing) : execFrTimeout s = .next s := if_neg fun k => h k.1

/-! ## The event `RX(b)` -/

/-- The event `RX(b)` is the operation that the map selects. -/
theorem receive_selected {s : State} {b : Byte} {op : RxOp} (h : selectRx s.context b = some op) :
    receive b s = runRxOp op s := by
  rw [receive, h]

/-- Where the map has no row, the byte changes nothing (R42). -/
theorem receive_not_accepted {s : State} {b : Byte} (h : selectRx s.context b = none) : receive b s = .next s := by
  rw [receive, h]

/-- Everything that the event `RX(b)` can do (R131): nothing where no row holds, else the row's own effect. -/
theorem receive_eq_next {b : Byte} {s t : State} (h : receive b s = .next t) :
    (selectRx s.context b = none ∧ t = s) ∨
    (selectRx s.context b = some (.skip b) ∧ t = s) ∨
    ((selectRx s.context b = some .mark ∨ selectRx s.context b = some .remark) ∧ t = startAccumulation s) ∨
    (selectRx s.context b = some .hdr1 ∧ t = { s with fbuf := s.fbuf.write 1 Config.hdr1, len := 2 }) ∨
    (selectRx s.context b = some .hdr2 ∧
      t = { s with fbuf := s.fbuf.write 2 Config.hdr2, len := 3, frState := .readingBody }) ∨
    (selectRx s.context b = some (.miss b) ∧ t = { s with fbuf := [], len := 0, frState := .searching }) ∨
    (selectRx s.context b = some (.body b) ∧ t = { s with fbuf := s.fbuf.write s.len.toNat b, len := s.len + 1 }) ∨
    (selectRx s.context b = some .endFrame ∧
      runBackEnd { s with fbuf := s.fbuf.write 104 Config.marker, len := 105, frState := .done } = .next t) ∨
    (selectRx s.context b = some (.badend b) ∧
      t = raiseError .incompleteFrame { s with fbuf := s.fbuf.write 104 b, len := 105, frState := .failed }) := by
  unfold receive at h
  cases hop : selectRx s.context b with
  | none => rw [hop] at h; exact .inl ⟨rfl, (Host.Outcome.next.inj h).symm⟩
  | some op =>
    rw [hop] at h
    have hb := rxOp_of_selectRx hop
    cases op with
    | mark =>
      cases hb
      simp only [runRxOp, execFrMark, performIf_pos hop, Host.Outcome.next.injEq] at h
      simp [← h]
    | skip c =>
      cases hb
      simp only [runRxOp, execFrSkip, performIf_pos hop, Host.Outcome.next.injEq] at h
      simp [← h]
    | remark =>
      cases hb
      simp only [runRxOp, execFrRemark, performIf_pos hop, Host.Outcome.next.injEq] at h
      simp [← h]
    | hdr1 =>
      cases hb
      simp only [runRxOp, execFrHdr1, performIf_pos hop, Host.Outcome.next.injEq] at h
      simp [← h]
    | hdr2 =>
      cases hb
      simp only [runRxOp, execFrHdr2, performIf_pos hop, Host.Outcome.next.injEq] at h
      simp [← h]
    | miss c =>
      cases hb
      simp only [runRxOp, execFrMiss, performIf_pos hop, Host.Outcome.next.injEq] at h
      simp [← h]
    | body c =>
      cases hb
      simp only [runRxOp, execFrBody, performIf_pos hop, Host.Outcome.next.injEq] at h
      simp [← h]
    | endFrame =>
      cases hb
      simp only [runRxOp, execFrEnd, performIf_pos hop] at h
      exact .inr (.inr (.inr (.inr (.inr (.inr (.inr (.inl ⟨rfl, h⟩)))))))
    | badend c =>
      cases hb
      simp only [runRxOp, execFrBadend, performIf_pos hop, Host.Outcome.next.injEq] at h
      simp [← h]

@[simp] theorem receiveAll_nil (s : State) : receiveAll [] s = .next s := rfl

@[simp] theorem receiveAll_cons (b : Byte) (bs : List Byte) (s : State) :
    receiveAll (b :: bs) s = andThen (receive b s) (receiveAll bs) := rfl

/-- What every received byte keeps, every byte sequence keeps. -/
theorem receiveAll_keeps {p : State → Prop} (hp : ∀ b s t, p s → receive b s = .next t → p t) {bs : List Byte} {s t : State}
    (hs : p s) (h : receiveAll bs s = .next t) : p t := by
  induction bs generalizing s with
  | nil => cases h; exact hs
  | cons b bs ih =>
    obtain ⟨s', h1, h2⟩ := andThen_eq_next.mp h
    exact ih (hp b s s' hs h1) h2

end Machine

end Sys2Proof
end

