-- ==== Sys2Proof/Laws/Step.lean ====
section
/-! SUPPORT. What one step can do. -/

namespace Sys2Proof.Machine

/-- A step that answers: nothing was offered; a byte was offered where it is not accepted; or the offered operation ran, on
the state whose script is the rest of the tape. -/
theorem step_eq_next {s t : State} :
    step s = .next t ↔ s.params.WellFormed ∧
      ((fetch s = .idle ∧ t = s) ∨
        (∃ rest, fetch s = .notAccepted rest ∧ t = { s with script := rest }) ∨
        (∃ i rest, fetch s = .op i rest ∧ exec i { s with script := rest } = .next t)) := by
  unfold step
  split
  · next hP =>
    rw [and_iff_right hP]
    cases fetch s <;> simp [eq_comm]
  · next hP => simp [hP]

/-- A received byte changes neither `P` nor the key nor the script. -/
theorem receive_keeps {b : Byte} {s t : State} (hr : receive b s = .next t) :
    t.params = s.params ∧ t.key = s.key ∧ t.keyValid = s.keyValid ∧ t.script = s.script ∧ t.value = s.value := by
  rcases receive_eq_next hr with ⟨_, rfl⟩ | ⟨_, rfl⟩ | ⟨-, rfl⟩ | ⟨-, rfl⟩ |
    ⟨-, rfl⟩ | ⟨-, rfl⟩ | ⟨-, rfl⟩ | ⟨-, hb⟩ | ⟨-, rfl⟩
  all_goals first | exact ⟨rfl, rfl, rfl, rfl, rfl⟩ | skip
  obtain ⟨c, rfl | ⟨-, rfl⟩ | ⟨-, iv, bs, -, ⟨-, rfl⟩ | ⟨-, rd, rfl⟩⟩⟩ := runBackEnd_eq_next hb <;>
    exact ⟨rfl, rfl, rfl, rfl, rfl⟩

/-- A byte operation is the event `RX` of its byte where the map selects it, and does nothing elsewhere. -/
theorem exec_rxOp_eq_next {s t : State} {b : Byte} {op : RxOp} (hb : op.toInstr.rxOp = some (b, op))
    (h : exec op.toInstr s = .next t) : t = s ∨ receive b s = .next t := by
  by_cases hs : selectRx s.context b = some op
  · right; rw [receive_selected hs]; cases op <;> exact h
  · left
    cases op <;> cases hb <;>
      (simp only [RxOp.toInstr, exec, execFrMark, execFrSkip, execFrRemark, execFrHdr1, execFrHdr2, execFrMiss, execFrBody,
          execFrEnd, execFrBadend] at h
       rcases performIf_eq_next.mp h with ⟨a, _⟩ | ⟨_, e⟩
       · exact absurd a hs
       · exact e)

/-- No stage after `Framing` is seen between two events (R29, R246). -/
theorem sound_stage {s : State} (h : s.Inv) :
    s.stage ≠ .validating ∧ s.stage ≠ .decrypting ∧ s.stage ≠ .extracting := by
  have := h.stage_sound
  refine ⟨?_, ?_, ?_⟩ <;> intro k <;> simp [StageSound, k] at this

/-- No error can be raised between two events (R276). -/
theorem sound_not_raisable {s : State} (h : s.Inv) (e : DecodeError) : raisable e s = false := by
  obtain ⟨a,b,c⟩ := sound_stage h
  have hs := h.stage_sound
  cases e <;> simp [raisable, a, b, c]
  intro k k'
  simp [StageSound, k, k'] at hs

/-- What an operation can do from a sound state (R250, R131): nothing; a function's value; reset; abort; begin a decode; take
the key; a received byte; a timeout; the bytes of a frame. The operations that the sequencer runs do nothing there. -/
inductive SoundEffect (s : State) (i : Instr) : State → Prop
  | unchanged : SoundEffect s i s
  | function (v : FnValue) : SoundEffect s i { s with value := v }
  | reset : i = .reset → SoundEffect s i (resetCore s)
  | abort : i = .abort → SoundEffect s i (restartAt .idle s)
  | start : i = .start → CommandReady s → SoundEffect s i (beginDecode s)
  | loadKey (k : Block) : i = .loadKey k → s.keyValid = false → CommandReady s → SoundEffect s i (installKey k s)
  | rx (b : Byte) (op : RxOp) (t : State) : i.rxOp = some (b, op) → receive b s = .next t → SoundEffect s i t
  | timeout : i = .frTimeout → s.stage = .framing →
      SoundEffect s i (raiseError .incompleteFrame { s with frState := .failed })
  | frame (body : List Byte) (crc : Half) (t : State) : i = .frame body crc →
      receiveAll (frameBytes body crc) s = .next t → SoundEffect s i t

/-- Everything that an operation can do from a sound state. -/
theorem exec_eq_next_of_sound {i : Instr} {s t : State} (hI : s.Inv) (h : exec i s = .next t) : SoundEffect s i t := by
  obtain ⟨n1, n2, n3⟩ := sound_stage hI
  cases i with
  | reset => cases h; exact .reset rfl
  | abort => cases h; exact .abort rfl
  | nop => cases h; exact .unchanged
  | loadKey k =>
    simp only [exec, execLoadKey] at h
    rcases performIf_eq_next.mp h with ⟨⟨a, b⟩, h⟩ | ⟨_, rfl⟩
    · cases h; exact .loadKey k rfl a b
    · exact .unchanged
  | start =>
    simp only [exec, execStart] at h
    rcases performIf_eq_next.mp h with ⟨a, h⟩ | ⟨_, rfl⟩
    · cases h; exact .start rfl a
    · exact .unchanged
  | frTimeout =>
    simp only [exec, execFrTimeout] at h
    rcases performIf_eq_next.mp h with ⟨a, h⟩ | ⟨_, rfl⟩
    · cases h; exact .timeout rfl a.1
    · exact .unchanged
  | frMark =>
    rcases exec_rxOp_eq_next (op := .mark) rfl h with rfl | k
    · exact .unchanged
    · exact .rx _ _ _ rfl k
  | frSkip b =>
    rcases exec_rxOp_eq_next (op := .skip b) rfl h with rfl | k
    · exact .unchanged
    · exact .rx _ _ _ rfl k
  | frRemark =>
    rcases exec_rxOp_eq_next (op := .remark) rfl h with rfl | k
    · exact .unchanged
    · exact .rx _ _ _ rfl k
  | frHdr1 =>
    rcases exec_rxOp_eq_next (op := .hdr1) rfl h with rfl | k
    · exact .unchanged
    · exact .rx _ _ _ rfl k
  | frHdr2 =>
    rcases exec_rxOp_eq_next (op := .hdr2) rfl h with rfl | k
    · exact .unchanged
    · exact .rx _ _ _ rfl k
  | frMiss b =>
    rcases exec_rxOp_eq_next (op := .miss b) rfl h with rfl | k
    · exact .unchanged
    · exact .rx _ _ _ rfl k
  | frBody b =>
    rcases exec_rxOp_eq_next (op := .body b) rfl h with rfl | k
    · exact .unchanged
    · exact .rx _ _ _ rfl k
  | frEnd =>
    rcases exec_rxOp_eq_next (op := .endFrame) rfl h with rfl | k
    · exact .unchanged
    · exact .rx _ _ _ rfl k
  | frBadend b =>
    rcases exec_rxOp_eq_next (op := .badend b) rfl h with rfl | k
    · exact .unchanged
    · exact .rx _ _ _ rfl k
  | validate =>
    simp only [exec, execValidate] at h
    rcases performIf_eq_next.mp h with ⟨a, _⟩ | ⟨_, rfl⟩
    · exact absurd a n1
    · exact .unchanged
  | decrypt =>
    simp only [exec, execDecrypt] at h
    rcases performIf_eq_next.mp h with ⟨a, _⟩ | ⟨_, rfl⟩
    · exact absurd a n2
    · exact .unchanged
  | deriveIv =>
    simp only [exec, execDeriveIv] at h
    rcases performIf_eq_next.mp h with ⟨a, _⟩ | ⟨_, rfl⟩
    · exact absurd a n2
    · exact .unchanged
  | ctrXor ks =>
    simp only [exec, execCtrXor] at h
    rcases performIf_eq_next.mp h with ⟨a, _⟩ | ⟨_, rfl⟩
    · exact absurd a n2
    · exact .unchanged
  | extract =>
    simp only [exec, execExtract] at h
    rcases performIf_eq_next.mp h with ⟨a, _⟩ | ⟨_, rfl⟩
    · exact absurd a n3
    · exact .unchanged
  | complete =>
    simp only [exec, execComplete] at h
    rcases performIf_eq_next.mp h with ⟨a, _⟩ | ⟨_, rfl⟩
    · exact absurd a n3
    · exact .unchanged
  | raise e =>
    simp only [exec, execRaise] at h
    rcases performIf_eq_next.mp h with ⟨a, _⟩ | ⟨_, rfl⟩
    · exact absurd a (by simp [sound_not_raisable hI])
    · exact .unchanged
  | u32be o =>
    simp only [exec, execU32be, andThen_eq_next] at h
    obtain ⟨_, _, v, _, h⟩ := h
    cases h; exact .function _
  | frame body crc => exact .frame _ _ _ rfl h
  | mirror8 | crc16Update | crc16 | subBytes | shiftRows | mixColumns | addRoundKey | keyExpansion | aes128 | inc128
  | keystream | scaleEnergy | powerValue => cases h; exact .function _

end Sys2Proof.Machine
end

