-- ==== Sys2Proof/Laws/PerInstr.lean ====
section
/-! SUPPORT. A law of every operation, one lemma each: its record begins with its header, the header is below 31, and headers
0 to 3 are exactly the command codes of R103. -/

namespace Sys2Proof.Laws.RecordHeader

/-- The operation of a command code (R103). -/
def ofCommandCode (i : Instr) (c : Byte) : Prop :=
  (c = 0 → i = .nop) ∧ (c = 1 → ∃ k, i = .loadKey k) ∧ (c = 2 → i = .start) ∧ (c = 3 → i = .abort)

/-- What is said of every operation's record. -/
def Statement (i : Instr) : Prop :=
  (encode i).head? = some i.header ∧ i.header.toNat ≤ 30 ∧ ofCommandCode i i.header

theorem reset : Statement .reset := by simp [Statement, ofCommandCode, encode, Instr.header]
theorem abort : Statement .abort := by simp [Statement, ofCommandCode, encode, Instr.header]
theorem loadKey (k : Block) : Statement (.loadKey k) := by simp [Statement, ofCommandCode, encode, Instr.header]
theorem start : Statement .start := by simp [Statement, ofCommandCode, encode, Instr.header]
theorem nop : Statement .nop := by simp [Statement, ofCommandCode, encode, Instr.header]
theorem frMark : Statement .frMark := by simp [Statement, ofCommandCode, encode, Instr.header]
theorem frSkip (b : Byte) : Statement (.frSkip b) := by simp [Statement, ofCommandCode, encode, Instr.header]
theorem frRemark : Statement .frRemark := by simp [Statement, ofCommandCode, encode, Instr.header]
theorem frHdr1 : Statement .frHdr1 := by simp [Statement, ofCommandCode, encode, Instr.header]
theorem frHdr2 : Statement .frHdr2 := by simp [Statement, ofCommandCode, encode, Instr.header]
theorem frMiss (b : Byte) : Statement (.frMiss b) := by simp [Statement, ofCommandCode, encode, Instr.header]
theorem frBody (b : Byte) : Statement (.frBody b) := by simp [Statement, ofCommandCode, encode, Instr.header]
theorem frEnd : Statement .frEnd := by simp [Statement, ofCommandCode, encode, Instr.header]
theorem frBadend (b : Byte) : Statement (.frBadend b) := by simp [Statement, ofCommandCode, encode, Instr.header]
theorem frTimeout : Statement .frTimeout := by simp [Statement, ofCommandCode, encode, Instr.header]
theorem validate : Statement .validate := by simp [Statement, ofCommandCode, encode, Instr.header]
theorem decrypt : Statement .decrypt := by simp [Statement, ofCommandCode, encode, Instr.header]
theorem deriveIv : Statement .deriveIv := by simp [Statement, ofCommandCode, encode, Instr.header]
theorem extract : Statement .extract := by simp [Statement, ofCommandCode, encode, Instr.header]
theorem raise (e : DecodeError) : Statement (.raise e) := by simp [Statement, ofCommandCode, encode, Instr.header]
theorem complete : Statement .complete := by simp [Statement, ofCommandCode, encode, Instr.header]
theorem mirror8 (b : Byte) : Statement (.mirror8 b) := by simp [Statement, ofCommandCode, encode, Instr.header]
theorem crc16Update (reg : Half) (b : Byte) : Statement (.crc16Update reg b) := by simp [Statement, ofCommandCode, encode, Instr.header]
theorem crc16 (seq : List Byte) : Statement (.crc16 seq) := by simp [Statement, ofCommandCode, encode, Instr.header]
theorem subBytes (st : Block) : Statement (.subBytes st) := by simp [Statement, ofCommandCode, encode, Instr.header]
theorem shiftRows (st : Block) : Statement (.shiftRows st) := by simp [Statement, ofCommandCode, encode, Instr.header]
theorem mixColumns (st : Block) : Statement (.mixColumns st) := by simp [Statement, ofCommandCode, encode, Instr.header]
theorem addRoundKey (st : Block) (rk : Block) : Statement (.addRoundKey st rk) := by simp [Statement, ofCommandCode, encode, Instr.header]
theorem keyExpansion (key : Block) : Statement (.keyExpansion key) := by simp [Statement, ofCommandCode, encode, Instr.header]
theorem aes128 (key : Block) (blk : Block) : Statement (.aes128 key blk) := by simp [Statement, ofCommandCode, encode, Instr.header]
theorem inc128 (blk : Block) : Statement (.inc128 blk) := by simp [Statement, ofCommandCode, encode, Instr.header]
theorem keystream (key : Block) (iv : Block) (lenCt : Nat) : Statement (.keystream key iv lenCt) := by simp [Statement, ofCommandCode, encode, Instr.header]
theorem ctrXor (ks : List Block) : Statement (.ctrXor ks) := by simp [Statement, ofCommandCode, encode, Instr.header]
theorem u32be (o : Nat) : Statement (.u32be o) := by simp [Statement, ofCommandCode, encode, Instr.header]
theorem scaleEnergy (v : Word) : Statement (.scaleEnergy v) := by simp [Statement, ofCommandCode, encode, Instr.header]
theorem powerValue (v : Word) : Statement (.powerValue v) := by simp [Statement, ofCommandCode, encode, Instr.header]
theorem frame (body : List Byte) (crc : Half) : Statement (.frame body crc) := by simp [Statement, ofCommandCode, encode, Instr.header]

end Sys2Proof.Laws.RecordHeader
end

