-- ==== Sys2Proof/Laws/Ports.lean ====
section
/-! SUPPORT. The acceptance tests of R42 as facts of the state, and what an edge of the signal binding can do. -/

namespace Sys2Proof.Machine

/-! ## Acceptance (R42) -/

@[simp] theorem rxReady_iff {s : State} : rxReady s = true ↔ s.stage = .framing := by simp [rxReady]

@[simp] theorem cmdReady_nop (s : State) : cmdReady 0 s = true := rfl

@[simp] theorem cmdReady_loadKey {s : State} : cmdReady 1 s = true ↔ s.keyValid = false ∧ CommandReady s := by
  simp [cmdReady, and_comm]

@[simp] theorem cmdReady_start {s : State} : cmdReady 2 s = true ↔ CommandReady s := by simp [cmdReady]

@[simp] theorem cmdReady_abort (s : State) : cmdReady 3 s = true := rfl

/-! ## One clock edge (R43) -/

/-- Everything that an edge can do before its byte or timeout is looked at: the state as it was, or after `rst`; then the same,
or after an accepted command. -/
theorem atReceive_cases (p : Pins) (s : State) :
    p.atReceive s = p.atCommand s ∨
    (p.cmdValid = true ∧ p.cmdReady s = true ∧
      ((p.cmd = 1 ∧ p.atReceive s = installKey p.cmdKey (p.atCommand s)) ∨
        (p.cmd = 2 ∧ p.atReceive s = beginDecode (p.atCommand s)) ∨
        (p.cmd ≠ 0 ∧ p.cmd ≠ 1 ∧ p.cmd ≠ 2 ∧ p.atReceive s = restartAt .idle (p.atCommand s)))) := by
  unfold Pins.atReceive Pins.takeCommand
  split
  · next h =>
    rw [Bool.and_eq_true] at h
    split
    · exact .inl rfl
    · split
      · next h1 => exact .inr ⟨h.1, h.2, .inl ⟨h1, rfl⟩⟩
      · split
        · next h2 => exact .inr ⟨h.1, h.2, .inr (.inl ⟨h2, rfl⟩)⟩
        · next h0 h1 h2 => exact .inr ⟨h.1, h.2, .inr (.inr ⟨h0, h1, h2, rfl⟩)⟩
  · exact .inl rfl

@[simp] theorem atCommand_params (p : Pins) (s : State) : (p.atCommand s).params = s.params := by
  unfold Pins.atCommand; split <;> rfl

@[simp] theorem atReceive_params (p : Pins) (s : State) : (p.atReceive s).params = s.params := by
  rcases atReceive_cases p s with h | ⟨-, -, ⟨-, h⟩ | ⟨-, h⟩ | ⟨-, -, -, h⟩⟩ <;> rw [h] <;> simp

/-- An edge that answers: a byte was an event, or a timeout pulse was, or neither; in the state after `rst` and the command. -/
theorem clockEdge_eq_next {p : Pins} {s t : State} :
    clockEdge p s = .next t ↔ s.params.WellFormed ∧
      ((p.rxValid = true ∧ p.rxReady s = true ∧ receive p.rxData (p.atReceive s) = .next t) ∨
        (p.rxValid = false ∧ p.rxTimeout = true ∧ p.rxReady s = true ∧ execFrTimeout (p.atReceive s) = .next t) ∨
        ((p.rxReady s = false ∨ (p.rxValid = false ∧ p.rxTimeout = false)) ∧ t = p.atReceive s)) := by
  unfold clockEdge
  by_cases hP : s.params.WellFormed
  · rw [if_pos hP, and_iff_right hP]
    cases p.rxValid <;> cases p.rxReady s <;> cases p.rxTimeout <;> simp [eq_comm]
  · simp [hP]

end Sys2Proof.Machine
end

