-- ==== Sys2Proof/Tests/Slice0.lean ====
section
/-! SUPPORT. Tests of the model's own text. Expected values come from spec/95_test_vectors.md (the vector is named), from the
encodings of spec/30_encoding.md R90, R101 to R103, or from the examples in the rules. After them, a witness for every statement
that has hypotheses: a concrete state and operands that meet all of them together, each clause at a boundary of its range. -/

namespace Sys2Proof.Tests

open Sys2Proof.Machine Sys2Proof.Certificates

/-! ## States and frames -/

/-- A state that differs from the reset state in what selects the next operation and in `FBUF`. -/
def stateAt (stage : Stage) (fr : FrState) (len : BitVec 7) (bytes : List Byte) : State :=
  { State.reset with stage := stage, frState := fr, len := len, fbuf := Memory.ofBytes 0 bytes }

/-- Right after `START`. -/
def searching : State := stateAt .framing .searching 0 []

/-- Golden frame G1 (95_test_vectors.md section 0). -/
def g1 : List Byte := beBytes 105 <|
  0x7EA067CF022313FBF1E6E700DB0849534B056789ABCD4F2000001234632165920EB599971050B35F0A305C54 * 256 ^ 61 +
  0x3273CD616AC9078E6D6F5AC3A9A0D2D30A8FC1D452B049F1F5EC00C46FD2EC6802093183F8F7D5D08357A14D * 256 ^ 17 +
  0x2E91C8AFE0ACEC1B1086B351D73D47947E

/-- G1's bytes by frame offset. -/
def g1At (i : Nat) : Byte := g1.getD i 0

/-- The key of the golden frames. -/
def goldenKey : Block := 0x00112233445566778899AABBCCDDEEFF

/-- The tightest placement of the three regions (R7), with the least CipherText a field fits in; all fields at its start. -/
def tightP : Params := { offSt := 3, offIc := 11, offCt := 15, lenCt := 4, offFld := #v[0, 0, 0, 0, 0, 0, 0, 0] }

/-- `tightP` with one field one byte too far (R226). -/
def misfitP : Params := { tightP with offFld := #v[0, 0, 0, 0, 0, 0, 0, 1] }

/-- R7 allows `LEN_CT` up to 87. -/
def widestP : Params := { tightP with lenCt := 87 }

/-- No such instance: the CipherText reaches the CRC field. -/
def illFormedP : Params := { tightP with lenCt := 88 }

/-- What a function run by itself leaves, from the reset state. -/
def valueOf (i : Instr) : Option FnValue :=
  match exec i State.reset with
  | .next t => some t.value
  | .fault _ => none
  | .refused _ => none

/-- What a predicate says of the state that a step leaves. -/
def after (r : Res State) (p : State → Bool) : Bool :=
  match r with
  | .next t => p t
  | .fault _ => false
  | .refused _ => false

/-! ## Well-formedness: a term that each check refuses -/

theorem test_refuses_skip_of_marker : (Instr.frSkip 0x7E).wellFormed = false := by decide
theorem test_refuses_miss_of_marker : (Instr.frMiss 0x7E).wellFormed = false := by decide
theorem test_refuses_badend_of_marker : (Instr.frBadend 0x7E).wellFormed = false := by decide
theorem test_refuses_long_crc : (Instr.crc16 (List.replicate 65536 0)).wellFormed = false := by
  rw [Instr.wellFormed, List.length_replicate]; decide
theorem test_refuses_empty_keystream : (Instr.keystream 0 0 0).wellFormed = false := by decide
theorem test_refuses_long_keystream : (Instr.keystream 0 0 88).wellFormed = false := by decide
theorem test_refuses_long_xor : (Instr.ctrXor [0, 0, 0, 0, 0, 0, 0]).wellFormed = false := by decide
theorem test_refuses_far_field : (Instr.u32be 84).wellFormed = false := by decide
theorem test_refuses_short_frame : (Instr.frame (List.replicate 98 0) 0).wellFormed = false := by decide
theorem test_accepts_at_bounds : (Instr.keystream 0 0 1).wellFormed = true ∧ (Instr.keystream 0 0 87).wellFormed = true ∧
    (Instr.u32be 83).wellFormed = true ∧ (Instr.frame (List.replicate 99 0) 0).wellFormed = true := by decide
theorem test_illFormedP : ¬illFormedP.WellFormed ∧ tightP.WellFormed ∧ widestP.WellFormed ∧ Params.p0.WellFormed := by decide

/-! ## Decoding: every constructor's record written out by hand -/

/-- R103: NOP 0, LOAD_KEY 1, START 2, ABORT 3; RESET, RX_TIMEOUT by log 4. -/
theorem test_decode_host :
    decode ⟨.idle, .searching, 0⟩ [0] = .op .nop [] ∧
    decode ⟨.idle, .searching, 0⟩
      [1, 0x00, 0x11, 0x22, 0x33, 0x44, 0x55, 0x66, 0x77, 0x88, 0x99, 0xAA, 0xBB, 0xCC, 0xDD, 0xEE, 0xFF] =
        .op (.loadKey 0x00112233445566778899AABBCCDDEEFF) [] ∧
    decode ⟨.idle, .searching, 0⟩ [2, 3] = .op .start [3] ∧
    decode ⟨.framing, .searching, 0⟩ [3] = .op .abort [] ∧
    decode ⟨.framing, .searching, 0⟩ [4] = .op .reset [] ∧
    decode ⟨.framing, .searching, 0⟩ [6] = .op .frTimeout [] := by decide

/-- R101, R102: the bytes that select the FrameReader's operations, at the ends of each row's range of `LEN`. -/
theorem test_decode_rx :
    decode ⟨.framing, .searching, 0⟩ [5, 0x7E] = .op .frMark [] ∧
    decode ⟨.framing, .searching, 0⟩ [5, 0x67] = .op (.frSkip 0x67) [] ∧
    decode ⟨.framing, .matchingHeader, 1⟩ [5, 0x7E] = .op .frRemark [] ∧
    decode ⟨.framing, .matchingHeader, 1⟩ [5, 0xA0] = .op .frHdr1 [] ∧
    decode ⟨.framing, .matchingHeader, 2⟩ [5, 0x67] = .op .frHdr2 [] ∧
    decode ⟨.framing, .matchingHeader, 1⟩ [5, 0x67] = .op (.frMiss 0x67) [] ∧
    decode ⟨.framing, .readingBody, 3⟩ [5, 0xCF] = .op (.frBody 0xCF) [] ∧
    decode ⟨.framing, .readingBody, 103⟩ [5, 0x7E] = .op (.frBody 0x7E) [] ∧
    decode ⟨.framing, .readingBody, 104⟩ [5, 0x7E] = .op .frEnd [] ∧
    decode ⟨.framing, .readingBody, 104⟩ [5, 0x7F] = .op (.frBadend 0x7F) [] ∧
    decode ⟨.idle, .searching, 0⟩ [5, 0x7E] = .notAccepted [] := by decide

theorem test_decode_stages :
    decode ⟨.idle, .searching, 0⟩ [8] = .op .validate [] ∧ decode ⟨.idle, .searching, 0⟩ [9] = .op .decrypt [] ∧
    decode ⟨.idle, .searching, 0⟩ [10] = .op .deriveIv [] ∧ decode ⟨.idle, .searching, 0⟩ [11] = .op .extract [] ∧
    decode ⟨.idle, .searching, 0⟩ [12, 1] = .op (.raise .incompleteFrame) [] ∧
    decode ⟨.idle, .searching, 0⟩ [12, 4] = .op (.raise .fieldOutOfRange) [] ∧
    decode ⟨.idle, .searching, 0⟩ [13] = .op .complete [] := by decide

theorem test_decode_crc :
    decode ⟨.idle, .searching, 0⟩ [16, 0xA0] = .op (.mirror8 0xA0) [] ∧
    decode ⟨.idle, .searching, 0⟩ [17, 0xB1, 0x55, 0x67] = .op (.crc16Update 0xB155 0x67) [] ∧
    decode ⟨.idle, .searching, 0⟩ [18, 0, 2, 0xA0, 0x67, 9] = .op (.crc16 [0xA0, 0x67]) [9] := by decide

/-- The bytes 00 to 0F. -/
def ramp : List Byte := [0, 1, 2, 3, 4, 5, 6, 7, 8, 9, 10, 11, 12, 13, 14, 15]

theorem test_decode_aes :
    decode ⟨.idle, .searching, 0⟩ (19 :: ramp) = .op (.subBytes 0x000102030405060708090A0B0C0D0E0F) [] ∧
    decode ⟨.idle, .searching, 0⟩ (20 :: ramp) = .op (.shiftRows 0x000102030405060708090A0B0C0D0E0F) [] ∧
    decode ⟨.idle, .searching, 0⟩ (21 :: ramp) = .op (.mixColumns 0x000102030405060708090A0B0C0D0E0F) [] ∧
    decode ⟨.idle, .searching, 0⟩ (22 :: (ramp ++ List.replicate 16 0xFF)) =
      .op (.addRoundKey 0x000102030405060708090A0B0C0D0E0F 0xFFFFFFFFFFFFFFFFFFFFFFFFFFFFFFFF) [] ∧
    decode ⟨.idle, .searching, 0⟩ (23 :: ramp) = .op (.keyExpansion 0x000102030405060708090A0B0C0D0E0F) [] ∧
    decode ⟨.idle, .searching, 0⟩ (24 :: (ramp ++ List.replicate 16 0xFF)) =
      .op (.aes128 0x000102030405060708090A0B0C0D0E0F 0xFFFFFFFFFFFFFFFFFFFFFFFFFFFFFFFF) [] ∧
    decode ⟨.idle, .searching, 0⟩ (25 :: ramp) = .op (.inc128 0x000102030405060708090A0B0C0D0E0F) [] ∧
    decode ⟨.idle, .searching, 0⟩ (26 :: 74 :: (ramp ++ List.replicate 16 0xFF)) =
      .op (.keystream 0x000102030405060708090A0B0C0D0E0F 0xFFFFFFFFFFFFFFFFFFFFFFFFFFFFFFFF 74) [] ∧
    decode ⟨.idle, .searching, 0⟩ (27 :: 1 :: ramp) = .op (.ctrXor [0x000102030405060708090A0B0C0D0E0F]) [] := by
  decide +kernel

theorem test_decode_fields :
    decode ⟨.idle, .searching, 0⟩ [28, 35] = .op (.u32be 35) [] ∧
    decode ⟨.idle, .searching, 0⟩ [29, 0x00, 0x12, 0xD6, 0x87] = .op (.scaleEnergy 1234567) [] ∧
    decode ⟨.idle, .searching, 0⟩ [30, 0x00, 0x00, 0x05, 0xDC] = .op (.powerValue 1500) [] := by decide

/-- R90: G1 as one record; offsets 3 to 101 are its body, 47 94 its CRC field. -/
theorem test_decode_frame :
    decode ⟨.framing, .searching, 0⟩ (7 :: g1) = .op (.frame ((g1.drop 3).take 99) 0x4794) [] := by decide +kernel

theorem test_decode_rejects :
    decode ⟨.idle, .searching, 0⟩ [14] = .rejected (.unknownRecord 14) ∧
    decode ⟨.idle, .searching, 0⟩ [31] = .rejected (.unknownRecord 31) ∧
    decode ⟨.idle, .searching, 0⟩ [12, 5] = .rejected (.unknownError 5) ∧
    decode ⟨.idle, .searching, 0⟩ [1, 2, 3] = .rejected .truncated ∧
    decode ⟨.idle, .searching, 0⟩ [28, 84] = .rejected .operandOutOfRange ∧
    decode ⟨.framing, .searching, 0⟩ (7 :: List.replicate 105 0) = .rejected .notAFrame := by decide +kernel

/-- The words of spec/opcode_table.json, each run as the first operation after reset. -/
theorem test_table_words :
    decodeTableWord 8 0x7E = some .frMark ∧ decodeTableWord 8 0xA0 = some .frHdr1 ∧ decodeTableWord 8 0x67 = some .frHdr2 ∧
    decodeTableWord 8 0x00 = some (.frSkip 0) ∧ decodeTableWord 16 0 = none := by decide
/-- The row `FRAME` in R90's bit positions, 7E A0 67 in bits 839..816: every free bit 0, and a CRC field of 67 A0, whose word
reads as a frame from either end. Then, from the low bits, a word that is no frame in R90's positions. -/
theorem test_table_word_frame :
    decodeTableWord 840 (0x7EA067 <<< 816 + 0x7E) = some (.frame (List.replicate 99 0) 0) ∧
    decodeTableWord 840 (0x7EA067 <<< 816 + 0x01 <<< 808 + 0x67A07E) = some (.frame (1 :: List.replicate 98 0) 0x67A0) ∧
    decodeTableWord 840 (0x67A07E + 0x7E <<< 832) = some (.frame (List.replicate 99 0) 0) := by decide +kernel
theorem test_table_word_runs :
    after (step (State.reset.withFetchWord 8 0x67)) (fun t => t.frState == .readingBody && t.len == 3) = true := by decide

/-! ## The FrameReader, reset and the host's commands -/

/-- FR-1: 7E A0 67. -/
theorem test_fr1 : after (receiveAll [0x7E, 0xA0, 0x67] searching) (fun t =>
    t.frState == .readingBody && t.len == 3 && t.fbuf == [(0, 0x7E), (1, 0xA0), (2, 0x67)]) = true := by decide
/-- FR-3: a miss at `LEN` = 2. -/
theorem test_fr3 : after (receiveAll [0x7E, 0xA0, 0xA0, 0x67] searching) (fun t =>
    t.frState == .searching && t.len == 0 && t.fbuf == []) = true := by decide
/-- FR-5: a marker at `LEN` = 2 restarts. -/
theorem test_fr5 : after (receiveAll [0x7E, 0xA0, 0x7E, 0xA0, 0x67] searching) (fun t =>
    t.frState == .readingBody && t.len == 3) = true := by decide
/-- FR-15: a timeout in `MatchingHeader`. -/
theorem test_fr15 : after (andThen (receiveAll [0x7E, 0xA0] searching) (exec .frTimeout)) (fun t =>
    t.frState == .failed && t.len == 2 && t.stage == .complete && t.resValid && !t.resOk && errCode t.err == 1) = true := by
  decide
/-- R128's example: at `LEN` = 104 the byte 00 fails the attempt. -/
theorem test_badend : after (exec (.frBadend 0) (stateAt .framing .readingBody 104 (g1.take 104))) (fun t =>
    t.frState == .failed && t.len == 105 && t.fbuf.read? 104 == some 0 && t.results == [.err .incompleteFrame]) = true := by
  decide +kernel
/-- R241's example: `KEY[0]` = 00 and `KEY[15]` = FF; a second key changes nothing. -/
theorem test_loadKey : after (exec (.loadKey goldenKey) State.reset) (fun t =>
    t.keyValid && t.key.map (blockByte · 0) == some 0x00 && t.key.map (blockByte · 15) == some 0xFF &&
    after (exec (.loadKey 0) t) (· == t)) = true := by decide
/-- R244's example: `ABORT` in the body. -/
theorem test_abort : after (exec .abort (stateAt .framing .readingBody 60 (g1.take 60))) (fun t =>
    t.stage == .idle && t.frState == .searching && t.len == 0 && t.fbuf == []) = true := by decide +kernel
/-- R300's example: `Complete` with a key and a Reading. -/
theorem test_reset : after (exec .reset
    { stateAt .complete .done 105 g1 with key := some 1, keyValid := true, resOk := true, resValid := true }) (fun t =>
    t.stage == .idle && !t.keyValid && t.key == none && !t.resValid) = true := by decide +kernel
/-- R243: `START` in `Complete` discards the held result. -/
theorem test_start : after (exec .start { stateAt .complete .failed 3 [1, 2, 3] with resValid := true, err := some .crcMismatch })
    (fun t => t.stage == .framing && t.frState == .searching && t.len == 0 && !t.resValid && t.err == none) = true := by decide
theorem test_nop : exec .nop searching = .next searching := rfl

/-! ## The stages -/

/-- CRC-9: G1 passes with 4794. -/
theorem test_validate : after (exec .validate (stateAt .validating .done 105 g1)) (fun t =>
    t.crcCalc == some 0x4794 && t.stage == .validating) = true := by decide +kernel
/-- CRC-11: offset 103 changed to 95. -/
theorem test_validate_mismatch : after (exec .validate (stateAt .validating .done 105 (g1.set 103 0x95))) (fun t =>
    t.crcCalc == some 0x4794 && errCode t.err == 2 && t.stage == .complete) = true := by decide +kernel
/-- R171's example, G1's IV. -/
theorem test_deriveIv : after (exec .deriveIv (stateAt .decrypting .done 105 g1)) (fun t =>
    t.iv == some 0x49534B056789ABCD0000123400000002) = true := by decide +kernel
/-- P4: no key. -/
theorem test_decrypt_no_key : after (exec .decrypt (stateAt .decrypting .done 105 g1)) (fun t =>
    errCode t.err == 3 && t.iv == none && t.pt == []) = true := by decide +kernel
/-- G1's first CipherText and keystream bytes give the PlainText 0F 80 00 00. -/
theorem test_ctrXor : after (exec (.ctrXor [0x6CA165920FB99E7D1B5AB15314305CAB])
    { stateAt .decrypting .done 105 ((List.replicate 15 0) ++ g1.drop 28) with params := tightP }) (fun t =>
    t.pt == [(0, 0x0F), (1, 0x80), (2, 0x00), (3, 0x00)]) = true := by decide +kernel
/-- R226: a field one byte too far. -/
theorem test_extract_misfit : after (exec .extract { stateAt .extracting .done 105 [] with params := misfitP }) (fun t =>
    errCode t.err == 4 && t.rd == none) = true := by decide
/-- R221's example: 00 12 D6 87. -/
theorem test_extract : after (exec .extract { stateAt .extracting .done 105 [] with
    params := tightP, pt := [(0, 0x00), (1, 0x12), (2, 0xD6), (3, 0x87)] }) (fun t =>
    t.rd.map (·[7]) == some 1234567) = true := by decide
theorem test_raise : after (exec (.raise .fieldOutOfRange) (stateAt .extracting .done 105 [])) (fun t =>
    t.stage == .complete && t.resValid && !t.resOk && errCode t.err == 4 && t.results == [.err .fieldOutOfRange]) = true := by
  decide
/-- S1: 1234567 at an energy field is reported as 1234.567; at a power field as it is. -/
theorem test_complete : after (exec .complete { stateAt .extracting .done 105 [] with
    rd := some #v[1234567, 0, 0, 0, 1234567, 0, 0, 0] }) (fun t =>
    t.resOk && t.stage == .complete && t.results.map (fun r => match r with
      | .ok d => (d.activeEnergyPos, d.activePowerPos)
      | .err _ => (⟨0, 0⟩, 0)) == [(⟨1234, 567⟩, 1234567)]) = true := by decide

/-! ## The functions -/

/-- CRC-1 -/
theorem test_mirror8 : valueOf (.mirror8 0xA0) = some (.byte 0x05) ∧ valueOf (.mirror8 0x67) = some (.byte 0xE6) := by decide
/-- CRC-2, CRC-3 -/
theorem test_crc16Update : valueOf (.crc16Update 0xFFFF 0xA0) = some (.half 0xB155) ∧
    valueOf (.crc16Update 0xB155 0x67) = some (.half 0x7F12) := by decide
/-- CRC-4, CRC-7: the empty sequence, and "123456789". -/
theorem test_crc16 : valueOf (.crc16 []) = some (.half 0) ∧
    valueOf (.crc16 [0x31, 0x32, 0x33, 0x34, 0x35, 0x36, 0x37, 0x38, 0x39]) = some (.half 0x6E90) := by decide +kernel
/-- R160: the check value of CRC-16/X-25. -/
theorem test_x25 : x25 [0x31, 0x32, 0x33, 0x34, 0x35, 0x36, 0x37, 0x38, 0x39] = 0x906E := by decide +kernel
/-- AES-1, inside round 1. -/
theorem test_subBytes : valueOf (.subBytes 0x00102030405060708090A0B0C0D0E0F0) =
    some (.block 0x63CAB7040953D051CD60E0E7BA70E18C) := by decide +kernel
theorem test_shiftRows : valueOf (.shiftRows 0x63CAB7040953D051CD60E0E7BA70E18C) =
    some (.block 0x6353E08C0960E104CD70B751BACAD0E7) := by decide +kernel
theorem test_mixColumns : valueOf (.mixColumns 0x6353E08C0960E104CD70B751BACAD0E7) =
    some (.block 0x5F72641557F5BC92F7BE3B291DB9F91A) := by decide +kernel
theorem test_addRoundKey : valueOf (.addRoundKey 0x5F72641557F5BC92F7BE3B291DB9F91A 0xD6AA74FDD2AF72FADAA678F1D6AB76FE) =
    some (.block 0x89D810E8855ACE682D1843D8CB128FE4) := by decide +kernel
/-- AES-1's last round key. -/
theorem test_keyExpansion : (keyExpansion 0x000102030405060708090A0B0C0D0E0F)[10]? =
    some 0x13111D7FE3944A17F307A78B4D2B30C5 := by decide +kernel
/-- AES-1 -/
theorem test_aes128 : valueOf (.aes128 0x000102030405060708090A0B0C0D0E0F 0x00112233445566778899AABBCCDDEEFF) =
    some (.block 0x69C4E0D86A7B0430D8CDB78070B4C55A) := by decide +kernel
/-- R190's corner cases. -/
theorem test_inc128 : valueOf (.inc128 0x49534B056789ABCD00001234FFFFFFFF) =
      some (.block 0x49534B056789ABCD0000123500000000) ∧
    valueOf (.inc128 0xFFFFFFFFFFFFFFFFFFFFFFFFFFFFFFFF) = some (.block 0) := by decide
/-- G1's first keystream block. -/
theorem test_keystream : valueOf (.keystream goldenKey 0x49534B056789ABCD0000123400000002 1) =
    some (.blocks [0x6CA165920FB99E7D1B5AB15314305CAB]) := by decide +kernel
/-- R221's corner case FF FF FF FF, in the last four bytes. -/
theorem test_u32be : after (exec (.u32be 83) { State.reset with params := widestP, pt := Memory.ofBytes 83 [0xFF, 0xFF, 0xFF, 0xFF] })
    (fun t => t.value == .word 4294967295) = true := by decide
/-- R223's corner cases. -/
theorem test_scaleEnergy : valueOf (.scaleEnergy 4294967295) = some (.energy ⟨4294967, 295⟩) ∧
    valueOf (.scaleEnergy 999) = some (.energy ⟨0, 999⟩) := by decide
theorem test_powerValue : valueOf (.powerValue 1500) = some (.word 1500) := by decide

/-! ## Sound states, for the witnesses -/

theorem defined_ofBytes {bs : List Byte} {n : Nat} (h : bs.length = n) (i : Nat) :
    ((Memory.ofBytes 0 bs).read? i).isSome = decide (i < n) := by
  subst h
  rw [read?_ofBytes_zero]
  by_cases hi : i < bs.length <;> simp [hi]

theorem holds_bytes {s : State} {bs : List Byte} (h : s.fbuf = Memory.ofBytes 0 bs) {n : Nat} (hn : n ≤ bs.length) :
    HoldsFrame s n (fun i => bs.getD i 0) := by
  intro a ha
  have : a < bs.length := by omega
  simp [h, this]

theorem length_g1 : g1.length = 105 := length_beBytes _ _

/-- The state at a search's start, under any `P`, with or without the golden key. -/
def searchingWith (P : Params) (hasKey : Bool) : State :=
  { searching with params := P, keyValid := hasKey, key := if hasKey then some goldenKey else none }

theorem sound_searching (P : Params) (hasKey : Bool) : (searchingWith P hasKey).Inv := by
  refine ⟨?_, wf_nil, ?_, wf_nil, .inl rfl, rfl, ⟨.inl rfl, rfl⟩, ?_, fun _ => ⟨rfl, rfl, rfl, rfl⟩⟩
  · cases hasKey <;> rfl
  · intro i; simp [searchingWith, searching, stateAt, Memory.ofBytes, State.reset]
  · exact ⟨fun _ => ⟨rfl, rfl⟩, fun _ => rfl, fun k => absurd (show false = true from k) (by decide), rfl⟩

/-- After 7E A0. -/
def matching : State := stateAt .framing .matchingHeader 2 [0x7E, 0xA0]

theorem sound_matching : matching.Inv :=
  ⟨rfl, wf_ofBytes _ _, defined_ofBytes rfl, wf_nil, .inl rfl, ⟨rfl, .inr ⟨rfl, rfl⟩⟩, ⟨.inr (.inl rfl), rfl⟩,
    ⟨fun _ => ⟨rfl, rfl⟩, fun _ => rfl, fun k => absurd k (by decide), rfl⟩, fun _ => ⟨rfl, rfl, rfl, rfl⟩⟩

/-- Before the closing marker of G1. -/
def beforeEnd : State := stateAt .framing .readingBody 104 (g1.take 104)

theorem sound_beforeEnd : beforeEnd.Inv := by
  refine ⟨rfl, wf_ofBytes _ _, defined_ofBytes (by rw [List.length_take, length_g1]; rfl), wf_nil, .inl rfl, ?_,
    ⟨.inr (.inr rfl), rfl⟩, ⟨fun _ => ⟨rfl, rfl⟩, fun _ => rfl, fun k => absurd k (by decide), rfl⟩,
    fun _ => ⟨rfl, rfl, rfl, rfl⟩⟩
  exact ⟨by decide, by decide, by decide +kernel, by decide +kernel, by decide +kernel⟩

/-- A Reading is held. -/
def holding : State :=
  { stateAt .complete .done 105 g1 with
    key := some goldenKey, keyValid := true, resValid := true, resOk := true, rd := some #v[1, 2, 3, 4, 5, 6, 7, 8] }

theorem sound_holding : holding.Inv := by
  refine ⟨rfl, wf_ofBytes _ _, defined_ofBytes length_g1, wf_nil, .inl rfl, ?_, ⟨.inl rfl, rfl⟩, ?_, fun k => absurd rfl k⟩
  · exact ⟨rfl, ⟨by decide +kernel, by decide +kernel, by decide +kernel⟩, by decide +kernel⟩
  · exact ⟨fun k => absurd k (by decide), fun _ => rfl, fun _ k => absurd k (by decide), rfl⟩

/-- An instance that has been reset. -/
theorem sound_reset : State.reset.Inv := by
  refine ⟨rfl, wf_nil, ?_, wf_nil, .inl rfl, rfl, ⟨rfl, rfl⟩, ?_, fun _ => ⟨rfl, rfl, rfl, rfl⟩⟩
  · intro i; simp [State.reset]
  · exact ⟨fun _ => ⟨rfl, rfl⟩, fun _ => rfl, fun k => absurd k (by decide), rfl⟩

theorem sound_script {s : State} (h : s.Inv) (tape : List Byte) : ({ s with script := tape } : State).Inv := by
  obtain ⟨h1, h2, h3, h4, h5, h6, h7, h8, h9⟩ := h
  exact ⟨h1, h2, h3, h4, h5, h6, h7, h8, h9⟩

/-! ## Witnesses: every statement's hypotheses, met together -/

theorem witness_ResetEventRestoresResetState :
    exec .reset holding = .next { State.reset with params := holding.params } ∧ holding.keyValid = true ∧
      ({ State.reset with params := holding.params } : State).keyValid = false := ⟨rfl, rfl, rfl⟩

theorem witness_StartBeginsDecode : State.reset.stage = .idle ∧ holding.stage = .complete ∧
    ¬(searching.stage = .idle ∨ searching.stage = .complete) := by decide

theorem witness_LoadKeyIsWriteOnce :
    (State.reset.keyValid = false ∧ State.reset.stage = .idle) ∧
    ((stateAt .complete .failed 0 []).keyValid = false ∧ (stateAt .complete .failed 0 []).stage = .complete) ∧
    holding.keyValid = true ∧ ¬(searching.stage = .idle ∨ searching.stage = .complete) := by decide

/-- The command port with one command, and nothing else offered. -/
def commandPins (cmd : BitVec 2) : Pins :=
  { rst := false, cmdValid := true, cmd := cmd, cmdKey := goldenKey, rxValid := false, rxData := 0, rxTimeout := false }

/-- R43 and R272: with `START` at the same edge a byte is taken in `Idle`, with `rx_ready` 1. -/
theorem test_start_with_byte : (Pins.outputs ⟨false, true, 2, 0, true, 0x7E, false⟩ State.reset).rxReady = true ∧
    after (clockEdge ⟨false, true, 2, 0, true, 0x7E, false⟩ State.reset) (fun t =>
      t.stage == .framing && t.frState == .matchingHeader && t.len == 1) = true := by decide
/-- R43 and R272: with `ABORT` at the same edge `rx_ready` is 0 in `Framing`, and the byte is no event. -/
theorem test_abort_with_byte : (Pins.outputs ⟨false, true, 3, 0, true, 0x7E, false⟩ searching).rxReady = false ∧
    after (clockEdge ⟨false, true, 3, 0, true, 0x7E, false⟩ searching) (fun t => t.stage == .idle && t.len == 0) = true := by
  decide

theorem witness_CommandCodesOnThePort : ∀ cmd : BitVec 2, (commandPins cmd).cmdValid = true ∧ (commandPins cmd).rst = false ∧
    (commandPins cmd).rxValid = false ∧ (commandPins cmd).rxTimeout = false := by decide

theorem witness_SkipDiscardsByte : searching.stage = .framing ∧ searching.frState = .searching ∧ searching.len = 0 ∧
    (0x7F : Byte) ≠ 0x7E := by decide

theorem witness_MarkerRestartsAccumulation :
    (searching.stage = .framing ∧ searching.frState = .searching ∧ searching.len = 0) ∧
    (matching.stage = .framing ∧ matching.frState = .matchingHeader ∧ matching.len = 2) ∧
    ((stateAt .framing .matchingHeader 1 [0x7E]).stage = .framing ∧
      (stateAt .framing .matchingHeader 1 [0x7E]).frState = .matchingHeader ∧
      (stateAt .framing .matchingHeader 1 [0x7E]).len = 1) := by decide

theorem witness_HeaderBytesAreStored :
    ((stateAt .framing .matchingHeader 1 [0x7E]).stage = .framing ∧
      (stateAt .framing .matchingHeader 1 [0x7E]).frState = .matchingHeader ∧
      (stateAt .framing .matchingHeader 1 [0x7E]).len = 1) ∧
    (matching.stage = .framing ∧ matching.frState = .matchingHeader ∧ matching.len = 2) := by decide

theorem witness_MissGoesBackToSearching :
    ((stateAt .framing .matchingHeader 1 [0x7E]).stage = .framing ∧
      (stateAt .framing .matchingHeader 1 [0x7E]).frState = .matchingHeader ∧ (0x67 : Byte) ≠ 0x7E ∧
      (stateAt .framing .matchingHeader 1 [0x7E]).len = 1 ∧ (0x67 : Byte) ≠ 0xA0) ∧
    (matching.stage = .framing ∧ matching.frState = .matchingHeader ∧ (0xA0 : Byte) ≠ 0x7E ∧ matching.len = 2 ∧
      (0xA0 : Byte) ≠ 0x67) := by decide

theorem witness_BodyByteIsAppended :
    ∀ n : BitVec 7, n = 3 ∨ n = 103 → (stateAt .framing .readingBody n []).stage = .framing ∧
      (stateAt .framing .readingBody n []).frState = .readingBody ∧ 3 ≤ n.toNat ∧ n.toNat ≤ 103 := by decide

theorem witness_BadClosingByteIsIncompleteFrame : beforeEnd.stage = .framing ∧ beforeEnd.frState = .readingBody ∧
    beforeEnd.len = 104 ∧ (0 : Byte) ≠ 0x7E := by decide

theorem witness_TimeoutIsIncompleteFrame :
    (searching.stage = .framing ∧ searching.frState = .searching) ∧
    (matching.stage = .framing ∧ matching.frState = .matchingHeader) ∧
    (beforeEnd.stage = .framing ∧ beforeEnd.frState = .readingBody) := by decide

theorem witness_FrameReaderTransitionTable :
    (searching.Inv ∧ searching.params.WellFormed ∧ searching.stage = .framing) ∧
    (matching.Inv ∧ matching.params.WellFormed ∧ matching.stage = .framing) ∧
    (beforeEnd.Inv ∧ beforeEnd.params.WellFormed ∧ beforeEnd.stage = .framing) ∧
    (holding.Inv ∧ holding.params.WellFormed ∧ holding.frState = .done ∧ holding.stage ≠ .framing) ∧
    (State.reset.Inv ∧ State.reset.params.WellFormed ∧ State.reset.stage ≠ .framing) ∧
    (Instr.frBody 0x7E).rxOp = some (0x7E, .body 0x7E) ∧
    (Instr.loadKey 0).rxOp = none ∧ (∃ t, exec (.loadKey 0) State.reset = .next t) ∧
    Instr.loadKey 0 ≠ .frTimeout ∧ Instr.loadKey 0 ≠ .start ∧ Instr.loadKey 0 ≠ .abort ∧ Instr.loadKey 0 ≠ .reset ∧
    (∀ body crc, Instr.loadKey 0 ≠ .frame body crc) :=
  ⟨⟨sound_searching _ false, by decide, rfl⟩, ⟨sound_matching, by decide, rfl⟩, ⟨sound_beforeEnd, by decide, rfl⟩,
    ⟨sound_holding, by decide, rfl, by decide⟩, ⟨sound_reset, by decide, by decide⟩, rfl, rfl, ⟨_, rfl⟩, by decide, by decide,
    by decide, by decide, fun _ _ h => Instr.noConfusion h⟩

theorem witness_UnacceptedEventsChangeNothing :
    (beforeEnd.Inv ∧ beforeEnd.params.WellFormed ∧ beforeEnd.stage = .framing) ∧
    (({ holding with script := [5, 0x7E] } : State).Inv ∧ holding.params.WellFormed ∧ holding.stage ≠ .framing) ∧
    (({ State.reset with script := encode .frTimeout ++ [] } : State).Inv ∧ State.reset.stage ≠ .framing) ∧
    (({ matching with script := encode .start ++ [2] } : State).Inv ∧ matching.stage = .framing) ∧
    (({ matching with script := encode (.loadKey 1) ++ [] } : State).Inv ∧ matching.stage = .framing) ∧
    (({ holding with script := encode (.loadKey 1) ++ [] } : State).Inv ∧ holding.keyValid = true) :=
  ⟨⟨sound_beforeEnd, by decide, rfl⟩, ⟨sound_script sound_holding _, by decide, by decide⟩,
    ⟨sound_script sound_reset _, by decide⟩, ⟨sound_script sound_matching _, rfl⟩, ⟨sound_script sound_matching _, rfl⟩,
    ⟨sound_script sound_holding _, rfl⟩⟩

/-- G1 delimited, in a stage after `Framing`. -/
def delimited (stage : Stage) : State := stateAt stage .done 105 g1

theorem holds_delimited (stage : Stage) {n : Nat} (hn : n ≤ 105) : HoldsFrame (delimited stage) n g1At :=
  holds_bytes rfl (by rw [length_g1]; exact hn)

/-- The checksummed bytes and the CRC field of G1, as in spec/95_test_vectors.md. -/
theorem crc_g1 : frameCrc g1At = 0x4794 ∧ frameCrcField g1At = 0x4794 := by decide +kernel

theorem witness_ValidateComparesChecksum :
    ((delimited .validating).stage = .validating ∧ HoldsFrame (delimited .validating) 104 g1At ∧
      crc16 ((List.range 101).map fun j => g1At (1 + j)) = g1At 102 ++ g1At 103) ∧
    ((stateAt .validating .done 105 (g1.set 103 0x95)).stage = .validating ∧
      HoldsFrame (stateAt .validating .done 105 (g1.set 103 0x95)) 104 (fun i => (g1.set 103 0x95).getD i 0) ∧
      crc16 ((List.range 101).map fun j => (g1.set 103 0x95).getD (1 + j) 0) ≠
        (g1.set 103 0x95).getD 102 0 ++ (g1.set 103 0x95).getD 103 0) :=
  ⟨⟨rfl, holds_delimited _ (by decide), crc_g1.1.trans crc_g1.2.symm⟩,
    ⟨rfl, holds_bytes rfl (by rw [List.length_set, length_g1]; decide), by decide +kernel⟩⟩

theorem witness_DeriveIvConcatenatesFields : (delimited .decrypting).stage = .decrypting ∧
    (delimited .decrypting).params.WellFormed ∧ HoldsFrame (delimited .decrypting) 102 g1At :=
  ⟨rfl, by decide, holds_delimited _ (by decide)⟩

theorem witness_IvIsInjectiveInItsFields : frameIv tightP g1At = frameIv tightP fun i => if i < 15 then g1At i else 0 := by
  decide +kernel

/-- `P0` needs 74 keystream bytes: 5 blocks do, and so do exactly as many bytes as the CipherText has (`LEN_CT` = 16). -/
theorem witness_CtrXorWritesPlainText :
    ((delimited .decrypting).stage = .decrypting ∧ (delimited .decrypting).params.WellFormed ∧
      HoldsFrame (delimited .decrypting) 102 g1At ∧
      (delimited .decrypting).params.lenCt ≤ 16 * [(1 : Block), 2, 3, 4, 5].length) ∧
    (({ tightP with lenCt := 16 } : Params).WellFormed ∧ ({ tightP with lenCt := 16 } : Params).lenCt ≤ 16 * [(1 : Block)].length) :=
  ⟨⟨rfl, by decide, holds_delimited _ (by decide), by decide⟩, by decide⟩

theorem witness_DecryptNeedsAKey :
    ((delimited .decrypting).stage = .decrypting ∧ (delimited .decrypting).params.WellFormed ∧
      HoldsFrame (delimited .decrypting) 102 g1At ∧ (delimited .decrypting).keyValid = false) ∧
    (({ delimited .decrypting with key := some goldenKey, keyValid := true } : State).stage = .decrypting ∧
      HoldsFrame { delimited .decrypting with key := some goldenKey, keyValid := true } 102 g1At ∧
      ({ delimited .decrypting with key := some goldenKey, keyValid := true } : State).key = some goldenKey) :=
  ⟨⟨rfl, by decide, holds_delimited _ (by decide), rfl⟩, rfl, holds_delimited .decrypting (by decide), rfl⟩

/-- A PlainText of four bytes. -/
def plain (P : Params) : State := { stateAt .extracting .done 105 [] with params := P, pt := Memory.ofBytes 0 [1, 2, 3, 4] }

theorem witness_ExtractReadsEightFields :
    ((plain misfitP).stage = .extracting ∧ misfitP.WellFormed ∧
      (∀ j, j < misfitP.lenCt → (plain misfitP).pt.read? j = some (BitVec.ofNat 8 (j + 1))) ∧
      misfitP.offFld[(7 : Fin 8)] + 4 > misfitP.lenCt) ∧
    ((plain tightP).stage = .extracting ∧ tightP.WellFormed ∧
      (∀ j, j < tightP.lenCt → (plain tightP).pt.read? j = some (BitVec.ofNat 8 (j + 1))) ∧
      ∀ k : Fin 8, tightP.offFld[k] + 4 ≤ tightP.lenCt) := by decide

theorem witness_RaiseWritesFourElements :
    ((stateAt .framing .failed 3 []).stage = raisedIn .incompleteFrame ∧ (stateAt .framing .failed 3 []).frState = .failed) ∧
    (delimited .validating).stage = raisedIn .crcMismatch ∧ (delimited .decrypting).stage = raisedIn .decryptionFailure ∧
    (delimited .extracting).stage = raisedIn .fieldOutOfRange := by decide

theorem witness_CompleteHoldsTheReading :
    ({ delimited .extracting with rd := some #v[0, 999, 1000, 4294967295, 0, 7, 8, 9] } : State).stage = .extracting ∧
    ({ delimited .extracting with rd := some #v[0, 999, 1000, 4294967295, 0, 7, 8, 9] } : State).rd =
      some #v[0, 999, 1000, 4294967295, 0, 7, 8, 9] := by decide

/-- `beforeEnd` under a `P`, with or without a key. -/
def beforeEndWith (P : Params) (hasKey : Bool) : State :=
  { beforeEnd with params := P, keyValid := hasKey, key := if hasKey then some goldenKey else none }

theorem holds_beforeEnd (P : Params) (hasKey : Bool) : HoldsFrame (beforeEndWith P hasKey) 104 g1At := by
  intro a ha
  have h := holds_bytes (s := beforeEndWith P hasKey) (bs := g1.take 104) rfl (n := 104)
    (by rw [List.length_take, length_g1]; decide) a ha
  rw [h]
  simp [g1At, ha]

/-- `beforeEnd` with one byte of the CRC field changed. -/
def wrongField : State := stateAt .framing .readingBody 104 ((g1.set 103 0x95).take 104)

/-- For a key and a fit, for a misfit, and without a key; and, for the wrong checksum, G1 with one byte of its field changed. -/
theorem witness_FrameEndReportsFirstError :
    (∀ P hasKey, (beforeEndWith P hasKey).stage = .framing ∧ (beforeEndWith P hasKey).frState = .readingBody ∧
      (beforeEndWith P hasKey).len = 104 ∧ (beforeEndWith P hasKey).key.isSome = (beforeEndWith P hasKey).keyValid ∧
      HoldsFrame (beforeEndWith P hasKey) 104 g1At ∧ frameCrc g1At = frameCrcField g1At) ∧
    Params.p0.WellFormed ∧ Params.p0.FieldsFit ∧ tightP.WellFormed ∧ tightP.FieldsFit ∧ misfitP.WellFormed ∧
    ¬misfitP.FieldsFit ∧
    (wrongField.stage = .framing ∧ wrongField.frState = .readingBody ∧ wrongField.len = 104 ∧
      wrongField.params.WellFormed ∧ wrongField.key.isSome = wrongField.keyValid ∧
      HoldsFrame wrongField 104 (fun i => ((g1.set 103 0x95).take 104).getD i 0) ∧
      (frameCrc fun i => ((g1.set 103 0x95).take 104).getD i 0) ≠
        (frameCrcField fun i => ((g1.set 103 0x95).take 104).getD i 0)) := by
  refine ⟨fun P hasKey => ⟨rfl, rfl, rfl, ?_, holds_beforeEnd P hasKey, crc_g1.1.trans crc_g1.2.symm⟩, by decide, by decide,
    by decide, by decide, by decide, by decide, rfl, rfl, rfl, by decide, rfl, holds_bytes rfl ?_, by decide +kernel⟩
  · cases hasKey <;> rfl
  · rw [List.length_take, List.length_set, length_g1]; decide

/-- Garbage that ends in part of a header (R133). -/
def garbage : List Byte := [0x00, 0xA0, 0x67, 0x7E, 0xA0]

theorem witness_ValidFrameDecodesToItsFields :
    (searchingWith tightP true).Inv ∧ tightP.WellFormed ∧ tightP.FieldsFit ∧ (searchingWith tightP true).stage = .framing ∧
    (searchingWith tightP true).frState = .searching ∧ (searchingWith tightP true).keyValid = true ∧
    (searchingWith tightP true).key = some goldenKey ∧ ((g1.drop 3).take 99).length = 99 ∧
    (∀ p, p < garbage.length →
      ((garbage ++ frameBytes ((g1.drop 3).take 99) 0x4794).drop p).take 3 ≠ [0x7E, 0xA0, 0x67]) ∧
    (0x4794 : Half) = crc16 (0xA0 :: 0x67 :: (g1.drop 3).take 99) :=
  ⟨sound_searching _ _, by decide, by decide, rfl, rfl, rfl, rfl, by decide +kernel, by decide +kernel, by decide +kernel⟩

/-- Whether a run ends with a Reading. -/
def endsOk (r : Res State) : Bool := after r fun t => t.resOk

theorem endsOk_iff {r : Res State} (h : endsOk r = true) : ∃ t, r = .next t ∧ t.resOk = true := by
  cases r with
  | next t => exact ⟨t, rfl, h⟩
  | fault f => cases h
  | refused q => cases h

theorem witness_OkMeansAValidFrame : ∃ t, (searchingWith tightP true).Inv ∧ tightP.WellFormed ∧
    (searchingWith tightP true).stage = .framing ∧ (searchingWith tightP true).frState = .searching ∧
    receiveAll (garbage ++ g1 ++ [0x7E]) (searchingWith tightP true) = .next t ∧ t.resOk = true := by
  obtain ⟨t, h1, h2⟩ := endsOk_iff
    (show endsOk (receiveAll (garbage ++ g1 ++ [0x7E]) (searchingWith tightP true)) = true by decide +kernel)
  exact ⟨t, sound_searching _ _, by decide, rfl, rfl, h1, h2⟩

theorem witness_AttemptLocksOnFirstHeader : searching.Inv ∧ searching.params.WellFormed ∧ searching.stage = .framing ∧
    searching.frState = .searching ∧ (List.replicate 101 (0x7E : Byte)).length = 101 ∧
    ∀ p, p < garbage.length → ((garbage ++ [0x7E, 0xA0, 0x67]).drop p).take 3 ≠ [0x7E, 0xA0, 0x67] :=
  ⟨sound_searching _ false, by decide, rfl, rfl, by decide, by decide⟩

theorem witness_FrameIsItsBytesStepByStep : searching.params.WellFormed := by decide

theorem witness_FrameOfferedWholeCompletes : searching.Inv ∧ searching.params.WellFormed ∧ searching.stage = .framing ∧
    searching.frState = .searching ∧ ((g1.drop 3).take 99).length = 99 :=
  ⟨sound_searching _ false, by decide, rfl, rfl, by decide +kernel⟩

theorem witness_SingleByteChangeChangesCrc : (0x00 : Byte) ≠ 0x01 ∧ (0x00 : Byte) ≠ 0x80 := by decide

theorem witness_RoundStepsOnEachByte : ∀ r c : Fin 4, (r : Nat) < 4 ∧ (c : Nat) < 4 := by decide

theorem witness_CounterIncrementsWithoutCarry : widestP.WellFormed ∧ 5 < (widestP.lenCt + 15) / 16 ∧ tightP.WellFormed ∧
    0 < (tightP.lenCt + 15) / 16 := by decide

theorem witness_CtrIsItsOwnInverse : [(0x11 : Byte), 0x22][0]? = some 0x11 ∧ [(0x11 : Byte), 0x22][1]? = some 0x22 := by decide

theorem witness_FieldIsBigEndian : (plain tightP).params.WellFormed ∧ 0 + 4 ≤ (plain tightP).params.lenCt ∧
    ∀ j, j < (plain tightP).params.lenCt → (plain tightP).pt.read? j = some (BitVec.ofNat 8 (j + 1)) := by decide

theorem witness_UndefinedReadsFault :
    (0 < 105 ∧ Memory.read? [] 0 = none ∧ 104 < 105 ∧ Memory.read? [] 104 = none ∧ 105 ≤ 105) ∧
    ((stateAt .validating .done 105 []).stage = .validating ∧ (stateAt .validating .done 105 []).fbuf = []) ∧
    ((stateAt .decrypting .done 105 []).stage = .decrypting ∧ (stateAt .decrypting .done 105 []).params.WellFormed ∧
      (stateAt .decrypting .done 105 []).fbuf = []) ∧
    ((stateAt .extracting .done 105 []).stage = .extracting ∧ (stateAt .extracting .done 105 []).rd = none) ∧
    (State.reset.params.WellFormed ∧ 0 < State.reset.params.lenCt ∧ 73 < State.reset.params.lenCt ∧ State.reset.pt = []) ∧
    ((delimited .decrypting).stage = .decrypting ∧ (delimited .decrypting).params.WellFormed ∧
      HoldsFrame (delimited .decrypting) 102 g1At ∧ 16 * ([] : List Block).length < (delimited .decrypting).params.lenCt ∧
      16 * (List.replicate 4 (0 : Block)).length < (delimited .decrypting).params.lenCt) :=
  ⟨by decide, by decide, by decide, by decide, by decide, rfl, by decide, holds_delimited _ (by decide), by decide, by decide⟩

theorem witness_IllFormedParametersAreRefused :
    ¬({ State.reset with params := illFormedP } : State).params.WellFormed ∧
    ({ delimited .decrypting with params := illFormedP } : State).stage = .decrypting ∧
    ({ delimited .extracting with params := illFormedP } : State).stage = .extracting :=
  ⟨by decide, rfl, rfl⟩

theorem witness_DecodeOfEncode : (Instr.frBody 0x7E).wellFormed = true ∧
    (⟨.framing, .readingBody, 103⟩ : Context).admits (.frBody 0x7E) ∧ (Instr.keystream 0 0 87).wellFormed = true ∧
    (⟨.idle, .searching, 0⟩ : Context).admits (.keystream 0 0 87) := ⟨rfl, (show selectRx _ _ = _ by decide), rfl, trivial⟩

theorem witness_DecodedOperationsAreCanonical :
    decode ⟨.framing, .readingBody, 103⟩ [5, 0x7E, 9] = .op (.frBody 0x7E) [9] := by decide

theorem witness_StepRunsTheDecodedOperation :
    (({ matching with script := [5, 0x67, 9] } : State).params.WellFormed ∧
      decode ({ matching with script := [5, 0x67, 9] } : State).context [5, 0x67, 9] = .op .frHdr2 [9]) ∧
    (matching.params.WellFormed ∧ matching.script = []) := by decide

theorem witness_EveryStepKeepsTheStateSound : ∃ t, ({ matching with script := [5, 0x67] } : State).Inv ∧
    step { matching with script := [5, 0x67] } = .next t ∧ t.frState = .readingBody :=
  ⟨_, sound_script sound_matching _, rfl, rfl⟩

theorem witness_SoundStatesNeverFault : ({ beforeEnd with script := [5, 0x7E] } : State).Inv ∧
    beforeEnd.params.WellFormed ∧ fetch { beforeEnd with script := [5, 0x7E] } = .op .frEnd [] ∧ ∀ o, Instr.frEnd ≠ .u32be o :=
  ⟨sound_script sound_beforeEnd _, by decide, by decide, fun _ h => by cases h⟩

theorem witness_KeyIsConstantUntilReset : ∃ t, holding.keyValid = true ∧ step { holding with script := [2] } = .next t ∧
    ∀ rest, fetch { holding with script := [2] } ≠ .op .reset rest :=
  ⟨_, rfl, rfl, fun _ h => by cases h⟩

theorem witness_ParametersAreNeverWritten : ∃ t, exec .start holding = .next t := ⟨_, rfl⟩

theorem witness_OneResultPerDecode :
    (∃ t, ({ matching with script := [6] } : State).Inv ∧ step { matching with script := [6] } = .next t ∧
      matching.stage = .framing ∧ t.stage = .complete ∧ t.results = [.err .incompleteFrame]) ∧
    (∃ t, ({ State.reset with script := [2] } : State).Inv ∧ step { State.reset with script := [2] } = .next t ∧
      State.reset.stage ≠ .framing ∧ t.stage = .framing) :=
  ⟨⟨_, sound_script sound_matching _, rfl, rfl, rfl, rfl⟩, ⟨_, sound_script sound_reset _, rfl, by decide, rfl⟩⟩

theorem witness_OnlyFramingErrorsWithAKeyAndFit : ∃ t, ({ searchingWith Params.p0 true with script := [6] } : State).Inv ∧
    Params.p0.FieldsFit ∧ (searchingWith Params.p0 true).keyValid = true ∧
    step { searchingWith Params.p0 true with script := [6] } = .next t ∧ (searchingWith Params.p0 true).err = none ∧
    t.err = some .incompleteFrame :=
  ⟨_, sound_script (sound_searching _ _) _, by decide, rfl, rfl, rfl, rfl⟩

theorem witness_OutputsShowOnlyTheHeldReading : (holding.Inv ∧ holding.resValid = true ∧ holding.resOk = true ∧
    holding.rd = some #v[1, 2, 3, 4, 5, 6, 7, 8]) ∧ State.reset.Inv ∧ State.reset.resValid = false :=
  ⟨⟨sound_holding, rfl, rfl, rfl⟩, sound_reset, rfl⟩

theorem witness_SimultaneousEventsAreSerialised : searching.params.WellFormed ∧
    (Offers.records { reset := false, abort := true, command := none, rx := some 0x7E, timeout := true }).length = 3 ∧
    (Pins.offers ⟨false, false, 0, 0, true, 0x7E, true⟩).rx.isSome = true ∧
    -- a timeout pulse taken; one dropped in `Idle`; one that meets a byte
    ((Pins.outputs ⟨false, false, 0, 0, false, 0, true⟩ searching).rxReady = true ∧
      after (clockEdge ⟨false, false, 0, 0, false, 0, true⟩ searching) (fun t =>
        t.frState == .failed && t.stage == .complete && t.err == some .incompleteFrame) = true) ∧
    ((Pins.outputs ⟨false, false, 0, 0, false, 0, true⟩ State.reset).rxReady = false ∧
      after (clockEdge ⟨false, false, 0, 0, false, 0, true⟩ State.reset) (· == State.reset) = true) ∧
    after (clockEdge ⟨false, false, 0, 0, true, 0x7E, true⟩ searching) (fun t => t.frState == .matchingHeader) = true := by
  decide

theorem witness_KeyScheduleFollowsRecurrence : ∀ i, i = 4 ∨ i = 40 → 4 ≤ i ∧ i < 44 ∧ i % 4 = 0 := by
  rintro i (rfl | rfl) <;> decide

theorem witness_MixColumnsMixesEachColumn : 0 < 4 ∧ 3 < 4 := by decide

theorem witness_Mirror8ReversesBits : 0 < 8 ∧ 7 < 8 := by decide

theorem witness_KeystreamEncryptsCounterBlocks : 0 < (1 + 15) / 16 ∧ 5 < (87 + 15) / 16 := by decide

theorem witness_AesRunsTenRounds : 0 < 9 ∧ 8 < 9 := by decide

theorem witness_SboxTableIsAlgebraic : (0 : Byte) = 0 ∧ (0x53 : Byte) ≠ 0 := by decide

end Sys2Proof.Tests
end

section
/-! Proofs of the statements about spec/00_scope.md. First what stops an operation (R7, R12), then what keeps a sound
state sound, then that a sound state has every operand defined that an event reads. -/

namespace Sys2Proof.Machine

/-! ## Where reads stop (R12, U1) -/

theorem readByte_undefined {sp : Space} {size : Nat} {m : Memory} {i : Nat} (hi : i < size) (h : m.read? i = none) :
    readByte sp size m i = .fault (.undefinedRead sp i) := by
  rw [readByte, if_pos hi, h]

theorem readByte_outside {sp : Space} {size : Nat} {m : Memory} {i : Nat} (hi : size ≤ i) :
    readByte sp size m i = .fault (.noSuchOffset sp i) :=
  if_neg (Nat.not_lt.mpr hi)

/-- A range read stops at its first byte as the read of that byte does. -/
theorem readBytes_fault {sp : Space} {size : Nat} {m : Memory} {i n : Nat} {f : Fault} (hn : 0 < n)
    (h : readByte sp size m i = .fault f) : readBytes sp size m i n = .fault f := by
  cases n with
  | zero => cases hn
  | succ n => rw [readBytes, h, andThen_fault]

theorem readBytes_empty {sp : Space} {size i n : Nat} (hn : 0 < n) (hi : i < size) :
    readBytes sp size [] i n = .fault (.undefinedRead sp i) :=
  readBytes_fault hn (readByte_undefined hi (read?_nil i))

/-- A keystream with fewer bytes than the CipherText has none at its own length (R193). -/
theorem runCtrXor_short {s : State} {F : Nat → Byte} {ks : List Block} (hP : s.params.WellFormed) (h : HoldsFrame s 102 F)
    (hk : 16 * ks.length < s.params.lenCt) :
    runCtrXor ks s = .fault (.noSuchOffset .keystream (16 * ks.length)) := by
  have ⟨_, _, _, _, _, _, hct, _⟩ := hP
  have hread := readBytes_next (sp := .fbuf) (size := Config.frameLen) (m := s.fbuf) (f := F) (i := s.params.offCt)
    (n := s.params.lenCt) (by simp only [Config.frameLen]; omega) (fun j _ hj => h j (by omega))
  rw [runCtrXor, config_next hP, andThen_next, cipherText, readFbuf, hread, andThen_next, if_neg (Nat.not_le.mpr hk)]

/-! ## Ill-formed parameters (R7, D4) -/

theorem config_refused {s : State} (h : ¬s.params.WellFormed) : config s = .refused .illFormedParams := if_neg h

theorem step_refused {s : State} (h : ¬s.params.WellFormed) : step s = .refused .illFormedParams := if_neg h

/-! ## One step -/

theorem step_op {s : State} {i : Instr} {rest : List Byte} (hP : s.params.WellFormed) (h : fetch s = .op i rest) :
    step s = exec i { s with script := rest } := by
  rw [step, if_pos hP, h]

theorem step_idle {s : State} (hP : s.params.WellFormed) (h : fetch s = .idle) : step s = .next s := by
  rw [step, if_pos hP, h]

theorem fetch_empty {s : State} (h : s.script = []) : fetch s = .idle := by
  rw [fetch, h, decode]

/-! ## The parts of a sound state -/

/-- The part of `State.Inv` that speaks of the FrameReader: `FR_STATE`, `LEN` and `FBUF` (R22, R27). -/
structure ReaderSound (s : State) : Prop where
  canonical : s.fbuf.wf
  defined : ∀ i, (s.fbuf.read? i).isSome = decide (i < s.len.toNat)
  sound : FrameReaderSound s

/-- What holds of a decode whose frame has ended, before its outcome is reported: the parts of `State.Inv` that do not
speak of the stage or the result. -/
structure DecodeEnded (s : State) : Prop where
  key_defined : s.key.isSome = s.keyValid
  reader : ReaderSound s
  ended : s.frState = .done ∨ s.frState = .failed
  pt_canonical : s.pt.wf
  pt_defined : s.pt = [] ∨ ∀ i, (s.pt.read? i).isSome = decide (i < s.params.lenCt)

theorem State.Inv.reader {s : State} (h : s.Inv) : ReaderSound s :=
  ⟨h.fbuf_canonical, h.fbuf_defined, h.frame_reader⟩

/-- In `Framing` the FrameReader is active and every result is undefined or cleared (R29, R30, R34). -/
theorem State.Inv.framing {s : State} (h : s.Inv) (hf : s.stage = .framing) :
    (s.frState = .searching ∨ s.frState = .matchingHeader ∨ s.frState = .readingBody) ∧
      s.resValid = false ∧ s.pt = [] ∧ s.rd = none := by
  have hst := h.stage_sound
  rw [StageSound, hf] at hst
  obtain ⟨hfr, hv⟩ := hst
  obtain ⟨-, -, hpt, hrd⟩ := h.transients_undefined (by rw [hf]; decide)
  exact ⟨hfr, hv, hpt, hrd⟩

theorem ReaderSound.nil {s : State} (hm : s.fbuf = []) (hl : s.len = 0) (hf : s.frState = .searching) : ReaderSound s where
  canonical := by rw [hm]; exact wf_nil
  defined i := by rw [hm, hl]; simp
  sound := by rw [FrameReaderSound, hf]; exact hl

/-- A byte stored at `LEN` with `LEN` raised by one keeps `FBUF` defined exactly below `LEN` (R22). -/
theorem defined_write {m : Memory} {n : Nat} (h : ∀ i, (m.read? i).isSome = decide (i < n)) (b : Byte) (i : Nat) :
    ((m.write n b).read? i).isSome = decide (i < n + 1) := by
  rw [read?_write]
  split
  · next hi => simp [hi]
  · next hi => rw [h, decide_eq_decide]; omega

/-! ## Updates that keep a state sound -/

theorem State.Inv.withScript {s : State} (h : s.Inv) (tape : List Byte) : ({ s with script := tape } : State).Inv :=
  { h with }

theorem State.Inv.withValue {s : State} (h : s.Inv) (v : FnValue) : ({ s with value := v } : State).Inv :=
  { h with }

/-- `LOAD_KEY` defines `KEY` and sets `KEY_VALID` together (R21, R241). -/
theorem State.Inv.installKey {s : State} (h : s.Inv) (k : Block) : (installKey k s).Inv :=
  { h with key_defined := rfl }

/-- Where `RESET`, `ABORT` and `START` leave the core is sound whatever the state before it (R34, R243, R244, R300). -/
theorem restartAt_sound {s : State} {g : Stage} (hk : s.key.isSome = s.keyValid) (hg : g = .idle ∨ g = .framing) :
    (restartAt g s).Inv := by
  have hr : ReaderSound (restartAt g s) := .nil rfl rfl rfl
  exact {
    key_defined := hk
    fbuf_canonical := hr.canonical
    fbuf_defined := hr.defined
    pt_canonical := wf_nil
    pt_defined := .inl rfl
    frame_reader := hr.sound
    stage_sound := by rcases hg with rfl | rfl <;> simp [StageSound]
    result_sound := by simp [ResultSound]
    transients_undefined := fun _ => ⟨rfl, rfl, rfl, rfl⟩ }

/-- In `Framing` only the FrameReader moves: a sound, active FrameReader makes the state sound (R27, R29). -/
theorem State.Inv.moveReader {s : State} (h : s.Inv) (hf : s.stage = .framing) {m : Memory} {n : BitVec 7} {f : FrState}
    (hr : ReaderSound { s with fbuf := m, len := n, frState := f })
    (ha : f = .searching ∨ f = .matchingHeader ∨ f = .readingBody) :
    ({ s with fbuf := m, len := n, frState := f } : State).Inv where
  key_defined := h.key_defined
  fbuf_canonical := hr.canonical
  fbuf_defined := hr.defined
  pt_canonical := h.pt_canonical
  pt_defined := h.pt_defined
  frame_reader := hr.sound
  stage_sound := by
    obtain ⟨-, hv, -⟩ := h.framing hf
    simp only [StageSound, hf]
    exact ⟨ha, hv⟩
  result_sound := h.result_sound
  transients_undefined := h.transients_undefined

/-- A frame that ends in `Framing` leaves a decode without PlainText and without a Reading. -/
theorem State.Inv.endReader {s : State} (h : s.Inv) {m : Memory} {n : BitVec 7} {f : FrState}
    (hr : ReaderSound { s with fbuf := m, len := n, frState := f }) (he : f = .done ∨ f = .failed) :
    DecodeEnded { s with fbuf := m, len := n, frState := f } :=
  ⟨h.key_defined, hr, he, h.pt_canonical, h.pt_defined⟩

/-- `raise` after the frame's end, with no Reading held, leaves a sound state (R266). -/
theorem raiseError_sound {s : State} (h : DecodeEnded s) (hrd : s.rd = none) (e : DecodeError) : (raiseError e s).Inv where
  key_defined := h.key_defined
  fbuf_canonical := h.reader.canonical
  fbuf_defined := h.reader.defined
  pt_canonical := h.pt_canonical
  pt_defined := h.pt_defined
  frame_reader := h.reader.sound
  stage_sound := ⟨h.ended, rfl⟩
  result_sound := by simp [ResultSound, hrd]
  transients_undefined hc := absurd rfl hc

/-- Completion with a Reading leaves a sound state (R249). -/
theorem completeOk_sound {s : State} (h : DecodeEnded s) (rd : Vector Word 8) :
    (completeOk rd { s with rd := some rd }).Inv where
  key_defined := h.key_defined
  fbuf_canonical := h.reader.canonical
  fbuf_defined := h.reader.defined
  pt_canonical := h.pt_canonical
  pt_defined := h.pt_defined
  frame_reader := h.reader.sound
  stage_sound := ⟨h.ended, rfl⟩
  result_sound := by simp [ResultSound]
  transients_undefined hc := absurd rfl hc

/-- `CRC_CALC` is no part of what holds of an ended decode. -/
theorem DecodeEnded.withCrc {s : State} (h : DecodeEnded s) (c : Half) : DecodeEnded { s with crcCalc := some c } :=
  ⟨h.key_defined, ⟨h.reader.canonical, h.reader.defined, h.reader.sound⟩, h.ended, h.pt_canonical, h.pt_defined⟩

/-- A PlainText of `LEN_CT` bytes is wholly defined (R23). -/
theorem DecodeEnded.withPlain {s : State} (h : DecodeEnded s) (iv : Block) {bs : List Byte}
    (hbs : bs.length = s.params.lenCt) : DecodeEnded { s with iv := some iv, pt := Memory.ofBytes 0 bs } where
  key_defined := h.key_defined
  reader := ⟨h.reader.canonical, h.reader.defined, h.reader.sound⟩
  ended := h.ended
  pt_canonical := wf_ofBytes bs 0
  pt_defined := .inr fun i => by
    rw [read?_ofBytes_zero, ← hbs, Bool.eq_iff_iff]
    simp

/-- However the stages after the frame end, they leave a sound state (R246). -/
theorem runBackEnd_sound {s t : State} (h : DecodeEnded s) (hrd : s.rd = none) (hb : runBackEnd s = .next t) : t.Inv := by
  obtain ⟨c, rfl | ⟨-, rfl⟩ | ⟨-, iv, bs, hbs, ⟨-, rfl⟩ | ⟨-, rd, rfl⟩⟩⟩ := runBackEnd_eq_next hb
  · exact raiseError_sound (h.withCrc c) hrd _
  · exact raiseError_sound (h.withCrc c) hrd _
  · exact raiseError_sound ((h.withCrc c).withPlain iv hbs) hrd _
  · exact completeOk_sound ((h.withCrc c).withPlain iv hbs) rd

/-! ## The FrameReader's arcs (R131) -/

theorem startAccumulation_reader (s : State) : ReaderSound (startAccumulation s) where
  canonical := by simp [Memory.wf]
  defined i := by
    simp only [startAccumulation_fbuf, startAccumulation_len, read?_cons, read?_nil]
    split <;> simp <;> omega
  sound := ⟨by simp, .inl rfl⟩

/-- `LEN` = 1 and A0: the second header byte is stored (R123). -/
theorem ReaderSound.storeHdr1 {s : State} (h : ReaderSound s) (hl : s.len = 1) (hf : s.frState = .matchingHeader) :
    ReaderSound { s with fbuf := s.fbuf.write 1 Config.hdr1, len := 2 } := by
  have hd := h.defined
  have hs := h.sound
  rw [hl] at hd
  rw [FrameReaderSound, hf] at hs
  refine ⟨wf_write h.canonical _ _, defined_write hd _, ?_⟩
  simp only [FrameReaderSound, hf]
  exact ⟨by rw [read?_write_other _ _ (by decide)]; exact hs.1, .inr ⟨trivial, read?_write_same _ _ _⟩⟩

/-- `LEN` = 2 and 67: the header is complete (R124). -/
theorem ReaderSound.storeHdr2 {s : State} (h : ReaderSound s) (hl : s.len = 2) (hf : s.frState = .matchingHeader) :
    ReaderSound { s with fbuf := s.fbuf.write 2 Config.hdr2, len := 3, frState := .readingBody } := by
  have hd := h.defined
  have hs := h.sound
  rw [hl] at hd
  simp only [FrameReaderSound, hf, hl] at hs
  obtain ⟨h0, h1 | ⟨-, h1⟩⟩ := hs
  · exact absurd h1 (by decide)
  · refine ⟨wf_write h.canonical _ _, defined_write hd _, Nat.le_refl 3, (by decide : 3 ≤ 104), ?_, ?_, ?_⟩
    · rw [read?_write_other _ _ (by decide)]; exact h0
    · rw [read?_write_other _ _ (by decide)]; exact h1
    · exact read?_write_same _ _ _

/-- A byte stored beyond the header leaves the header stored (R27). -/
theorem HeaderStored.write {s : State} (h : HeaderStored s) {i : Nat} (hi : 3 ≤ i) (b : Byte) (n : BitVec 7) (f : FrState) :
    HeaderStored { s with fbuf := s.fbuf.write i b, len := n, frState := f } := by
  obtain ⟨h0, h1, h2⟩ := h
  simp only [HeaderStored]
  rw [read?_write_other _ _ (by omega), read?_write_other _ _ (by omega), read?_write_other _ _ (by omega)]
  exact ⟨h0, h1, h2⟩

theorem ReaderSound.header {s : State} (h : ReaderSound s) (hf : s.frState = .readingBody) : HeaderStored s := by
  have hs := h.sound
  rw [FrameReaderSound, hf] at hs
  exact hs.2.2

/-- A byte of the body is stored at `LEN` (R126). -/
theorem ReaderSound.storeBody {s : State} (h : ReaderSound s) (hl : 3 ≤ s.len.toNat) (hu : s.len.toNat ≤ 103)
    (hf : s.frState = .readingBody) (b : Byte) :
    ReaderSound { s with fbuf := s.fbuf.write s.len.toNat b, len := s.len + 1 } := by
  have hlen : (s.len + 1).toNat = s.len.toNat + 1 := by
    rw [BitVec.toNat_add]
    exact Nat.mod_eq_of_lt (Nat.lt_of_le_of_lt (Nat.succ_le_succ hu) (by decide))
  refine ⟨wf_write h.canonical _ _, by simp only [hlen]; exact defined_write h.defined b, ?_⟩
  simp only [FrameReaderSound, hf, hlen]
  exact ⟨by omega, by omega, (h.header hf).write hl b _ _⟩

/-- The 105th byte: the closing marker delimits the frame (R127), any other byte fails the attempt (R128). -/
theorem ReaderSound.storeLast {s : State} (h : ReaderSound s) (hl : s.len.toNat = 104) (hf : s.frState = .readingBody)
    {b : Byte} {f : FrState} (he : (f = .done ∧ b = Config.marker) ∨ f = .failed) :
    ReaderSound { s with fbuf := s.fbuf.write 104 b, len := 105, frState := f } := by
  have hd := h.defined
  rw [hl] at hd
  refine ⟨wf_write h.canonical _ _, defined_write hd b, ?_⟩
  rcases he with ⟨rfl, rfl⟩ | rfl
  · exact ⟨rfl, (h.header hf).write (by decide) _ _ _, read?_write_same _ _ _⟩
  · exact Nat.le_refl _

/-- A timeout fails the attempt with what was accumulated (R129). -/
theorem ReaderSound.fail {s : State} (h : ReaderSound s)
    (ha : s.frState = .searching ∨ s.frState = .matchingHeader ∨ s.frState = .readingBody) :
    ReaderSound { s with frState := .failed } := by
  refine ⟨h.canonical, h.defined, ?_⟩
  have hs := h.sound
  change s.len.toNat ≤ 105
  rcases ha with hf | hf | hf <;> rw [FrameReaderSound, hf] at hs
  · simp [hs]
  · rcases hs.2 with hl | ⟨hl, -⟩ <;> simp [hl]
  · exact Nat.le_succ_of_le hs.2.1

/-! ## What every event keeps -/

/-- The event `RX(b)` keeps a state sound (R131, R246). -/
theorem receive_sound {b : Byte} {s t : State} (h : s.Inv) (hr : receive b s = .next t) : t.Inv := by
  rcases receive_eq_next hr with ⟨_, rfl⟩ | ⟨_, rfl⟩ | ⟨hsel, rfl⟩ | ⟨hsel, rfl⟩ |
    ⟨hsel, rfl⟩ | ⟨hsel, rfl⟩ | ⟨hsel, rfl⟩ | ⟨hsel, hb⟩ | ⟨hsel, rfl⟩
  · exact h
  · exact h
  · have hf : s.stage = .framing := by
      rcases hsel with hsel | hsel
      · exact (selectRx_eq_mark.mp hsel).1
      · exact (selectRx_eq_remark.mp hsel).1
    exact h.moveReader hf (startAccumulation_reader s) (.inr (.inl rfl))
  · obtain ⟨hf, hfr, hl, -⟩ := selectRx_eq_hdr1.mp hsel
    exact h.moveReader hf (h.reader.storeHdr1 hl hfr) (.inr (.inl hfr))
  · obtain ⟨hf, hfr, hl, -⟩ := selectRx_eq_hdr2.mp hsel
    exact h.moveReader hf (h.reader.storeHdr2 hl hfr) (.inr (.inr rfl))
  · obtain ⟨hf, -⟩ := selectRx_eq_miss.mp hsel
    exact h.moveReader hf (.nil rfl rfl rfl) (.inl rfl)
  · obtain ⟨hf, hfr, hl, hu, -⟩ := selectRx_eq_body.mp hsel
    exact h.moveReader hf (h.reader.storeBody hl hu hfr b) (.inr (.inr hfr))
  · obtain ⟨hf, hfr, hl, -⟩ := selectRx_eq_endFrame.mp hsel
    obtain ⟨-, -, -, hrd⟩ := h.framing hf
    exact runBackEnd_sound (h.endReader (h.reader.storeLast hl hfr (.inl ⟨rfl, rfl⟩)) (.inl rfl)) hrd hb
  · obtain ⟨hf, hfr, hl, -⟩ := selectRx_eq_badend.mp hsel
    obtain ⟨-, -, -, hrd⟩ := h.framing hf
    exact raiseError_sound (h.endReader (h.reader.storeLast hl hfr (.inr rfl)) (.inr rfl)) hrd _

/-- Every operation that answers keeps a state sound. -/
theorem exec_sound {i : Instr} {s t : State} (h : s.Inv) (he : exec i s = .next t) : t.Inv := by
  cases exec_eq_next_of_sound h he with
  | unchanged => exact h
  | function v => exact h.withValue v
  | reset _ => exact restartAt_sound (s := { s with key := none, keyValid := false }) rfl (.inl rfl)
  | abort _ => exact restartAt_sound h.key_defined (.inl rfl)
  | start _ _ => exact restartAt_sound h.key_defined (.inr rfl)
  | loadKey k _ _ _ => exact h.installKey k
  | rx b op _ _ hr => exact receive_sound h hr
  | timeout _ hf =>
    obtain ⟨ha, -, -, hrd⟩ := h.framing hf
    exact raiseError_sound (h.endReader (h.reader.fail ha) (.inr rfl)) hrd _
  | frame body crc _ _ hr => exact receiveAll_keeps (fun _ _ _ => receive_sound) h hr

/-! ## Every event answers (R12) -/

theorem performIf_answers {p : Prop} [Decidable p] {act : State → Res State} {s : State}
    (h : p → ∃ t, act s = .next t) : ∃ t, performIf p act s = .next t := by
  by_cases hp : p
  · rw [performIf_pos hp]; exact h hp
  · exact ⟨s, performIf_neg hp act s⟩

theorem andThen_answers {α β : Type} {r : Res α} {k : α → Res β} (hr : ∃ a, r = .next a)
    (hk : ∀ a, r = .next a → ∃ b, k a = .next b) : ∃ b, andThen r k = .next b := by
  obtain ⟨a, ha⟩ := hr
  rw [ha, andThen_next]
  exact hk a ha

theorem runValidate_answers {s : State} {F : Nat → Byte} (h : HoldsFrame s 104 F) : ∃ t, runValidate s = .next t := by
  rw [runValidate_next h]
  split <;> exact ⟨_, rfl⟩

/-- With a key loaded, `KEY` is defined (R21), and the frame holds SystemTitle, InvocationCounter and CipherText. -/
theorem runDecrypt_answers {s : State} {F : Nat → Byte} (hP : s.params.WellFormed) (h : HoldsFrame s 102 F)
    (hk : s.key.isSome = s.keyValid) : ∃ t, runDecrypt s = .next t := by
  by_cases hv : s.keyValid = true
  · obtain ⟨key, hkey⟩ := Option.isSome_iff_exists.mp (hk.trans hv)
    exact ⟨_, runDecrypt_next hP h hv hkey⟩
  · exact ⟨_, runDecrypt_no_key hP (Bool.eq_false_iff.mpr hv)⟩

/-- Fields that fit are read from a PlainText of `LEN_CT` bytes (R225); fields that do not are not read (R226). -/
theorem runExtract_answers {s : State} {bs : List Byte} (hP : s.params.WellFormed) (hbs : bs.length = s.params.lenCt)
    (hpt : s.pt = Memory.ofBytes 0 bs) : ∃ t, runExtract s = .next t := by
  by_cases hf : s.params.FieldsFit
  · refine ⟨_, runExtract_next (f := fun j => bs.getD j 0) hP hf fun j hj => ?_⟩
    have hj' : j < bs.length := hbs ▸ hj
    simp [hpt, hj']
  · exact ⟨_, runExtract_misfit hP hf⟩

/-- With `FBUF[0..103]` defined, each stage after the frame defines what the next one reads, or raises an error and so ends
the chain (R246). -/
theorem runBackEnd_answers {s : State} {F : Nat → Byte} (hP : s.params.WellFormed) (h : HoldsFrame s 104 F)
    (hk : s.key.isSome = s.keyValid) : ∃ t, runBackEnd s = .next t := by
  have h102 : HoldsFrame s 102 F := fun a ha => h a (by omega)
  refine andThen_answers (runValidate_answers h) fun s1 h1 => ?_
  obtain ⟨c, rfl | rfl⟩ := runValidate_eq_next h1
  case inr => exact ⟨_, rfl⟩
  refine andThen_answers (runDecrypt_answers hP h102 hk) fun s2 h2 => ?_
  rcases runDecrypt_eq_next h2 with ⟨-, rfl⟩ | ⟨-, iv, bs, hbs, rfl⟩
  case inl => exact ⟨_, rfl⟩
  refine andThen_answers (runExtract_answers hP hbs rfl) fun s3 h3 => ?_
  rcases runExtract_eq_next h3 with ⟨-, rfl⟩ | ⟨-, rd, rfl⟩ <;> exact ⟨_, rfl⟩

/-- A buffer defined below `n` holds the bytes that it reads as. -/
theorem holdsFrame_of_defined {s : State} {n : Nat} (h : ∀ i, i < n → (s.fbuf.read? i).isSome = true) :
    HoldsFrame s n fun i => (s.fbuf.read? i).getD 0 := by
  intro i hi
  obtain ⟨b, hb⟩ := Option.isSome_iff_exists.mp (h i hi)
  simp [hb]

/-- At the closing marker of a sound search all that the later stages read is defined (R22). -/
theorem execFrEnd_answers {s : State} (h : s.Inv) (hP : s.params.WellFormed) : ∃ t, execFrEnd s = .next t := by
  refine performIf_answers fun hsel => ?_
  obtain ⟨-, hfr, hl, -⟩ := selectRx_eq_endFrame.mp hsel
  have hr := h.reader.storeLast hl hfr (b := Config.marker) (.inl ⟨rfl, rfl⟩)
  refine runBackEnd_answers hP (holdsFrame_of_defined fun i hi => ?_) h.key_defined
  rw [hr.defined i]
  exact decide_eq_true (Nat.lt_succ_of_lt hi)

/-- Every FrameReader operation answers, where the map selects it and elsewhere. -/
theorem runRxOp_answers {s : State} (h : s.Inv) (hP : s.params.WellFormed) (op : RxOp) : ∃ t, runRxOp op s = .next t := by
  cases op with
  | endFrame => exact execFrEnd_answers h hP
  | mark | skip | remark | hdr1 | hdr2 | miss | body | badend =>
    simp only [runRxOp, execFrMark, execFrSkip, execFrRemark, execFrHdr1, execFrHdr2, execFrMiss, execFrBody, execFrBadend]
    exact performIf_answers fun _ => ⟨_, rfl⟩

theorem receive_answers {s : State} (h : s.Inv) (hP : s.params.WellFormed) (b : Byte) : ∃ t, receive b s = .next t := by
  cases hsel : selectRx s.context b with
  | none => exact ⟨s, receive_not_accepted hsel⟩
  | some op => rw [receive_selected hsel]; exact runRxOp_answers h hP op

theorem receiveAll_answers {s : State} (h : s.Inv) (hP : s.params.WellFormed) (bs : List Byte) :
    ∃ t, receiveAll bs s = .next t := by
  induction bs generalizing s with
  | nil => exact ⟨s, rfl⟩
  | cons b bs ih =>
    obtain ⟨s', hs'⟩ := receive_answers h hP b
    obtain ⟨hparams, -⟩ := receive_keeps hs'
    rw [receiveAll_cons, hs', andThen_next]
    exact ih (receive_sound h hs') (hparams ▸ hP)

/-- In a sound state every operation answers but `u32be` by itself: the operations of the sequencer are outside their
stage there, and change nothing (R42, R246). -/
theorem exec_answers {i : Instr} {s : State} (h : s.Inv) (hP : s.params.WellFormed) (hi : ∀ o, i ≠ .u32be o) :
    ∃ t, exec i s = .next t := by
  obtain ⟨hval, hdec, hext⟩ := sound_stage h
  cases i with
  | reset | abort | nop => exact ⟨_, rfl⟩
  | loadKey | start | frTimeout | raise =>
    simp only [exec, execLoadKey, execStart, execFrTimeout, execRaise]
    exact performIf_answers fun _ => ⟨_, rfl⟩
  | frMark => exact runRxOp_answers h hP .mark
  | frSkip b => exact runRxOp_answers h hP (.skip b)
  | frRemark => exact runRxOp_answers h hP .remark
  | frHdr1 => exact runRxOp_answers h hP .hdr1
  | frHdr2 => exact runRxOp_answers h hP .hdr2
  | frMiss b => exact runRxOp_answers h hP (.miss b)
  | frBody b => exact runRxOp_answers h hP (.body b)
  | frEnd => exact runRxOp_answers h hP .endFrame
  | frBadend b => exact runRxOp_answers h hP (.badend b)
  | frame body crc => exact receiveAll_answers h hP (frameBytes body crc)
  | validate => exact performIf_answers fun hs => absurd hs hval
  | decrypt | deriveIv | ctrXor => exact performIf_answers fun hs => absurd hs hdec
  | extract | complete => exact performIf_answers fun hs => absurd hs hext
  | u32be o => exact absurd rfl (hi o)
  | mirror8 | crc16Update | crc16 | subBytes | shiftRows | mixColumns | addRoundKey | keyExpansion | aes128 | inc128
  | keystream | scaleEnergy | powerValue => exact ⟨_, rfl⟩

/-! ## The statements -/

/-- Settles O47: `step` and the reader of `P` refuse. -/
theorem illFormedParametersAreRefused : Obligations.IllFormedParametersAreRefused := by
  intro s hP
  refine ⟨step_refused hP, fun hs => ?_, fun hs => ?_⟩
  · rw [exec, execDecrypt, performIf_pos hs, runDecrypt, config_refused hP, andThen_refused]
  · rw [exec, execExtract, performIf_pos hs, runExtract, config_refused hP, andThen_refused]

/-- Settles O51: `fetch` decodes the script in the state's own context. -/
theorem stepRunsTheDecodedOperation : Obligations.StepRunsTheDecodedOperation :=
  ⟨fun _ _ _ hP h => step_op hP h, fun _ hP h => step_idle hP (fetch_empty h)⟩

/-- Settles O46: each operation faults at the first byte or element it reads. -/
theorem undefinedReadsFault : Obligations.UndefinedReadsFault := by
  refine ⟨fun _ _ _ _ => ⟨readByte_undefined, readByte_outside⟩, ?_, ?_, ?_, ?_, ?_⟩
  · intro s hs hm
    rw [exec, execValidate, performIf_pos hs, runValidate, checksummed, readFbuf, hm,
      readBytes_empty (by decide) (by decide), andThen_fault]
  · intro s hs hP hm
    have ⟨_, hst, _⟩ := hP
    rw [exec, execDeriveIv, performIf_pos hs, runDeriveIv, config_next hP, andThen_next, systemTitle, readFbuf, hm,
      readBytes_empty (by decide) (by simp only [Config.frameLen]; omega), andThen_fault]
  · intro s hs hrd
    rw [exec, execComplete, performIf_pos hs, runComplete, hrd, readElement, andThen_fault]
  · intro s o hP ho hpt
    rw [exec, execU32be, config_next hP, andThen_next, readField, memRead, hpt, readBytes_empty (by decide) ho,
      andThen_fault, andThen_fault, andThen_fault]
  · intro s F ks hs hP hF hk
    rw [exec, execCtrXor, performIf_pos hs, runCtrXor_short hP hF hk]

/-- Settles O54: the step runs the offered operation on a state that differs in its script only; there the operation answers
(`exec_answers`), and its answer is sound (`exec_sound`). -/
theorem soundStatesNeverFault : Obligations.SoundStatesNeverFault := by
  intro s i rest h hP hfetch hi
  have h' := h.withScript rest
  obtain ⟨t, ht⟩ := exec_answers h' hP hi
  exact ⟨t, (step_op hP hfetch).trans ht, exec_sound h' ht⟩

end Sys2Proof.Machine
end

section
/-! Proofs of the statements about spec/10_state.md. First what the host's operations do where they are accepted and where
they are not (R42), then that no operation writes `P` (R31, R32), then what the outputs depend on (R41, R43). -/

namespace Sys2Proof.Machine

/-! ## Acceptance (R42) -/

theorem execLoadKey_accepted {s : State} (hk : s.keyValid = false) (hc : CommandReady s) (k : Block) :
    execLoadKey k s = .next (installKey k s) := performIf_pos ⟨hk, hc⟩ _ s

theorem execLoadKey_dropped {s : State} (h : s.keyValid = true ∨ ¬CommandReady s) (k : Block) :
    execLoadKey k s = .next s := by
  refine performIf_neg ?_ _ s
  rintro ⟨hk, hc⟩
  rcases h with hv | hn
  · exact Bool.false_ne_true (hk.symm.trans hv)
  · exact hn hc

theorem execStart_accepted {s : State} (h : CommandReady s) : execStart s = .next (beginDecode s) := performIf_pos h _ s

theorem execStart_dropped {s : State} (h : ¬CommandReady s) : execStart s = .next s := performIf_neg h _ s

theorem not_commandReady_of_framing {s : State} (h : s.stage = .framing) : ¬CommandReady s := by
  simp [CommandReady, h]

/-- In each active state of `Framing`, the map of R102 has a row for every byte while `LEN` is in the state's range (R27). -/
theorem selectRx_isSome {ctx : Context} (hst : ctx.stage = .framing)
    (hrow : (ctx.frState = .searching ∧ ctx.len = 0) ∨
      (ctx.frState = .matchingHeader ∧ (ctx.len = 1 ∨ ctx.len = 2)) ∨
      (ctx.frState = .readingBody ∧ 3 ≤ ctx.len.toNat ∧ ctx.len.toNat ≤ 104)) (b : Byte) :
    (selectRx ctx b).isSome = true := by
  rw [selectRx, if_pos hst]
  rcases hrow with ⟨hfr, hlen⟩ | ⟨hfr, hlen⟩ | ⟨hfr, hlow, hhigh⟩ <;> simp only [hfr]
  · rw [if_pos hlen]
    split <;> rfl
  · rw [if_pos hlen]
    split_ifs <;> rfl
  · by_cases hbody : ctx.len.toNat ≤ 103
    · rw [if_pos ⟨hlow, hbody⟩]; rfl
    · rw [if_neg fun hr => hbody hr.2, if_pos (by omega)]
      split <;> rfl

theorem selectRx_isSome_of_framing {s : State} (h : s.Inv) (hf : s.stage = .framing) (b : Byte) :
    (selectRx s.context b).isSome = true := by
  refine selectRx_isSome hf ?_ b
  have hreader := h.frame_reader
  obtain ⟨hactive, -⟩ := h.framing hf
  rcases hactive with hfr | hfr | hfr <;> simp only [FrameReaderSound, hfr] at hreader
  · exact .inl ⟨hfr, hreader⟩
  · obtain ⟨-, hlen⟩ := hreader
    exact .inr (.inl ⟨hfr, hlen.imp_right And.left⟩)
  · obtain ⟨hlow, hhigh, -⟩ := hreader
    exact .inr (.inr ⟨hfr, hlow, hhigh⟩)

/-! ## Offers at the head of the script (R42, log 8) -/

theorem fetch_rx_not_accepted {s : State} {b : Byte} {rest : List Byte} (hs : s.script = 5 :: b :: rest)
    (h : selectRx s.context b = none) : fetch s = .notAccepted rest := by
  rw [fetch, hs]
  simp [decode, decodeRecord, h]

theorem fetch_frTimeout {s : State} {rest : List Byte} (hs : s.script = encode .frTimeout ++ rest) :
    fetch s = .op .frTimeout rest := by
  rw [fetch, hs]; rfl

theorem fetch_start {s : State} {rest : List Byte} (hs : s.script = encode .start ++ rest) :
    fetch s = .op .start rest := by
  rw [fetch, hs]; rfl

theorem fetch_loadKey {s : State} {k : Block} {rest : List Byte} (hs : s.script = encode (.loadKey k) ++ rest) :
    fetch s = .op (.loadKey k) rest := by
  have htape : s.script = 1 :: (blockBytes k ++ rest) := hs
  rw [fetch, htape]
  simp [decode, decodeRecord, withBytes]

theorem step_notAccepted {s : State} {rest : List Byte} (hP : s.params.WellFormed) (h : fetch s = .notAccepted rest) :
    step s = .next { s with script := rest } := by
  rw [step, if_pos hP, h]

/-! ## `P` is a constant (R31, R32) -/

theorem performIf_keeps_params {p : Prop} [Decidable p] {act : State → Res State} {s t : State}
    (hact : act s = .next t → t.params = s.params) (h : performIf p act s = .next t) : t.params = s.params := by
  rcases performIf_eq_next.mp h with ⟨-, ht⟩ | ⟨-, rfl⟩
  · exact hact ht
  · rfl

theorem runValidate_keeps_params {s t : State} (h : runValidate s = .next t) : t.params = s.params := by
  obtain ⟨c, rfl | rfl⟩ := runValidate_eq_next h <;> rfl

theorem runDeriveIv_keeps_params {s t : State} (h : runDeriveIv s = .next t) : t.params = s.params := by
  obtain ⟨iv, rfl⟩ := runDeriveIv_eq_next h; rfl

theorem runCtrXor_keeps_params {s t : State} {ks : List Block} (h : runCtrXor ks s = .next t) : t.params = s.params := by
  obtain ⟨bs, -, rfl⟩ := runCtrXor_eq_next h; rfl

theorem runDecrypt_keeps_params {s t : State} (h : runDecrypt s = .next t) : t.params = s.params := by
  rcases runDecrypt_eq_next h with ⟨-, rfl⟩ | ⟨-, iv, bs, -, rfl⟩ <;> rfl

theorem runExtract_keeps_params {s t : State} (h : runExtract s = .next t) : t.params = s.params := by
  rcases runExtract_eq_next h with ⟨-, rfl⟩ | ⟨-, rd, rfl⟩ <;> rfl

/-- An answer of completion reports the `RD` that `extract` has defined (R249). -/
theorem runComplete_eq_next {s t : State} (h : runComplete s = .next t) : ∃ rd, s.rd = some rd ∧ t = completeOk rd s := by
  obtain ⟨rd, hrd, ht⟩ := andThen_eq_next.mp h
  exact ⟨rd, readElement_eq_next.mp hrd, (Host.Outcome.next.inj ht).symm⟩

theorem runComplete_keeps_params {s t : State} (h : runComplete s = .next t) : t.params = s.params := by
  obtain ⟨rd, -, rfl⟩ := runComplete_eq_next h; rfl

/-- `u32be` by itself writes the model's own field `value` only (log 3). -/
theorem execU32be_eq_next {s t : State} {o : Nat} (h : execU32be o s = .next t) : ∃ v, t = { s with value := v } := by
  simp only [execU32be, andThen_eq_next] at h
  obtain ⟨_, -, v, -, ht⟩ := h
  exact ⟨.word v, (Host.Outcome.next.inj ht).symm⟩

theorem receive_keeps_params {b : Byte} {s t : State} (h : receive b s = .next t) : t.params = s.params :=
  (receive_keeps h).1

theorem receiveAll_keeps_params {bs : List Byte} {s t : State} (h : receiveAll bs s = .next t) : t.params = s.params :=
  receiveAll_keeps (p := fun u => u.params = s.params) (fun _ _ _ hu hr => (receive_keeps_params hr).trans hu) rfl h

/-- A FrameReader operation by itself does what the event `RX` of its byte does, or nothing. -/
theorem exec_rxOp_keeps_params {s t : State} {b : Byte} {op : RxOp} (hb : op.toInstr.rxOp = some (b, op))
    (h : exec op.toInstr s = .next t) : t.params = s.params := by
  rcases exec_rxOp_eq_next hb h with rfl | hr
  · rfl
  · exact receive_keeps_params hr

/-! ## What the outputs depend on (R41, R43) -/

/-- The acceptance test of a command reads `STAGE` and `KEY_VALID` only (R42). -/
theorem cmdReady_congr {s t : State} (hs : s.stage = t.stage) (hk : s.keyValid = t.keyValid) (cmd : BitVec 2) :
    cmdReady cmd s = cmdReady cmd t := by
  simp only [cmdReady, CommandReady, hs, hk]

theorem atCommand_stage (p : Pins) (s : State) : (p.atCommand s).stage = if p.rst then .idle else s.stage := by
  unfold Pins.atCommand; split <;> rfl

theorem atCommand_keyValid (p : Pins) (s : State) : (p.atCommand s).keyValid = if p.rst then false else s.keyValid := by
  unfold Pins.atCommand; split <;> rfl

theorem takeCommand_stage (p : Pins) (s : State) :
    (p.takeCommand s).stage =
      if p.cmd = 0 then s.stage else if p.cmd = 1 then s.stage else if p.cmd = 2 then .framing else .idle := by
  unfold Pins.takeCommand; split_ifs <;> rfl

section
variable {s t : State} (hs : s.stage = t.stage) (hk : s.keyValid = t.keyValid) (p : Pins)
include hs hk

/-- `cmd_ready` at an edge depends on the state through `STAGE` and `KEY_VALID` only. -/
theorem Pins.cmdReady_congr : p.cmdReady s = p.cmdReady t :=
  Machine.cmdReady_congr (by rw [atCommand_stage, atCommand_stage, hs])
    (by rw [atCommand_keyValid, atCommand_keyValid, hk]) p.cmd

theorem atReceive_stage_congr : (p.atReceive s).stage = (p.atReceive t).stage := by
  unfold Pins.atReceive
  rw [p.cmdReady_congr hs hk]
  split <;> simp only [takeCommand_stage, atCommand_stage, hs]

/-- `rx_ready` at an edge depends on the state through `STAGE` and `KEY_VALID` only. -/
theorem Pins.rxReady_congr : p.rxReady s = p.rxReady t := by
  simp only [Pins.rxReady, Machine.rxReady, atReceive_stage_congr hs hk p]

/-- The output signals at an edge depend on the state through its level outputs, `STAGE` and `KEY_VALID` only. -/
theorem Pins.outputs_congr (ho : Machine.outputs s = Machine.outputs t) : p.outputs s = p.outputs t := by
  rw [Pins.outputs, Pins.outputs, ho, p.rxReady_congr hs hk, p.cmdReady_congr hs hk]

end

/-- `RD` is defined while the result flags say that a Reading is held (R24, R30). -/
theorem State.Inv.rd_defined {s : State} (h : s.Inv) (hok : s.resOk = true) : s.rd.isSome = true := by
  obtain ⟨-, -, -, hrd⟩ := h.result_sound
  rw [hrd, hok]

/-- Where `RD` is defined a Reading is held: without a result no `RES_OK` is set (R30). -/
theorem State.Inv.held_of_rd {s : State} (h : s.Inv) (hrd : s.rd.isSome = true) : s.resValid = true ∧ s.resOk = true := by
  obtain ⟨hcleared, -, -, hdef⟩ := h.result_sound
  have hok : s.resOk = true := hdef.symm.trans hrd
  refine ⟨?_, hok⟩
  cases hv : s.resValid with
  | true => rfl
  | false => exact (hcleared hv).1.symm.trans hok

/-- What is shown of `RD` under the test of R319 can be read exactly while a Reading is held. -/
theorem State.Inv.shown_isSome {s : State} (h : s.Inv) {α : Type} (f : Vector Word 8 → α) :
    (if s.resValid ∧ s.resOk then s.rd.map f else none).isSome = true ↔ s.resValid = true ∧ s.resOk = true := by
  by_cases hheld : s.resValid = true ∧ s.resOk = true
  · rw [if_pos hheld, Option.isSome_map, h.rd_defined hheld.2]
    exact iff_of_true rfl hheld
  · rw [if_neg hheld]
    exact iff_of_false Bool.false_ne_true hheld

theorem readRd_of_rd {s : State} (h : s.Inv) {rd : Vector Word 8} (hrd : s.rd = some rd) (k : Fin 8) :
    readRd s k = some rd[k] := by
  rw [readRd, if_pos (h.held_of_rd (by rw [hrd]; rfl)), hrd]
  rfl

/-! ## The statements -/

/-- Settles O53: a step waits, takes an offer off the script, or runs an operation on a state that differs in its script only;
`exec_sound` is the invariant's step over the operations. -/
theorem everyStepKeepsTheStateSound : Obligations.EveryStepKeepsTheStateSound := by
  intro s t h hstep
  obtain ⟨-, ⟨-, rfl⟩ | ⟨rest, -, rfl⟩ | ⟨i, rest, -, he⟩⟩ := step_eq_next.mp hstep
  · exact h
  · exact h.withScript rest
  · exact exec_sound (h.withScript rest) he

/-- Settles O15: the offered operation is fetched, and outside its acceptance test it changes nothing. -/
theorem unacceptedEventsChangeNothing : Obligations.UnacceptedEventsChangeNothing := by
  intro s rest h hP
  refine ⟨fun b hf => selectRx_isSome_of_framing h hf b, fun b hf hs => ?_, fun hf hs => ?_, fun hf hs => ?_,
    fun k hk hs => ?_⟩
  · exact step_notAccepted hP (fetch_rx_not_accepted hs (selectRx_not_framing hf b))
  · exact (step_op hP (fetch_frTimeout hs)).trans (execFrTimeout_dropped hf)
  · exact (step_op hP (fetch_start hs)).trans (execStart_dropped (not_commandReady_of_framing hf))
  · exact (step_op hP (fetch_loadKey hs)).trans (execLoadKey_dropped (s := { s with script := rest }) (hk.imp_right not_commandReady_of_framing) k)

/-- Settles O56: an event's effect is a named update of the state, a stage's is said by its inversion lemma, and a function
writes `value`. -/
theorem parametersAreNeverWritten : Obligations.ParametersAreNeverWritten := by
  intro i s t h
  cases i with
  | reset | abort | nop => cases h; rfl
  | loadKey | start | frTimeout | raise =>
    simp only [exec, execLoadKey, execStart, execFrTimeout, execRaise] at h
    exact performIf_keeps_params (fun ht => by cases ht; rfl) h
  | frMark => exact exec_rxOp_keeps_params (op := .mark) rfl h
  | frSkip b => exact exec_rxOp_keeps_params (op := .skip b) rfl h
  | frRemark => exact exec_rxOp_keeps_params (op := .remark) rfl h
  | frHdr1 => exact exec_rxOp_keeps_params (op := .hdr1) rfl h
  | frHdr2 => exact exec_rxOp_keeps_params (op := .hdr2) rfl h
  | frMiss b => exact exec_rxOp_keeps_params (op := .miss b) rfl h
  | frBody b => exact exec_rxOp_keeps_params (op := .body b) rfl h
  | frEnd => exact exec_rxOp_keeps_params (op := .endFrame) rfl h
  | frBadend b => exact exec_rxOp_keeps_params (op := .badend b) rfl h
  | frame => exact receiveAll_keeps_params h
  | validate => exact performIf_keeps_params runValidate_keeps_params h
  | decrypt => exact performIf_keeps_params runDecrypt_keeps_params h
  | deriveIv => exact performIf_keeps_params runDeriveIv_keeps_params h
  | ctrXor => exact performIf_keeps_params runCtrXor_keeps_params h
  | extract => exact performIf_keeps_params runExtract_keeps_params h
  | complete => exact performIf_keeps_params runComplete_keeps_params h
  | u32be => obtain ⟨v, rfl⟩ := execU32be_eq_next h; rfl
  | mirror8 | crc16Update | crc16 | subBytes | shiftRows | mixColumns | addRoundKey | keyExpansion | aes128 | inc128
  | keystream | scaleEnergy | powerValue => cases h; rfl

/-- Settles O59: the level outputs read none of the hidden elements, the ready outputs only `STAGE` and `KEY_VALID`. -/
theorem outputsShowOnlyTheHeldReading : Obligations.OutputsShowOnlyTheHeldReading := by
  refine ⟨fun s key iv fbuf pt c => ⟨rfl, fun p => ?_⟩, fun s h k => ⟨?_, ?_, fun rd hrd => ?_⟩⟩
  · refine Pins.outputs_congr ?_ ?_ p ?_ <;> rfl
  · exact h.shown_isSome (·[k])
  · exact h.shown_isSome packWords
  · exact readRd_of_rd h hrd k

/-- Settles O1: the elements by evaluation, the events by their acceptance tests. -/
theorem resetLeavesSpecValues : Obligations.ResetLeavesSpecValues := by
  have hready : CommandReady State.reset := .inl rfl
  refine ⟨rfl, rfl, rfl, rfl, rfl, read?_nil, rfl, rfl, read?_nil, rfl, rfl, rfl, rfl, rfl, rfl, rfl, fun k => ?_, ?_, ?_, ?_⟩
  · exact ⟨_, execLoadKey_accepted rfl hready k, rfl, rfl⟩
  · exact ⟨_, execStart_accepted hready, rfl⟩
  · exact ⟨_, rfl, restartAt_stage .idle State.reset⟩
  · exact selectRx_not_framing (by decide)

/-- Settles O52: the state after reset is the one in which `ABORT` leaves it (R35, R244), and P0 meets R7. -/
theorem resetStateIsSound : Obligations.ResetStateIsSound :=
  ⟨restartAt_sound (s := State.reset) rfl (.inl rfl), by decide⟩

end Sys2Proof.Machine
end

section
/-! Proofs of the statements about spec/30_encoding.md. First the records: each operand is read back from its bytes, and its
bytes are the one way to write it. Then that the script is no operand of a received byte, so that a run over records is the
bytes' own run (R107). Last a frame offered whole, byte by byte, and its checksum. -/

namespace Sys2Proof

/-! ## Operands and their bytes (R66) -/

section
variable {w n : Nat} (hw : 256 ^ n = 2 ^ w)
include hw

theorem ofNat_beNat_beBytes (v : BitVec w) : BitVec.ofNat w (beNat (beBytes n v.toNat)) = v := by
  rw [beNat_beBytes, hw, Nat.mod_eq_of_lt v.isLt, BitVec.ofNat_toNat, BitVec.setWidth_eq]

theorem beBytes_ofNat_beNat {bs : List Byte} (h : bs.length = n) :
    beBytes n (BitVec.ofNat w (beNat bs)).toNat = bs := by
  have hlt : beNat bs < 2 ^ w := by rw [← hw, ← h]; exact beNat_lt bs
  rw [BitVec.toNat_ofNat, Nat.mod_eq_of_lt hlt, beBytes_beNat' h]

end

@[simp] theorem bytesOfBlocks_cons (k : Block) (ks : List Block) :
    bytesOfBlocks (k :: ks) = blockBytes k ++ bytesOfBlocks ks := rfl

theorem length_bytesOfBlocks (ks : List Block) : (bytesOfBlocks ks).length = 16 * ks.length := by
  induction ks with
  | nil => rfl
  | cons k ks ih =>
    rw [bytesOfBlocks_cons, List.length_append, length_blockBytes, ih, List.length_cons]
    ring

theorem blocksOfBytes_bytesOfBlocks (ks : List Block) : blocksOfBytes ks.length (bytesOfBlocks ks) = ks := by
  induction ks with
  | nil => rfl
  | cons k ks ih =>
    have hk := length_blockBytes k
    rw [bytesOfBlocks_cons, List.length_cons, blocksOfBytes, List.take_left' hk, List.drop_left' hk,
      blockOfBytes_blockBytes, ih]

@[simp] theorem length_blocksOfBytes (n : Nat) (bs : List Byte) : (blocksOfBytes n bs).length = n := by
  induction n generalizing bs with
  | zero => rfl
  | succ n ih => rw [blocksOfBytes, List.length_cons, ih]

theorem bytesOfBlocks_blocksOfBytes {n : Nat} {bs : List Byte} (h : bs.length = 16 * n) :
    bytesOfBlocks (blocksOfBytes n bs) = bs := by
  induction n generalizing bs with
  | zero => exact (List.length_eq_zero_iff.mp h).symm
  | succ n ih =>
    rw [blocksOfBytes, bytesOfBlocks_cons, blockBytes_blockOfBytes (by rw [List.length_take]; omega),
      ih (by rw [List.length_drop]; omega), List.take_append_drop]

/-- Two blocks are read back from their 32 bytes. -/
theorem blockBytes_halves {bs : List Byte} (h : bs.length = 32) :
    blockBytes (blockOfBytes (bs.take 16)) ++ blockBytes (blockOfBytes (bs.drop 16)) = bs := by
  rw [blockBytes_blockOfBytes (by rw [List.length_take]; omega), blockBytes_blockOfBytes (by rw [List.length_drop]; omega),
    List.take_append_drop]

theorem ofCode_code (e : DecodeError) : DecodeError.ofCode e.code = some e := by
  cases e <;> rfl

theorem code_of_ofCode {c : Byte} {e : DecodeError} (h : DecodeError.ofCode c = some e) : c = e.code := by
  unfold DecodeError.ofCode at h
  split_ifs at h with h1 h2 h3 h4
  all_goals
    cases h
    assumption

/-- A `FRAME` read from 105 bytes has those bytes and 99 bytes of body (R90). -/
theorem frameOfBytes_eq_some {bs : List Byte} {i : Instr} (hl : bs.length = 105) (h : frameOfBytes bs = some i) :
    ∃ body crc, i = .frame body crc ∧ body.length = 99 ∧ bs = frameBytes body crc := by
  unfold frameOfBytes at h
  split at h
  case h_2 => cases h
  case h_1 m h1 h2 t =>
    split_ifs at h with hfix
    obtain ⟨rfl, rfl, rfl, hend⟩ := hfix
    cases h
    have ht : t.length = 102 := by simpa using hl
    have hcrc : ((t.drop 99).take 2).length = 2 := by simp [ht]
    refine ⟨_, _, rfl, by simp [ht], ?_⟩
    have hparts : t = t.take 99 ++ (t.drop 99).take 2 ++ t.drop 101 := by
      rw [List.append_assoc, show 101 = 99 + 2 from rfl, ← List.drop_drop, List.take_append_drop, List.take_append_drop]
    rw [frameBytes, beBytes_ofNat_beNat (by norm_num) hcrc, ← hend, ← hparts]

/-! ## The tape -/

theorem withBytes_append {bs : List Byte} {n : Nat} (h : bs.length = n) (rest : List Byte)
    (k : List Byte → List Byte → Fetched) : withBytes n (bs ++ rest) k = k bs rest := by
  rw [withBytes, if_pos (by rw [List.length_append]; omega), List.take_left' h, List.drop_left' h]

/-- An operation read off `n` bytes: the tape begins with `n` bytes, from which it is made. -/
theorem withBytes_eq_op {n : Nat} {tape rest : List Byte} {k : List Byte → List Byte → Fetched} {i : Instr}
    (h : withBytes n tape k = .op i rest) : ∃ bs tl, bs.length = n ∧ tape = bs ++ tl ∧ k bs tl = .op i rest := by
  unfold withBytes at h
  split_ifs at h with hn
  exact ⟨tape.take n, tape.drop n, List.length_take_of_le hn, (List.take_append_drop n tape).symm, h⟩

theorem withBytes_op_iff {n : Nat} {tape rest : List Byte} {f : List Byte → Instr} {i : Instr} :
    (withBytes n tape fun bs tl => .op (f bs) tl) = .op i rest ↔
      ∃ bs, bs.length = n ∧ i = f bs ∧ tape = bs ++ rest := by
  constructor
  · intro h
    obtain ⟨bs, tl, hl, rfl, hop⟩ := withBytes_eq_op h
    cases hop
    exact ⟨bs, hl, rfl, rfl⟩
  · rintro ⟨bs, hl, rfl, rfl⟩
    exact withBytes_append hl rest _

/-- An operation with one block as its operand. -/
theorem withBytes_block_iff {tape rest : List Byte} (f : Block → Instr) {i : Instr} :
    (withBytes 16 tape fun bs tl => .op (f (blockOfBytes bs)) tl) = .op i rest ↔
      ∃ k, i = f k ∧ tape = blockBytes k ++ rest := by
  rw [withBytes_op_iff (f := fun bs => f (blockOfBytes bs))]
  constructor
  · rintro ⟨bs, hl, rfl, rfl⟩
    exact ⟨_, rfl, by rw [blockBytes_blockOfBytes hl]⟩
  · rintro ⟨k, rfl, rfl⟩
    exact ⟨_, length_blockBytes k, by rw [blockOfBytes_blockBytes], rfl⟩

/-- An operation with two blocks as its operands. -/
theorem withBytes_blocks_iff {tape rest : List Byte} (f : Block → Block → Instr) {i : Instr} :
    (withBytes 32 tape fun bs tl => .op (f (blockOfBytes (bs.take 16)) (blockOfBytes (bs.drop 16))) tl) = .op i rest ↔
      ∃ k l, i = f k l ∧ tape = blockBytes k ++ blockBytes l ++ rest := by
  rw [withBytes_op_iff (f := fun bs => f (blockOfBytes (bs.take 16)) (blockOfBytes (bs.drop 16)))]
  constructor
  · rintro ⟨bs, hl, rfl, rfl⟩
    exact ⟨_, _, rfl, by rw [blockBytes_halves hl]⟩
  · rintro ⟨k, l, rfl, rfl⟩
    have hk := length_blockBytes k
    refine ⟨blockBytes k ++ blockBytes l, by simp, ?_, rfl⟩
    rw [List.take_left' hk, List.drop_left' hk, blockOfBytes_blockBytes, blockOfBytes_blockBytes]

/-- An operation with a 32-bit word as its operand. -/
theorem withBytes_word_iff {tape rest : List Byte} (f : Word → Instr) {i : Instr} :
    (withBytes 4 tape fun bs tl => .op (f (BitVec.ofNat 32 (beNat bs))) tl) = .op i rest ↔
      ∃ v, i = f v ∧ tape = beBytes 4 v.toNat ++ rest := by
  rw [withBytes_op_iff (f := fun bs => f (BitVec.ofNat 32 (beNat bs)))]
  constructor
  · rintro ⟨bs, hl, rfl, rfl⟩
    exact ⟨_, rfl, by rw [beBytes_ofNat_beNat (by norm_num) hl]⟩
  · rintro ⟨v, rfl, rfl⟩
    exact ⟨_, length_beBytes 4 v.toNat, by rw [ofNat_beNat_beBytes (by norm_num)], rfl⟩

/-! ## The operations that a byte selects (R102) -/

/-- An operation that a byte selects has that byte's record, and no other operand. -/
theorem rxOp_eq_some {i : Instr} {b : Byte} {op : RxOp} (h : i.rxOp = some (b, op)) :
    op.toInstr = i ∧ encode i = [5, b] := by
  cases i
  case frMark | frSkip | frRemark | frHdr1 | frHdr2 | frMiss | frBody | frEnd | frBadend => cases h; exact ⟨rfl, rfl⟩
  all_goals cases h

/-- The map gives `FR.SKIP`, `FR.MISS` and `FR.BADEND` no marker (R102). -/
theorem wellFormed_of_selectRx {ctx : Context} {b : Byte} {op : RxOp} (h : selectRx ctx b = some op) :
    op.toInstr.wellFormed = true := by
  cases op with
  | mark | remark | hdr1 | hdr2 | body | endFrame => rfl
  | skip c =>
    obtain ⟨-, -, -, hm, rfl⟩ := selectRx_eq_skip.mp h
    exact bne_iff_ne.mpr hm
  | miss c =>
    obtain ⟨-, -, -, hm, -, -, rfl⟩ := selectRx_eq_miss.mp h
    exact bne_iff_ne.mpr hm
  | badend c =>
    obtain ⟨-, -, -, hm, rfl⟩ := selectRx_eq_badend.mp h
    exact bne_iff_ne.mpr hm

theorem admits_of_rxOp_none {ctx : Context} {i : Instr} (h : i.rxOp = none) : ctx.admits i := by
  rw [Context.admits, h]; trivial

theorem admits_iff_of_rxOp {ctx : Context} {i : Instr} {b : Byte} {op : RxOp} (h : i.rxOp = some (b, op)) :
    ctx.admits i ↔ selectRx ctx b = some op := by
  rw [Context.admits, h]

/-! ## From an operation to its record and back -/

theorem decode_rx {ctx : Context} {b : Byte} {op : RxOp} (h : selectRx ctx b = some op) (rest : List Byte) :
    decode ctx (5 :: b :: rest) = .op op.toInstr rest := by
  change (match selectRx ctx b with | some o => Fetched.op o.toInstr rest | none => .notAccepted rest) = _
  rw [h]

/-- An operation that no byte selects is read back from its record, in every context. -/
theorem decode_encode_of_rxOp_none (ctx : Context) {i : Instr} (hwf : i.wellFormed = true) (h : i.rxOp = none)
    (rest : List Byte) : decode ctx (encode i ++ rest) = .op i rest := by
  rw [encode, List.cons_append, decode]
  cases i with
  | frMark | frSkip | frRemark | frHdr1 | frHdr2 | frMiss | frBody | frEnd | frBadend => cases h
  | nop | start | abort | reset | frTimeout | validate | decrypt | deriveIv | extract | complete | mirror8 => rfl
  | loadKey k => exact (withBytes_block_iff .loadKey).mpr ⟨k, rfl, rfl⟩
  | subBytes st => exact (withBytes_block_iff .subBytes).mpr ⟨st, rfl, rfl⟩
  | shiftRows st => exact (withBytes_block_iff .shiftRows).mpr ⟨st, rfl, rfl⟩
  | mixColumns st => exact (withBytes_block_iff .mixColumns).mpr ⟨st, rfl, rfl⟩
  | keyExpansion key => exact (withBytes_block_iff .keyExpansion).mpr ⟨key, rfl, rfl⟩
  | inc128 blk => exact (withBytes_block_iff .inc128).mpr ⟨blk, rfl, rfl⟩
  | addRoundKey st rk => exact (withBytes_blocks_iff .addRoundKey).mpr ⟨st, rk, rfl, rfl⟩
  | aes128 key blk => exact (withBytes_blocks_iff .aes128).mpr ⟨key, blk, rfl, rfl⟩
  | scaleEnergy v => exact (withBytes_word_iff .scaleEnergy).mpr ⟨v, rfl, rfl⟩
  | powerValue v => exact (withBytes_word_iff .powerValue).mpr ⟨v, rfl, rfl⟩
  | raise e => simp [decodeRecord, Instr.header, Instr.operandBytes, ofCode_code]
  | frame body crc =>
    have hb : body.length = 99 := by simpa [Instr.wellFormed] using hwf
    simp [decodeRecord, Instr.header, Instr.operandBytes, withBytes_append (length_frameBytes hb crc),
      frameOfBytes_frameBytes hb]
  | crc16Update reg b =>
    have hr := ofNat_beNat_beBytes (n := 2) (by norm_num) reg
    exact congrArg (fun r => Fetched.op (.crc16Update r b) rest) hr
  | crc16 seq =>
    have hl : seq.length < 256 ^ 2 := by simpa [Instr.wellFormed] using hwf
    have hn : seq.length = beNat (beBytes 2 seq.length) := by rw [beNat_beBytes, Nat.mod_eq_of_lt hl]
    exact (withBytes_op_iff (f := .crc16)).mpr ⟨seq, hn, rfl, rfl⟩
  | keystream key iv n =>
    have hn : 1 ≤ n ∧ n ≤ 87 := by simpa [Instr.wellFormed] using hwf
    simpa [decodeRecord, Instr.header, Instr.operandBytes, Nat.mod_eq_of_lt (show n < 256 by omega), hn] using
      (withBytes_blocks_iff (.keystream · · n)).mpr ⟨key, iv, rfl, rfl⟩
  | ctrXor ks =>
    have hn : ks.length ≤ 6 := by simpa [Instr.wellFormed] using hwf
    simpa [decodeRecord, Instr.header, Instr.operandBytes, Nat.mod_eq_of_lt (show ks.length < 256 by omega), hn] using
      (withBytes_op_iff (f := fun bs => .ctrXor (blocksOfBytes ks.length bs))).mpr
        ⟨bytesOfBlocks ks, length_bytesOfBlocks ks, by rw [blocksOfBytes_bytesOfBlocks], rfl⟩
  | u32be o =>
    have hn : o + 4 ≤ 87 := of_decide_eq_true hwf
    have ho : o ≤ 83 := by omega
    simp [decodeRecord, Instr.header, Instr.operandBytes, Nat.mod_eq_of_lt (show o < 256 by omega), Config.maxLenCt, ho]

/-- The record with header `h` and operand bytes `tape` is the record of `i`, with `rest` after it, and the context
admits it. -/
structure IsRecord (ctx : Context) (h : Byte) (tape : List Byte) (i : Instr) (rest : List Byte) : Prop where
  header : h.toNat = i.header.toNat
  operands : tape = i.operandBytes ++ rest
  wellFormed : i.wellFormed = true
  admitted : ctx.admits i

theorem IsRecord.tape_eq {ctx : Context} {h : Byte} {tape rest : List Byte} {i : Instr} (hr : IsRecord ctx h tape i rest) :
    h :: tape = encode i ++ rest := by
  rw [encode, List.cons_append, ← hr.operands, BitVec.eq_of_toNat_eq hr.header]

theorem isRecord_rx {ctx : Context} {h b : Byte} {rest : List Byte} {op : RxOp} (hh : h.toNat = 5)
    (hsel : selectRx ctx b = some op) : IsRecord ctx h (b :: rest) op.toInstr rest := by
  have hrx := rxOp_of_selectRx hsel
  obtain ⟨-, henc⟩ := rxOp_eq_some hrx
  obtain ⟨hheader, hoperands⟩ := List.cons_eq_cons.mp henc
  exact ⟨by rw [hh, hheader]; rfl, by rw [hoperands]; rfl, wellFormed_of_selectRx hsel, (admits_iff_of_rxOp hrx).mpr hsel⟩

/-- Whatever a record is read as has this record: header by header (cases in the headers' order), the operands are what the
tape begins with. -/
theorem isRecord_of_decodeRecord {ctx : Context} {h : Byte} {tape rest : List Byte} {i : Instr}
    (hd : decodeRecord ctx h tape = .op i rest) : IsRecord ctx h tape i rest := by
  unfold decodeRecord at hd
  split at hd
  case h_1 hh | h_3 hh | h_4 hh | h_5 hh | h_7 hh | h_9 hh | h_10 hh | h_11 hh | h_12 hh | h_14 hh =>
    cases hd
    exact ⟨hh, rfl, rfl, trivial⟩
  case h_2 hh =>
    obtain ⟨k, rfl, rfl⟩ := (withBytes_block_iff .loadKey).mp hd
    exact ⟨hh, rfl, rfl, trivial⟩
  case h_6 hh =>
    split at hd
    · cases hd
    · split at hd
      · next hsel => cases hd; exact isRecord_rx hh hsel
      · cases hd
  case h_8 hh =>
    obtain ⟨bs, tl, hl, rfl, hop⟩ := withBytes_eq_op hd
    split at hop
    · next hj =>
      cases hop
      obtain ⟨body, crc, rfl, hb, rfl⟩ := frameOfBytes_eq_some hl hj
      exact ⟨hh, rfl, beq_iff_eq.mpr hb, trivial⟩
    · cases hop
  case h_13 hh =>
    split at hd
    · cases hd
    · split at hd
      · next he => cases hd; exact ⟨hh, congrArg (· :: rest) (code_of_ofCode he), rfl, trivial⟩
      · cases hd
  case h_15 hh =>
    split at hd <;> cases hd
    exact ⟨hh, rfl, rfl, trivial⟩
  case h_16 hh =>
    split at hd
    · next r1 r0 b _ =>
      cases hd
      have hreg : beBytes 2 (BitVec.ofNat 16 (beNat [r1, r0])).toNat = [r1, r0] := beBytes_ofNat_beNat (by norm_num) rfl
      exact ⟨hh, by rw [Instr.operandBytes, hreg]; rfl, rfl, trivial⟩
    · cases hd
  case h_17 hh =>
    split at hd
    · next n1 n0 _ =>
      obtain ⟨bs, hl, rfl, rfl⟩ := withBytes_op_iff.mp hd
      have hbytes : beBytes 2 bs.length = [n1, n0] := hl ▸ beBytes_beNat [n1, n0]
      have hbound : bs.length < 256 ^ 2 := hl.trans_lt (beNat_lt [n1, n0])
      exact ⟨hh, by rw [Instr.operandBytes, hbytes]; rfl, decide_eq_true hbound, trivial⟩
    · cases hd
  case h_18 hh =>
    obtain ⟨st, rfl, rfl⟩ := (withBytes_block_iff .subBytes).mp hd
    exact ⟨hh, rfl, rfl, trivial⟩
  case h_19 hh =>
    obtain ⟨st, rfl, rfl⟩ := (withBytes_block_iff .shiftRows).mp hd
    exact ⟨hh, rfl, rfl, trivial⟩
  case h_20 hh =>
    obtain ⟨st, rfl, rfl⟩ := (withBytes_block_iff .mixColumns).mp hd
    exact ⟨hh, rfl, rfl, trivial⟩
  case h_21 hh =>
    obtain ⟨st, rk, rfl, rfl⟩ := (withBytes_blocks_iff .addRoundKey).mp hd
    exact ⟨hh, rfl, rfl, trivial⟩
  case h_22 hh =>
    obtain ⟨key, rfl, rfl⟩ := (withBytes_block_iff .keyExpansion).mp hd
    exact ⟨hh, rfl, rfl, trivial⟩
  case h_23 hh =>
    obtain ⟨key, blk, rfl, rfl⟩ := (withBytes_blocks_iff .aes128).mp hd
    exact ⟨hh, rfl, rfl, trivial⟩
  case h_24 hh =>
    obtain ⟨blk, rfl, rfl⟩ := (withBytes_block_iff .inc128).mp hd
    exact ⟨hh, rfl, rfl, trivial⟩
  case h_25 hh =>
    split at hd
    · cases hd
    · next n _ =>
      split_ifs at hd with hn
      obtain ⟨key, iv, rfl, rfl⟩ := (withBytes_blocks_iff (.keystream · · n.toNat)).mp hd
      exact ⟨hh, by simp [Instr.operandBytes], by simpa [Instr.wellFormed] using hn, trivial⟩
  case h_26 hh =>
    split at hd
    · cases hd
    · next n _ =>
      split_ifs at hd with hn
      obtain ⟨bs, hl, rfl, rfl⟩ := withBytes_op_iff.mp hd
      refine ⟨hh, ?_, by simpa [Instr.wellFormed] using hn, trivial⟩
      rw [Instr.operandBytes, length_blocksOfBytes, bytesOfBlocks_blocksOfBytes hl, BitVec.ofNat_toNat,
        BitVec.setWidth_eq, List.cons_append]
  case h_27 hh =>
    split at hd
    · cases hd
    · next o _ =>
      split_ifs at hd with ho
      cases hd
      exact ⟨hh, by simp [Instr.operandBytes], decide_eq_true ho, trivial⟩
  case h_28 hh =>
    obtain ⟨v, rfl, rfl⟩ := (withBytes_word_iff .scaleEnergy).mp hd
    exact ⟨hh, rfl, rfl, trivial⟩
  case h_29 hh =>
    obtain ⟨v, rfl, rfl⟩ := (withBytes_word_iff .powerValue).mp hd
    exact ⟨hh, rfl, rfl, trivial⟩
  case h_30 => cases hd

/-! ## The statements about records -/

/-- Settles O48: a byte operation is what the map selects for its byte, and any other operation's operands are read back
from their bytes. -/
theorem decodeOfEncode : Obligations.DecodeOfEncode := by
  intro ctx i rest hwf hadmits
  cases hrx : i.rxOp with
  | none => exact decode_encode_of_rxOp_none ctx hwf hrx rest
  | some p =>
    obtain ⟨b, op⟩ := p
    obtain ⟨rfl, henc⟩ := rxOp_eq_some hrx
    rw [henc]
    exact decode_rx ((admits_iff_of_rxOp hrx).mp hadmits) rest

/-- Settles O49: `isRecord_of_decodeRecord` at the head of the tape. -/
theorem decodedOperationsAreCanonical : Obligations.DecodedOperationsAreCanonical := by
  intro ctx tape i rest h
  cases tape with
  | nil => cases h
  | cons b tl =>
    have hr := isRecord_of_decodeRecord h
    exact ⟨hr.wellFormed, hr.admitted, hr.tape_eq⟩

/-- Settles O50: each row of the map selects its operation in its context, and is read from its byte's record. -/
theorem wordsOfTheMapDecode : Obligations.WordsOfTheMapDecode := by
  refine ⟨decode_rx (op := .mark) ?_ _, decode_rx (op := .skip _) ?_ _, decode_rx (op := .remark) ?_ _,
    decode_rx (op := .hdr1) ?_ _, decode_rx (op := .hdr2) ?_ _, decode_rx (op := .miss _) ?_ _,
    decode_rx (op := .body _) ?_ _, decode_rx (op := .endFrame) ?_ _, decode_rx (op := .badend _) ?_ _, ?_,
    decodeOfEncode _ .nop _ rfl trivial, decodeOfEncode _ .start _ rfl trivial, decodeOfEncode _ .abort _ rfl trivial⟩
  all_goals decide

/-- Settles O6: the two bits of the port write four codes, each offering the record of its operation alone. -/
theorem commandCodesOnThePort : Obligations.CommandCodesOnThePort := by
  refine ⟨fun p hvalid hrst hrx htimeout => ?_, fun s => rfl⟩
  have hcodes : ∀ c : BitVec 2, c = 0 ∨ c = 1 ∨ c = 2 ∨ c = 3 := by decide
  rcases hcodes p.cmd with hc | hc | hc | hc <;>
    simp [Machine.Offers.records, Machine.Pins.offers, Machine.HostCommand.toInstr, hvalid, hrst, hrx, htimeout, hc]

end Sys2Proof

namespace Sys2Proof.Machine

/-! ## The script is no operand (R107, log 4) -/

/-- The outcome `r` with another script. -/
def putScript (tape : List Byte) (r : Res State) : Res State :=
  andThen r fun t => .next { t with script := tape }

/-- What `f` does neither reads nor writes the script: another script before it is that script after it. -/
def ScriptFree (f : State → Res State) : Prop :=
  ∀ s tape, f { s with script := tape } = putScript tape (f s)

theorem ScriptFree.next {f : State → State} (h : ∀ s tape, f { s with script := tape } = { f s with script := tape }) :
    ScriptFree fun s => .next (f s) :=
  fun s tape => congrArg _ (h s tape)

/-- Reading an operand, then going on with it. -/
theorem ScriptFree.read {α : Type} {r : State → Res α} {k : α → State → Res State}
    (hr : ∀ s tape, r { s with script := tape } = r s) (hk : ∀ a, ScriptFree (k a)) :
    ScriptFree fun s => andThen (r s) fun a => k a s := by
  intro s tape
  simp only [hr]
  cases hrs : r s with
  | next a => exact hk a s tape
  | fault f => rfl
  | refused q => rfl

theorem ScriptFree.seq {f g : State → Res State} (hf : ScriptFree f) (hg : ScriptFree g) :
    ScriptFree fun s => andThen (f s) g := by
  intro s tape
  simp only [hf s tape]
  cases f s with
  | next t => exact hg t tape
  | fault f => rfl
  | refused q => rfl

theorem ScriptFree.ite {c : State → Prop} [DecidablePred c] {f g : State → Res State}
    (hc : ∀ s tape, c { s with script := tape } ↔ c s) (hf : ScriptFree f) (hg : ScriptFree g) :
    ScriptFree fun s => if c s then f s else g s := by
  intro s tape
  by_cases h : c s
  · simp only [if_pos h, if_pos ((hc s tape).mpr h)]; exact hf s tape
  · simp only [if_neg h, if_neg (mt (hc s tape).mp h)]; exact hg s tape

theorem ScriptFree.comp {f : State → Res State} {u : State → State} (hf : ScriptFree f)
    (hu : ∀ s tape, u { s with script := tape } = { u s with script := tape }) : ScriptFree fun s => f (u s) := by
  intro s tape
  simp only [hu s tape]
  exact hf (u s) tape

/-- An operation that is performed where the script does not matter. -/
theorem ScriptFree.performIf {p : State → Prop} [DecidablePred p] {f : State → Res State}
    (hp : ∀ s tape, p { s with script := tape } ↔ p s) (hf : ScriptFree f) :
    ScriptFree fun s => performIf (p s) f s :=
  .ite hp hf (.next fun _ _ => rfl)

theorem scriptFree_runValidate : ScriptFree runValidate :=
  .read (fun _ _ => rfl) fun seq => .read (fun _ _ => rfl) fun cEmb =>
    .ite (c := fun _ => crc16 seq = cEmb) (fun _ _ => Iff.rfl) (.next fun _ _ => rfl) (.next fun _ _ => rfl)

theorem scriptFree_runDeriveIv : ScriptFree runDeriveIv :=
  .read (fun _ _ => rfl) fun P => .read (r := systemTitle P) (fun _ _ => rfl) fun _ =>
    .read (r := invocationCounter P) (fun _ _ => rfl) fun _ => .next fun _ _ => rfl

theorem scriptFree_runCtrXor (ks : List Block) : ScriptFree (runCtrXor ks) :=
  .read (fun _ _ => rfl) fun P => .read (r := cipherText P) (fun _ _ => rfl) fun _ =>
    .ite (c := fun _ => P.lenCt ≤ 16 * ks.length) (fun _ _ => Iff.rfl) (.next fun _ _ => rfl) fun _ _ => rfl

theorem scriptFree_runDecrypt : ScriptFree runDecrypt :=
  .read (fun _ _ => rfl) fun P => .ite (c := fun s => s.keyValid = true) (fun _ _ => Iff.rfl)
    (scriptFree_runDeriveIv.seq (.read (r := fun s => readElement .key s.key) (fun _ _ => rfl) fun key =>
      .read (r := fun s => readElement .iv s.iv) (fun _ _ => rfl) fun iv => scriptFree_runCtrXor (keystream key iv P.lenCt)))
    (.next fun _ _ => rfl)

theorem scriptFree_runExtract : ScriptFree runExtract :=
  .read (fun _ _ => rfl) fun P => .ite (c := fun _ => P.FieldsFit) (fun _ _ => Iff.rfl)
    (.read (r := fun s => gather8 fun k => readField P s.pt P.offFld[k]) (fun _ _ => rfl) fun _ => .next fun _ _ => rfl)
    (.next fun _ _ => rfl)

theorem scriptFree_runComplete : ScriptFree runComplete :=
  .read (r := fun s => readElement .rd s.rd) (fun _ _ => rfl) fun _ => .next fun _ _ => rfl

theorem scriptFree_thenStage (before next : Stage) {run : State → Res State} (h : ScriptFree run) :
    ScriptFree (thenStage before next run) :=
  .ite (c := fun s => s.stage = before) (fun _ _ => Iff.rfl) (h.comp fun _ _ => rfl) (.next fun _ _ => rfl)

theorem scriptFree_runBackEnd : ScriptFree runBackEnd :=
  (scriptFree_runValidate.comp fun _ _ => rfl).seq <|
    (scriptFree_thenStage .validating .decrypting scriptFree_runDecrypt).seq <|
      (scriptFree_thenStage .decrypting .extracting scriptFree_runExtract).seq <|
        .ite (c := fun s => s.stage = .extracting) (fun _ _ => Iff.rfl) scriptFree_runComplete (.next fun _ _ => rfl)

theorem scriptFree_selected (b : Byte) (op : RxOp) {f : State → Res State} (hf : ScriptFree f) :
    ScriptFree fun s => performIf (Selects s b op) f s :=
  .performIf (p := fun s => Selects s b op) (fun _ _ => Iff.rfl) hf

theorem scriptFree_runRxOp (op : RxOp) : ScriptFree (runRxOp op) := by
  cases op with
  | endFrame => exact scriptFree_selected _ _ (scriptFree_runBackEnd.comp fun _ _ => rfl)
  | mark | skip | remark | hdr1 | hdr2 | miss | body | badend => exact scriptFree_selected _ _ (.next fun _ _ => rfl)

/-- The event `RX(b)` neither reads nor writes the script. -/
theorem scriptFree_receive (b : Byte) : ScriptFree (receive b) := by
  intro s tape
  cases hsel : selectRx s.context b with
  | none => rw [receive_not_accepted hsel, receive_not_accepted (s := { s with script := tape }) hsel]; rfl
  | some op =>
    rw [receive_selected hsel, receive_selected (s := { s with script := tape }) hsel]
    exact scriptFree_runRxOp op s tape

/-! ## A record a step (R40, R107) -/

theorem exec_toInstr (op : RxOp) (s : State) : exec op.toInstr s = runRxOp op s := by
  cases op <;> rfl

/-- The step of a received byte's record is the event `RX` of the byte. -/
theorem step_rxRecord {s : State} (hP : s.params.WellFormed) (b : Byte) (tape : List Byte) :
    step { s with script := rxRecord b ++ tape } = receive b { s with script := tape } := by
  cases hsel : selectRx s.context b with
  | none =>
    rw [receive_not_accepted (s := { s with script := tape }) hsel]
    exact step_notAccepted (s := { s with script := rxRecord b ++ tape }) hP (fetch_rx_not_accepted rfl hsel)
  | some op =>
    rw [receive_selected (s := { s with script := tape }) hsel, ← exec_toInstr]
    exact step_op (s := { s with script := rxRecord b ++ tape }) hP (decode_rx hsel tape)

theorem run_next {M : Host.Core} {n : Nat} {s t : M.State} (h : M.step s = .next t) : M.run (n + 1) s = M.run n t := by
  rw [Host.Core.run, h]

theorem run_fault {M : Host.Core} {n : Nat} {s : M.State} {f : M.Fault} (h : M.step s = .fault f) :
    M.run (n + 1) s = .fault f := by
  rw [Host.Core.run, h]

theorem run_refused {M : Host.Core} {n : Nat} {s : M.State} {q : M.Refusal} (h : M.step s = .refused q) :
    M.run (n + 1) s = .refused q := by
  rw [Host.Core.run, h]

/-- Steps are run one after the other; a step that stops is where the run stops. -/
theorem run_succ (n : Nat) (s : State) :
    Host.Core.run Sys2Proof.core (n + 1) s = andThen (step s) (Host.Core.run Sys2Proof.core n) := by
  cases h : step s with
  | next t => exact run_next (M := core) h
  | fault f => exact run_fault (M := core) h
  | refused q => exact run_refused (M := core) h

/-- A run over the records of received bytes is `RX*` of the bytes (R107). -/
theorem run_rxRecords (bs rest : List Byte) {s : State} (hP : s.params.WellFormed) :
    Host.Core.run Sys2Proof.core bs.length { s with script := bs.flatMap rxRecord ++ rest } =
      receiveAll bs { s with script := rest } := by
  induction bs generalizing s with
  | nil => rfl
  | cons b bs ih =>
    rw [List.length_cons, run_succ, List.flatMap_cons, List.append_assoc, step_rxRecord hP, receiveAll_cons,
      scriptFree_receive b s (bs.flatMap rxRecord ++ rest),
      scriptFree_receive b s rest]
    cases hr : receive b s with
    | next t => exact ih ((receive_keeps_params hr) ▸ hP)
    | fault f => rfl
    | refused q => rfl

/-- Settles O28: `FRAME` is `receiveAll` by definition; its bytes one step at a time are `run_rxRecords`. -/
theorem frameIsItsBytesStepByStep : Obligations.FrameIsItsBytesStepByStep :=
  ⟨fun _ _ _ => rfl, fun bs rest _ hP => run_rxRecords bs rest hP⟩

/-! ## A frame byte by byte (R131) -/

/-- `FBUF` holds the bytes `bs` from offset 0 on, and no other byte is defined. -/
def Memory.Reads (m : Memory) (bs : List Byte) : Prop :=
  ∀ i, m.read? i = bs[i]?

/-- A byte written behind the bytes is appended to them. -/
theorem Memory.Reads.write {m : Memory} {bs : List Byte} (h : m.Reads bs) {n : Nat} (hn : n = bs.length) (b : Byte) :
    (m.write n b).Reads (bs ++ [b]) := by
  subst hn
  intro i
  rw [read?_write, h i]
  by_cases hi : i = bs.length
  · rw [if_pos hi, hi, List.getElem?_concat_length]
  · rw [if_neg hi]
    rcases Nat.lt_or_gt_of_ne hi with hlt | hgt
    · rw [List.getElem?_append_left hlt]
    · rw [List.getElem?_eq_none hgt.le, List.getElem?_eq_none (by rw [List.length_append]; exact hgt)]

theorem receive_mark {s : State} (hst : s.stage = .framing) (hfr : s.frState = .searching) (hl : s.len = 0) :
    receive Config.marker s = .next (startAccumulation s) := by
  have hsel : Selects s Config.marker .mark := selectRx_eq_mark.mpr ⟨hst, hfr, hl, rfl⟩
  rw [receive_selected hsel, runRxOp, execFrMark_selected hsel]

theorem receive_hdr1 {s : State} (hst : s.stage = .framing) (hfr : s.frState = .matchingHeader) (hl : s.len = 1) :
    receive Config.hdr1 s = .next { s with fbuf := s.fbuf.write 1 Config.hdr1, len := 2 } := by
  have hsel : Selects s Config.hdr1 .hdr1 := selectRx_eq_hdr1.mpr ⟨hst, hfr, hl, rfl⟩
  rw [receive_selected hsel, runRxOp, execFrHdr1_selected hsel]

theorem receive_hdr2 {s : State} (hst : s.stage = .framing) (hfr : s.frState = .matchingHeader) (hl : s.len = 2) :
    receive Config.hdr2 s =
      .next { s with fbuf := s.fbuf.write 2 Config.hdr2, len := 3, frState := .readingBody } := by
  have hsel : Selects s Config.hdr2 .hdr2 := selectRx_eq_hdr2.mpr ⟨hst, hfr, hl, rfl⟩
  rw [receive_selected hsel, runRxOp, execFrHdr2_selected hsel]

theorem receive_body {s : State} (hst : s.stage = .framing) (hfr : s.frState = .readingBody) (hlow : 3 ≤ s.len.toNat)
    (hhigh : s.len.toNat ≤ 103) (b : Byte) :
    receive b s = .next { s with fbuf := s.fbuf.write s.len.toNat b, len := s.len + 1 } := by
  have hsel : Selects s b (.body b) := selectRx_eq_body.mpr ⟨hst, hfr, hlow, hhigh, rfl⟩
  rw [receive_selected hsel, runRxOp, execFrBody_selected hsel]

theorem receive_endFrame {s : State} (hst : s.stage = .framing) (hfr : s.frState = .readingBody) (hl : s.len.toNat = 104) :
    receive Config.marker s =
      runBackEnd { s with fbuf := s.fbuf.write 104 Config.marker, len := 105, frState := .done } := by
  have hsel : Selects s Config.marker .endFrame := selectRx_eq_endFrame.mpr ⟨hst, hfr, hl, rfl⟩
  rw [receive_selected hsel, runRxOp, execFrEnd_selected hsel]

theorem receiveAll_append (as bs : List Byte) (s : State) :
    receiveAll (as ++ bs) s = andThen (receiveAll as s) (receiveAll bs) := by
  induction as generalizing s with
  | nil => rfl
  | cons a as ih =>
    rw [List.cons_append, receiveAll_cons, receiveAll_cons]
    cases receive a s with
    | next t => exact ih t
    | fault f => rfl
    | refused q => rfl

theorem receiveAll_singleton (b : Byte) (s : State) : receiveAll [b] s = receive b s := by
  rw [receiveAll_cons]
  cases receive b s <;> rfl

/-- The header after a search: 7E A0 67 are stored, and the body is read next (R121, R123, R124). -/
theorem receiveAll_header {s : State} (hst : s.stage = .framing) (hfr : s.frState = .searching) (hl : s.len = 0) :
    ∃ m, receiveAll [Config.marker, Config.hdr1, Config.hdr2] s =
        .next { s with fbuf := m, len := 3, frState := .readingBody } ∧
      m.Reads [Config.marker, Config.hdr1, Config.hdr2] := by
  have h0 : Memory.Reads [(0, Config.marker)] [Config.marker] := read?_ofBytes_zero [Config.marker]
  refine ⟨_, ?_, (h0.write (n := 1) rfl Config.hdr1).write (n := 2) rfl Config.hdr2⟩
  rw [receiveAll_cons, receive_mark hst hfr hl, andThen_next, receiveAll_cons,
    receive_hdr1 (s := startAccumulation s) hst rfl rfl, andThen_next, receiveAll_singleton]
  exact receive_hdr2 hst rfl rfl

/-- Bytes of the body are stored behind the bytes before them, up to offset 103, whatever they are (R126). -/
theorem receiveAll_body {s : State} {as bs : List Byte} (hst : s.stage = .framing) (hfr : s.frState = .readingBody)
    (hm : s.fbuf.Reads as) (hl : s.len.toNat = as.length) (hlow : 3 ≤ as.length) (hhigh : as.length + bs.length ≤ 104) :
    ∃ m n, receiveAll bs s = .next { s with fbuf := m, len := n } ∧ m.Reads (as ++ bs) ∧
      n.toNat = as.length + bs.length := by
  induction bs generalizing s as with
  | nil => exact ⟨s.fbuf, s.len, rfl, by rwa [List.append_nil], hl⟩
  | cons b bs ih =>
    rw [List.length_cons] at hhigh
    have hlen : (s.len + 1).toNat = (as ++ [b]).length := by
      rw [BitVec.toNat_add, hl, List.length_append]
      exact Nat.mod_eq_of_lt (show as.length + 1 < 128 by omega)
    obtain ⟨m, n, hr, hreads, hn⟩ := ih (s := { s with fbuf := s.fbuf.write s.len.toNat b, len := s.len + 1 })
      hst hfr (hm.write hl b) hlen (by simp; omega) (by simp; omega)
    refine ⟨m, n, ?_, by simpa using hreads, by simp at hn ⊢; omega⟩
    rw [receiveAll_cons, receive_body hst hfr (by omega) (by omega), andThen_next, hr]

/-- A frame offered whole to a search reaches the stages after the frame with all its bytes stored (R127). -/
theorem receiveAll_frame {s : State} {body : List Byte} (hst : s.stage = .framing) (hfr : s.frState = .searching)
    (hl : s.len = 0) (hb : body.length = 99) (crc : Half) :
    ∃ m, receiveAll (frameBytes body crc) s = runBackEnd { s with fbuf := m, len := 105, frState := .done } ∧
      m.Reads (frameBytes body crc) := by
  obtain ⟨m3, hr3, hm3⟩ := receiveAll_header hst hfr hl
  obtain ⟨m, n, hr, hm, hn⟩ := receiveAll_body (s := { s with fbuf := m3, len := 3, frState := .readingBody })
    (bs := body ++ beBytes 2 crc.toNat) hst rfl hm3 rfl (Nat.le_refl 3) (by simp [hb])
  have hn104 : n.toNat = 104 := by simpa [hb] using hn
  refine ⟨m.write 104 Config.marker, ?_, hm.write (by simp [hb]) Config.marker⟩
  have hparts : frameBytes body crc =
      [Config.marker, Config.hdr1, Config.hdr2] ++ (body ++ beBytes 2 crc.toNat) ++ [Config.marker] := rfl
  rw [hparts, receiveAll_append, receiveAll_append, hr3, andThen_next, hr, andThen_next, receiveAll_singleton]
  exact receive_endFrame hst rfl hn104

/-! ## A frame's checksum (R158, R159) -/

/-- The `n` bytes behind offset `k` of a frame are the part that stands there. -/
theorem map_getD_part {fr as bs cs : List Byte} (h : fr = as ++ (bs ++ cs)) {k n : Nat} (hk : as.length = k)
    (hn : bs.length = n) : ((List.range n).map fun j => fr.getD (k + j) 0) = bs := by
  subst h hk hn
  apply List.ext_getElem
  · simp
  · intro j _ hj
    rw [List.getElem_map, List.getElem_range, List.getD_eq_getElem?_getD, List.getElem?_append_right (Nat.le_add_right _ _),
      Nat.add_sub_cancel_left, List.getElem?_append_left hj, List.getElem?_eq_getElem hj, Option.getD_some]

theorem frameCrc_frameBytes {body : List Byte} (hb : body.length = 99) (crc : Half) :
    (frameCrc fun i => (frameBytes body crc).getD i 0) = crc16 (0xA0 :: 0x67 :: body) := by
  have hparts : frameBytes body crc =
      [Config.marker] ++ ((0xA0 :: 0x67 :: body) ++ (beBytes 2 crc.toNat ++ [Config.marker])) := by simp [frameBytes]
  exact congrArg crc16 (map_getD_part hparts rfl (by simp [hb]))

theorem frameCrcField_frameBytes {body : List Byte} (hb : body.length = 99) (crc : Half) :
    (frameCrcField fun i => (frameBytes body crc).getD i 0) = crc := by
  have hparts : frameBytes body crc =
      (Config.marker :: Config.hdr1 :: Config.hdr2 :: body) ++ (beBytes 2 crc.toNat ++ [Config.marker]) := by
    simp [frameBytes]
  have hfield := map_getD_part hparts (k := 102) (by simp [hb]) (length_beBytes 2 _)
  calc (frameCrcField fun i => (frameBytes body crc).getD i 0)
      = BitVec.ofNat 16 (beNat (beBytes 2 crc.toNat)) := by rw [← hfield]; exact (ofNat_beNat_two _ _).symm
    _ = crc := ofNat_beNat_beBytes (by norm_num) crc

theorem Memory.Reads.holdsFrame {s : State} {bs : List Byte} (h : s.fbuf.Reads bs) {n : Nat} (hn : n ≤ bs.length) :
    HoldsFrame s n fun i => bs.getD i 0 := by
  intro i hi
  have hi' : i < bs.length := by omega
  simp [h i, hi']

/-- The stages after a stored frame end the decode with its checksum in `CRC_CALC`, and report `CrcMismatch` exactly where
its CRC field differs (R158, R159, R246). -/
theorem runBackEnd_crc {s t : State} {F : Nat → Byte} (h : HoldsFrame s 104 F) (hb : runBackEnd s = .next t) :
    t.crcCalc = some (frameCrc F) ∧ (t.err = some .crcMismatch ↔ frameCrc F ≠ frameCrcField F) := by
  simp only [runBackEnd, runValidate_next (s := { s with stage := .validating }) h] at hb
  by_cases hc : frameCrc F = frameCrcField F
  · rw [if_pos hc, andThen_next] at hb
    obtain ⟨s2, h2, hb⟩ := andThen_eq_next.mp hb
    rcases runDecrypt_eq_next h2 with ⟨-, rfl⟩ | ⟨-, iv, bs, -, rfl⟩
    · cases hb
      simp [hc]
    · obtain ⟨s3, h3, hb⟩ := andThen_eq_next.mp hb
      rcases runExtract_eq_next h3 with ⟨-, rfl⟩ | ⟨-, rd, rfl⟩ <;> cases hb <;> simp [hc, completeOk]
  · rw [if_neg hc] at hb
    cases hb
    simp [hc]

/-- The stages after the frame end in `Complete`, and leave the FrameReader, the key, `P`, the script and `value` as they
were (R246). -/
theorem runBackEnd_frame {s t : State} (h : runBackEnd s = .next t) :
    t.stage = .complete ∧
      { t with
        crcCalc := s.crcCalc, iv := s.iv, pt := s.pt, rd := s.rd, stage := s.stage, resValid := s.resValid,
        resOk := s.resOk, err := s.err, results := s.results } = s := by
  obtain ⟨c, rfl | ⟨-, rfl⟩ | ⟨-, iv, bs, -, ⟨-, rfl⟩ | ⟨-, rd, rfl⟩⟩⟩ := runBackEnd_eq_next h <;> exact ⟨rfl, rfl⟩

/-- Settles O29: the frame is stored byte by byte (`receiveAll_frame`), the stages after it answer, and its checksum decides
(`runBackEnd_crc`). -/
theorem frameOfferedWholeCompletes : Obligations.FrameOfferedWholeCompletes := by
  intro s body crc h hP hst hfr hb
  have hlen : s.len = 0 := by
    have hreader := h.frame_reader
    rwa [FrameReaderSound, hfr] at hreader
  obtain ⟨m, hr, hm⟩ := receiveAll_frame hst hfr hlen hb crc
  have hF : HoldsFrame { s with fbuf := m, len := 105, frState := .done } 104 fun i => (frameBytes body crc).getD i 0 :=
    hm.holdsFrame (by rw [length_frameBytes hb]; decide)
  obtain ⟨t, ht⟩ := runBackEnd_answers (s := { s with fbuf := m, len := 105, frState := .done }) hP hF h.key_defined
  obtain ⟨hcrc, herr⟩ := runBackEnd_crc hF ht
  rw [frameCrc_frameBytes hb, frameCrcField_frameBytes hb] at herr
  rw [frameCrc_frameBytes hb] at hcrc
  obtain ⟨hstage, hframe⟩ := runBackEnd_frame ht
  have hfbuf : t.fbuf = m := congrArg State.fbuf hframe
  refine ⟨t, hr.trans ht, hstage, congrArg State.frState hframe, congrArg State.len hframe, ?_, hcrc, herr, ?_⟩
  · rw [hfbuf]; exact hm
  · exact congrArg (fun u => { u with frState := s.frState, len := s.len, fbuf := s.fbuf }) hframe

end Sys2Proof.Machine
end

section
/-! Proofs of the statements about spec/41_frame_reader.md. First the rows as operations and as received bytes (R102, R120 to
R131), then the search for a header (R132), then the stages after the frame, outcome by outcome (R246). -/

namespace Sys2Proof.Machine

/-! ## The operations by themselves (R120 to R129) -/

/-- Settles O7: the map selects `FR.SKIP`, which writes nothing. -/
theorem skipDiscardsByte : Obligations.SkipDiscardsByte :=
  fun _ _ hst hfr hl hb => execFrSkip_selected (selectRx_eq_skip.mpr ⟨hst, hfr, hl, hb, rfl⟩)

/-- After a marker only `FBUF[0]` is defined (R121, R122). -/
theorem read?_startAccumulation (s : State) (a : Nat) :
    (startAccumulation s).fbuf.read? a = if a = 0 then some 0x7E else none := by
  simp [eq_comm]

/-- Settles O8: both rows begin the accumulation anew. -/
theorem markerRestartsAccumulation : Obligations.MarkerRestartsAccumulation := by
  refine fun s hst => ⟨fun hfr hl => ?_, fun hfr hl => ?_⟩
  · exact ⟨_, execFrMark_selected (selectRx_eq_mark.mpr ⟨hst, hfr, hl, rfl⟩), rfl, rfl, read?_startAccumulation s, rfl⟩
  · refine ⟨_, execFrRemark_selected (selectRx_eq_remark.mpr ⟨hst, hfr, hl, rfl⟩), rfl, rfl, read?_startAccumulation s, ?_⟩
    change { s with frState := .matchingHeader } = s
    rw [← hfr]

/-- Settles O9: each row writes one byte. -/
theorem headerBytesAreStored : Obligations.HeaderBytesAreStored := by
  refine fun s hst hfr => ⟨fun hl => ?_, fun hl => ?_⟩
  · exact ⟨_, execFrHdr1_selected (selectRx_eq_hdr1.mpr ⟨hst, hfr, hl, rfl⟩), rfl, fun a => read?_write _ 1 a _, rfl⟩
  · exact ⟨_, execFrHdr2_selected (selectRx_eq_hdr2.mpr ⟨hst, hfr, hl, rfl⟩), rfl, rfl, fun a => read?_write _ 2 a _, rfl⟩

/-- The row of `FR.MISS`: a byte that is no marker and does not continue the header (R102). -/
theorem selects_miss {s : State} {b : Byte} (hst : s.stage = .framing) (hfr : s.frState = .matchingHeader)
    (hb : b ≠ Config.marker) (hmiss : (s.len = 1 ∧ b ≠ Config.hdr1) ∨ (s.len = 2 ∧ b ≠ Config.hdr2)) :
    Selects s b (.miss b) := by
  refine selectRx_eq_miss.mpr ⟨hst, hfr, hmiss.imp And.left And.left, hb, ?_, ?_, rfl⟩ <;> rintro ⟨hl, hh⟩
  · rcases hmiss with ⟨-, hne⟩ | ⟨hl2, -⟩
    · exact hne hh
    · exact absurd (hl.symm.trans hl2) (by decide)
  · rcases hmiss with ⟨hl1, -⟩ | ⟨-, hne⟩
    · exact absurd (hl.symm.trans hl1) (by decide)
    · exact hne hh

/-- Settles O10: `selects_miss`, and `FBUF` is emptied. -/
theorem missGoesBackToSearching : Obligations.MissGoesBackToSearching :=
  fun _ _ hst hfr hb hmiss => ⟨_, execFrMiss_selected (selects_miss hst hfr hb hmiss), rfl, rfl, read?_nil, rfl⟩

/-- While the body is read `LEN` does not wrap. -/
theorem len_succ_toNat {n : BitVec 7} (h : n.toNat ≤ 103) : (n + 1).toNat = n.toNat + 1 := by
  rw [BitVec.toNat_add]
  exact Nat.mod_eq_of_lt (show n.toNat + 1 < 128 by omega)

/-- Settles O11: the byte is written at `LEN`. -/
theorem bodyByteIsAppended : Obligations.BodyByteIsAppended :=
  fun _ _ hst hfr hlow hhigh => ⟨_, execFrBody_selected (selectRx_eq_body.mpr ⟨hst, hfr, hlow, hhigh, rfl⟩),
    len_succ_toNat hhigh, fun a => read?_write _ _ a _, rfl⟩

/-- Settles O12: the byte is written at 104, and the error is raised. -/
theorem badClosingByteIsIncompleteFrame : Obligations.BadClosingByteIsIncompleteFrame := by
  intro s b hst hfr hl hb
  have hsel : Selects s b (.badend b) := selectRx_eq_badend.mpr ⟨hst, hfr, congrArg BitVec.toNat hl, hb, rfl⟩
  exact ⟨_, execFrBadend_selected hsel, rfl, rfl, fun a => read?_write _ 104 a _, rfl, rfl, rfl, rfl, rfl, rfl⟩

/-- Settles O13: the three active states are the timeout's acceptance test. -/
theorem timeoutIsIncompleteFrame : Obligations.TimeoutIsIncompleteFrame :=
  fun _ hst hfr => ⟨_, execFrTimeout_framing hst hfr, rfl, rfl, rfl, rfl, rfl, rfl, rfl⟩

/-! ## The rows as received bytes -/

theorem receive_skip {s : State} {b : Byte} (hst : s.stage = .framing) (hfr : s.frState = .searching) (hl : s.len = 0)
    (hb : b ≠ Config.marker) : receive b s = .next s := by
  have hsel : Selects s b (.skip b) := selectRx_eq_skip.mpr ⟨hst, hfr, hl, hb, rfl⟩
  rw [receive_selected hsel, runRxOp, execFrSkip_selected hsel]

theorem receive_remark {s : State} (hst : s.stage = .framing) (hfr : s.frState = .matchingHeader)
    (hl : s.len = 1 ∨ s.len = 2) : receive Config.marker s = .next (startAccumulation s) := by
  have hsel : Selects s Config.marker .remark := selectRx_eq_remark.mpr ⟨hst, hfr, hl, rfl⟩
  rw [receive_selected hsel, runRxOp, execFrRemark_selected hsel]

theorem receive_miss {s : State} {b : Byte} (hst : s.stage = .framing) (hfr : s.frState = .matchingHeader)
    (hb : b ≠ Config.marker) (hmiss : (s.len = 1 ∧ b ≠ Config.hdr1) ∨ (s.len = 2 ∧ b ≠ Config.hdr2)) :
    receive b s = .next { s with fbuf := [], len := 0, frState := .searching } := by
  have hsel := selects_miss hst hfr hb hmiss
  rw [receive_selected hsel, runRxOp, execFrMiss_selected hsel]

theorem receive_badend {s : State} {b : Byte} (hst : s.stage = .framing) (hfr : s.frState = .readingBody)
    (hl : s.len.toNat = 104) (hb : b ≠ Config.marker) :
    receive b s = .next
      (raiseError .incompleteFrame { s with fbuf := s.fbuf.write 104 b, len := 105, frState := .failed }) := by
  have hsel : Selects s b (.badend b) := selectRx_eq_badend.mpr ⟨hst, hfr, hl, hb, rfl⟩
  rw [receive_selected hsel, runRxOp, execFrBadend_selected hsel]

/-! ## The transition table (R131) -/

/-- The byte selects the operation of its arc, and reaches the state and `LEN` of its arc (R131). -/
def TakesArc (s : State) (b : Byte) : Prop :=
  ∃ t, receive b s = .next t ∧ selectRx s.context b = some (Certificates.arc s.frState s.len.toNat b).1 ∧
    (t.frState, t.len.toNat) = (Certificates.arc s.frState s.len.toNat b).2

theorem takesArc_of_eq {s t : State} {b : Byte} {op : RxOp} (hr : receive b s = .next t)
    (hsel : selectRx s.context b = some op)
    (harc : Certificates.arc s.frState s.len.toNat b = (op, t.frState, t.len.toNat)) : TakesArc s b :=
  ⟨t, hr, by rw [harc, hsel], by rw [harc]⟩

theorem takesArc_searching {s : State} (hst : s.stage = .framing) (hfr : s.frState = .searching) (hl : s.len = 0)
    (b : Byte) : TakesArc s b := by
  by_cases hb : b = Config.marker
  · subst hb
    exact takesArc_of_eq (receive_mark hst hfr hl) (selectRx_eq_mark.mpr ⟨hst, hfr, hl, rfl⟩) (by rw [hfr]; rfl)
  · exact takesArc_of_eq (receive_skip hst hfr hl hb) (selectRx_eq_skip.mpr ⟨hst, hfr, hl, hb, rfl⟩)
      (by rw [hfr, hl]; exact if_neg hb)

theorem takesArc_matchingHeader {s : State} (hst : s.stage = .framing) (hfr : s.frState = .matchingHeader)
    (hl : s.len = 1 ∨ s.len = 2) (b : Byte) : TakesArc s b := by
  by_cases hb : b = Config.marker
  · subst hb
    exact takesArc_of_eq (receive_remark hst hfr hl) (selectRx_eq_remark.mpr ⟨hst, hfr, hl, rfl⟩)
      (by rw [hfr]; rfl)
  have hmissed (hmiss : (s.len = 1 ∧ b ≠ Config.hdr1) ∨ (s.len = 2 ∧ b ≠ Config.hdr2)) : TakesArc s b :=
    takesArc_of_eq (receive_miss hst hfr hb hmiss) (selects_miss hst hfr hb hmiss) (by
      rw [hfr]
      rcases hmiss with ⟨hl, hne⟩ | ⟨hl, hne⟩ <;> rw [hl]
      · exact (if_neg hb).trans (if_neg fun (hh : 1 = 1 ∧ b = Config.hdr1) => hne hh.2)
      · exact (if_neg hb).trans (if_neg fun (hh : 2 = 2 ∧ b = Config.hdr2) => hne hh.2))
  rcases hl with hl | hl
  · by_cases h1 : b = Config.hdr1
    · subst h1
      exact takesArc_of_eq (receive_hdr1 hst hfr hl) (selectRx_eq_hdr1.mpr ⟨hst, hfr, hl, rfl⟩)
        (by rw [hfr, hl]; rfl)
    · exact hmissed (.inl ⟨hl, h1⟩)
  · by_cases h2 : b = Config.hdr2
    · subst h2
      exact takesArc_of_eq (receive_hdr2 hst hfr hl) (selectRx_eq_hdr2.mpr ⟨hst, hfr, hl, rfl⟩)
        (by rw [hfr, hl]; rfl)
    · exact hmissed (.inr ⟨hl, h2⟩)

/-- The stages after the frame leave the FrameReader as the closing marker left it. -/
theorem runBackEnd_keeps_reader {s t : State} (h : runBackEnd s = .next t) :
    t.frState = s.frState ∧ t.len = s.len ∧ t.fbuf = s.fbuf := by
  obtain ⟨c, rfl | ⟨-, rfl⟩ | ⟨-, iv, bs, -, ⟨-, rfl⟩ | ⟨-, rd, rfl⟩⟩⟩ := runBackEnd_eq_next h <;> exact ⟨rfl, rfl, rfl⟩

theorem takesArc_readingBody {s : State} (h : s.Inv) (hP : s.params.WellFormed) (hst : s.stage = .framing)
    (hfr : s.frState = .readingBody) (hlow : 3 ≤ s.len.toNat) (hhigh : s.len.toNat ≤ 104) (b : Byte) : TakesArc s b := by
  by_cases hbody : s.len.toNat ≤ 103
  · exact takesArc_of_eq (receive_body hst hfr hlow hbody b) (selectRx_eq_body.mpr ⟨hst, hfr, hlow, hbody, rfl⟩)
      (by simp only [Certificates.arc, hfr, if_pos hbody, len_succ_toNat hbody])
  have hl : s.len.toNat = 104 := by omega
  by_cases hb : b = Config.marker
  · subst hb
    obtain ⟨t, ht⟩ := receive_answers h hP Config.marker
    obtain ⟨hfr', hl', -⟩ := runBackEnd_keeps_reader ((receive_endFrame hst hfr hl).symm.trans ht)
    exact takesArc_of_eq ht (selectRx_eq_endFrame.mpr ⟨hst, hfr, hl, rfl⟩) (by rw [hfr, hl, hfr', hl']; rfl)
  · exact takesArc_of_eq (receive_badend hst hfr hl hb) (selectRx_eq_badend.mpr ⟨hst, hfr, hl, hb, rfl⟩)
      (by rw [hfr, hl]; exact if_neg hb)

/-- In `Framing` every byte takes its arc: `LEN` is in the range of its active state (R27). -/
theorem takesArc_of_framing {s : State} (h : s.Inv) (hP : s.params.WellFormed) (hst : s.stage = .framing) (b : Byte) :
    TakesArc s b := by
  have hreader := h.frame_reader
  obtain ⟨hactive, -⟩ := h.framing hst
  rcases hactive with hfr | hfr | hfr <;> simp only [FrameReaderSound, hfr] at hreader
  · exact takesArc_searching hst hfr hreader b
  · obtain ⟨-, hl⟩ := hreader
    exact takesArc_matchingHeader hst hfr (hl.imp_right And.left) b
  · obtain ⟨hlow, hhigh, -⟩ := hreader
    exact takesArc_readingBody h hP hst hfr hlow hhigh b

theorem commandReady_of_not_framing {s : State} (h : s.Inv) (hst : s.stage ≠ .framing) : CommandReady s := by
  obtain ⟨hval, hdec, hext⟩ := sound_stage h
  cases hs : s.stage with
  | idle => exact .inl hs
  | complete => exact .inr hs
  | framing => exact absurd hs hst
  | validating => exact absurd hs hval
  | decrypting => exact absurd hs hdec
  | extracting => exact absurd hs hext

theorem runRxOp_not_selected {s : State} {b : Byte} {op : RxOp} (hb : op.toInstr.rxOp = some (b, op))
    (h : selectRx s.context b ≠ some op) : runRxOp op s = .next s := by
  cases op <;> cases hb <;> exact if_neg h

/-- A byte operation is the event `RX` of its byte where the map selects it, and does nothing elsewhere (R42, log 7). -/
theorem exec_of_rxOp {i : Instr} {b : Byte} {op : RxOp} (hi : i.rxOp = some (b, op)) (s : State) :
    exec i s = if selectRx s.context b = some op then receive b s else .next s := by
  obtain ⟨rfl, -⟩ := rxOp_eq_some hi
  rw [exec_toInstr]
  split
  · next h => rw [receive_selected h]
  · next h => exact runRxOp_not_selected hi h

/-- From a sound state only received bytes, a timeout, `START`, `ABORT` and `RESET` move the FrameReader. -/
theorem exec_keeps_reader {i : Instr} {s t : State} (h : s.Inv) (he : exec i s = .next t) (hrx : i.rxOp = none)
    (htimeout : i ≠ .frTimeout) (hstart : i ≠ .start) (habort : i ≠ .abort) (hreset : i ≠ .reset)
    (hframe : ∀ body crc, i ≠ .frame body crc) : t.frState = s.frState ∧ t.len = s.len := by
  cases exec_eq_next_of_sound h he with
  | unchanged | function | loadKey => exact ⟨rfl, rfl⟩
  | reset hi => exact absurd hi hreset
  | abort hi => exact absurd hi habort
  | start hi => exact absurd hi hstart
  | rx b op _ hi => rw [hrx] at hi; cases hi
  | timeout hi => exact absurd hi htimeout
  | frame body crc _ hi => exact absurd hi (hframe body crc)

/-- Settles O14: the arcs are `takesArc_of_framing`, the rows as operations `exec_of_rxOp`, and all else is
`exec_keeps_reader`. -/
theorem frameReaderTransitionTable : Obligations.FrameReaderTransitionTable := by
  intro s h hP
  refine ⟨fun hst => ⟨takesArc_of_framing h hP hst, ?_⟩, fun hended hst => ?_, fun hst => ⟨fun b => ?_, ?_⟩, fun hst => ?_,
    fun hst => ?_, ⟨_, rfl, rfl, rfl⟩, ⟨_, rfl, rfl, rfl⟩, fun i b op hi => exec_of_rxOp hi s, fun _ _ => rfl,
    fun i t => exec_keeps_reader h⟩
  · obtain ⟨hactive, -⟩ := h.framing hst
    exact ⟨_, execFrTimeout_framing hst hactive, rfl, rfl⟩
  · obtain ⟨hactive, -⟩ := h.framing hst
    rcases hended with hfr | hfr <;> simp [hfr] at hactive
  · exact receive_not_accepted (selectRx_not_framing hst b)
  · exact execFrTimeout_dropped hst
  · exact ⟨_, execStart_accepted (commandReady_of_not_framing h hst), rfl, rfl⟩
  · exact execStart_dropped (not_commandReady_of_framing hst)

/-! ## The search for a header (R132) -/

/-- The header of a frame (R90). -/
abbrev headerBytes : List Byte := [Config.marker, Config.hdr1, Config.hdr2]

/-- A search in which the last bytes received, `pre`, are the beginning of a header, as far as it is matched. -/
inductive Matching (s : State) : List Byte → Prop
  | nothing (hst : s.stage = .framing) (hfr : s.frState = .searching) (hl : s.len = 0) : Matching s []
  | marker (hst : s.stage = .framing) (hfr : s.frState = .matchingHeader) (hl : s.len = 1) : Matching s [Config.marker]
  | hdr1 (hst : s.stage = .framing) (hfr : s.frState = .matchingHeader) (hl : s.len = 2) :
      Matching s [Config.marker, Config.hdr1]

theorem Matching.stage {s : State} {pre : List Byte} (h : Matching s pre) : s.stage = .framing := by
  cases h <;> assumption

/-- However much of a header is matched, a marker begins the next one (R121, R122). -/
theorem Matching.receive_marker {s : State} {pre : List Byte} (h : Matching s pre) :
    receive Config.marker s = .next (startAccumulation s) := by
  cases h with
  | nothing hst hfr hl => exact receive_mark hst hfr hl
  | marker hst hfr hl => exact receive_remark hst hfr (.inl hl)
  | hdr1 hst hfr hl => exact receive_remark hst hfr (.inr hl)

/-- A byte that does not complete the header leaves a search; what it has matched ends what was matched before and the byte. -/
theorem Matching.receive {s : State} {pre : List Byte} (h : Matching s pre) {b : Byte} (hb : pre ++ [b] ≠ headerBytes) :
    ∃ m n f pre', receive b s = .next { s with fbuf := m, len := n, frState := f } ∧
      Matching { s with fbuf := m, len := n, frState := f } pre' ∧ pre' <:+ pre ++ [b] := by
  by_cases hm : b = Config.marker
  · subst hm
    exact ⟨_, _, _, _, h.receive_marker, .marker h.stage rfl rfl, List.suffix_append _ _⟩
  cases h with
  | nothing hst hfr hl => exact ⟨_, _, _, _, receive_skip hst hfr hl hm, .nothing hst hfr hl, List.nil_suffix⟩
  | marker hst hfr hl =>
    by_cases h1 : b = Config.hdr1
    · subst h1
      exact ⟨_, _, _, _, receive_hdr1 hst hfr hl, .hdr1 hst hfr rfl, List.suffix_refl _⟩
    · exact ⟨_, _, _, _, receive_miss hst hfr hm (.inl ⟨hl, h1⟩), .nothing hst rfl rfl, List.nil_suffix⟩
  | hdr1 hst hfr hl =>
    have h2 : b ≠ Config.hdr2 := fun h2 => hb (by rw [h2]; rfl)
    exact ⟨_, _, _, _, receive_miss hst hfr hm (.inr ⟨hl, h2⟩), .nothing hst rfl rfl, List.nil_suffix⟩

/-- Bytes that contain no header, also not together with what was matched before them, leave a search. -/
theorem Matching.receiveAll {s : State} {pre g : List Byte} (h : Matching s pre) (hg : ¬headerBytes <:+: pre ++ g) :
    ∃ m n f pre', receiveAll g s = .next { s with fbuf := m, len := n, frState := f } ∧
      Matching { s with fbuf := m, len := n, frState := f } pre' := by
  induction g generalizing s pre with
  | nil => exact ⟨_, _, _, _, rfl, h⟩
  | cons b g ih =>
    rw [List.append_cons] at hg
    obtain ⟨m, n, f, pre', hr, h', before, hbefore⟩ :=
      h.receive (b := b) fun heq => hg ⟨[], g, by rw [heq]; rfl⟩
    have hg' : ¬headerBytes <:+: pre' ++ g := fun hin => hg (hin.trans ⟨before, [], by rw [← hbefore]; simp⟩)
    obtain ⟨m, n, f, pre'', hrs, h''⟩ := ih h' hg'
    exact ⟨m, n, f, pre'', by rw [receiveAll_cons, hr, andThen_next, hrs], h''⟩

/-- A header is locked on from every search, as from one that has matched nothing: its marker drops what was accumulated
(R121 to R124). -/
theorem Matching.receiveAll_header {s : State} {pre : List Byte} (h : Matching s pre) :
    ∃ m, Machine.receiveAll headerBytes s = .next { s with fbuf := m, len := 3, frState := .readingBody } ∧
      m.Reads headerBytes := by
  obtain ⟨m, hr, hm⟩ := Machine.receiveAll_header (s := { s with frState := .searching, len := 0 }) h.stage rfl rfl
  rw [receiveAll_cons, receive_mark (s := { s with frState := .searching, len := 0 }) h.stage rfl rfl] at hr
  refine ⟨m, ?_, hm⟩
  rw [receiveAll_cons, h.receive_marker]
  exact hr

/-- An attempt up to its last byte: the first header is locked on, and the 101 bytes after it are stored (R132). -/
theorem receiveAll_attempt {s : State} {g body : List Byte} (hst : s.stage = .framing) (hfr : s.frState = .searching)
    (hl : s.len = 0) (hg : ¬headerBytes <:+: g) (hb : body.length = 101) :
    ∃ m, receiveAll (g ++ headerBytes ++ body) s = .next { s with fbuf := m, len := 104, frState := .readingBody } ∧
      m.Reads (headerBytes ++ body) := by
  obtain ⟨m1, n1, f1, pre, hr1, hmatch⟩ := (Matching.nothing hst hfr hl).receiveAll hg
  obtain ⟨m3, hr3, hm3⟩ := hmatch.receiveAll_header
  obtain ⟨m, n, hr, hm, hn⟩ := receiveAll_body (s := { s with fbuf := m3, len := 3, frState := .readingBody }) (bs := body)
    hst rfl hm3 rfl (Nat.le_refl 3) (by simp [hb])
  have hn104 : n = 104 := BitVec.eq_of_toNat_eq (by simpa [hb] using hn)
  subst hn104
  refine ⟨m, ?_, hm⟩
  rw [receiveAll_append, receiveAll_append, hr1, andThen_next, hr3, andThen_next, hr]

/-- An attempt that ends in the closing marker reaches the stages after the frame with its 105 bytes stored (R127). -/
theorem receiveAll_delimited {s : State} {g body : List Byte} (hst : s.stage = .framing) (hfr : s.frState = .searching)
    (hl : s.len = 0) (hg : ¬headerBytes <:+: g) (hb : body.length = 101) :
    ∃ m, receiveAll (g ++ headerBytes ++ body ++ [Config.marker]) s =
        runBackEnd { s with fbuf := m, len := 105, frState := .done } ∧
      m.Reads (headerBytes ++ body ++ [Config.marker]) := by
  obtain ⟨m, hr, hm⟩ := receiveAll_attempt hst hfr hl hg hb
  refine ⟨m.write 104 Config.marker, ?_, hm.write (by simp [hb]) Config.marker⟩
  rw [receiveAll_append, hr, andThen_next, receiveAll_singleton]
  exact receive_endFrame (s := { s with fbuf := m, len := 104, frState := .readingBody }) hst rfl rfl

/-- Where no header starts in `g` followed by other bytes, `g` contains none. -/
theorem no_header_of_no_start {g tail : List Byte} (h : ∀ p, p < g.length → ((g ++ tail).drop p).take 3 ≠ headerBytes) :
    ¬headerBytes <:+: g := by
  rintro ⟨before, after, rfl⟩
  refine h before.length (by simp) ?_
  rw [List.append_assoc, List.append_assoc, List.drop_left]
  rfl

theorem State.Inv.len_of_searching {s : State} (h : s.Inv) (hfr : s.frState = .searching) : s.len = 0 := by
  have hreader := h.frame_reader
  rwa [FrameReaderSound, hfr] at hreader

/-- Settles O27: `receiveAll_attempt`, then the two rows of the last byte. -/
theorem attemptLocksOnFirstHeader : Obligations.AttemptLocksOnFirstHeader := by
  intro s g body e h hP hst hfr hb hg
  have hl := h.len_of_searching hfr
  have hno := no_header_of_no_start hg
  obtain ⟨m, hr, hm⟩ := receiveAll_attempt hst hfr hl hno hb
  refine ⟨⟨_, hr, hst, rfl, rfl⟩, ?_⟩
  by_cases he : e = Config.marker
  · subst he
    obtain ⟨m, hr, hm⟩ := receiveAll_delimited hst hfr hl hno hb
    obtain ⟨t, ht⟩ := runBackEnd_answers (s := { s with fbuf := m, len := 105, frState := .done }) hP
      (hm.holdsFrame (by simp [hb])) h.key_defined
    obtain ⟨hstage, -⟩ := runBackEnd_frame ht
    obtain ⟨hfr', hl', hfbuf⟩ := runBackEnd_keeps_reader ht
    exact ⟨t, hr.trans ht, hstage, hl', hfr', fun i => by rw [hfbuf]; exact hm i⟩
  · have hlast : receiveAll (g ++ headerBytes ++ body ++ [e]) s = .next (raiseError .incompleteFrame
        { s with fbuf := m.write 104 e, len := 105, frState := .failed }) := by
      rw [receiveAll_append, hr, andThen_next, receiveAll_singleton]
      exact receive_badend (s := { s with fbuf := m, len := 104, frState := .readingBody }) hst rfl rfl he
    exact ⟨_, hlast, rfl, rfl, (if_neg he).symm, hm.write (by simp [hb]) e⟩

/-! ## The stages after the frame, outcome by outcome (R246) -/

theorem read?_ofBytes_range (n : Nat) (f : Nat → Byte) (i : Nat) :
    (Memory.ofBytes 0 ((List.range n).map f)).read? i = if i < n then some (f i) else none := by
  rw [read?_ofBytes_zero, List.getElem?_map]
  split
  · next hi => rw [List.getElem?_range hi, Option.map_some]
  · next hi => rw [List.getElem?_eq_none (by simpa using hi), Option.map_none]

/-- `extract` on a defined PlainText whose fields fit writes the eight fields, each read at its own offset (R225). -/
theorem runExtract_fields {s : State} {f : Nat → Byte} (hP : s.params.WellFormed) (hf : s.params.FieldsFit)
    (h : ∀ j, j < s.params.lenCt → s.pt.read? j = some (f j)) :
    ∃ rd, runExtract s = .next { s with rd := some rd } ∧ ∀ k : Fin 8, rd[k] = fieldAt f s.params.offFld[k] :=
  ⟨_, runExtract_next hP hf h, fun k => by fin_cases k <;> rfl⟩

/-- `s` with what `decrypt` writes for the frame `F` after its checksum was found right (R195). -/
def decrypted (key : Block) (F : Nat → Byte) (s : State) : State :=
  { s with
    crcCalc := some (frameCrc F), iv := some (frameIv s.params F),
    pt := Memory.ofBytes 0 ((List.range s.params.lenCt).map (framePlain s.params key F)) }

section
variable {s : State} {F : Nat → Byte} (h : HoldsFrame s 104 F)
include h

/-- A wrong CRC field ends the stages at `validate` (R159). -/
theorem runBackEnd_wrong_crc (hcrc : frameCrc F ≠ frameCrcField F) :
    runBackEnd s = .next (raiseError .crcMismatch { s with crcCalc := some (frameCrc F) }) := by
  rw [runBackEnd, runValidate_next (s := { s with stage := .validating }) h, if_neg hcrc]
  rfl

variable (hcrc : frameCrc F = frameCrcField F) (hP : s.params.WellFormed)
include hcrc hP

/-- Without a key the stages end at `decrypt` (R170, R195). -/
theorem runBackEnd_no_key (hk : s.keyValid = false) :
    runBackEnd s = .next (raiseError .decryptionFailure { s with crcCalc := some (frameCrc F) }) := by
  rw [runBackEnd, runValidate_next (s := { s with stage := .validating }) h, if_pos hcrc, andThen_next, thenStage,
    if_pos rfl, runDecrypt_no_key (s := { s with crcCalc := some (frameCrc F), stage := .decrypting }) hP hk]
  rfl

variable {key : Block} (hv : s.keyValid = true) (hk : s.key = some key)
include hv hk

/-- With a key, `extract` runs on the decryption of the frame. -/
theorem runBackEnd_decrypted :
    runBackEnd s = andThen (runExtract { decrypted key F s with stage := .extracting }) fun s3 =>
      if s3.stage = .extracting then runComplete s3 else .next s3 := by
  have h102 : HoldsFrame s 102 F := fun a ha => h a (by omega)
  rw [runBackEnd, runValidate_next (s := { s with stage := .validating }) h, if_pos hcrc, andThen_next, thenStage,
    if_pos rfl, runDecrypt_next (s := { s with crcCalc := some (frameCrc F), stage := .decrypting }) hP h102 hv hk]
  rfl

/-- A field outside the PlainText ends the stages at `extract` (R226). -/
theorem runBackEnd_misfit (hf : ¬s.params.FieldsFit) :
    runBackEnd s = .next (raiseError .fieldOutOfRange (decrypted key F s)) := by
  rw [runBackEnd_decrypted h hcrc hP hv hk,
    runExtract_misfit (s := { decrypted key F s with stage := .extracting }) hP hf]
  rfl

/-- Where nothing is wrong the stages end with the fields of the frame's decryption as the Reading (R225, R249). -/
theorem runBackEnd_ok (hf : s.params.FieldsFit) :
    ∃ rd, runBackEnd s = .next (completeOk rd { decrypted key F s with rd := some rd }) ∧
      ∀ k : Fin 8, rd[k] = fieldAt (framePlain s.params key F) s.params.offFld[k] := by
  have hpt : ∀ j, j < s.params.lenCt → (decrypted key F s).pt.read? j = some (framePlain s.params key F j) :=
    fun j hj => (read?_ofBytes_range _ _ j).trans (if_pos hj)
  obtain ⟨rd, hrun, hrd⟩ := runExtract_fields (s := { decrypted key F s with stage := .extracting }) hP hf hpt
  refine ⟨rd, ?_, hrd⟩
  rw [runBackEnd_decrypted h hcrc hP hv hk, hrun]
  rfl

end

/-- Every outcome of the stages after the frame is reported once, as the flags say (R249, R266). -/
theorem runBackEnd_reports {s t : State} (h : runBackEnd s = .next t) :
    t.resValid = true ∧ (t.resOk = true ↔ t.err = none) ∧
      (∀ e, t.err = some e → t.results = s.results ++ [.err e]) ∧
      (t.err = none → ∃ rd, t.rd = some rd ∧ t.results = s.results ++ [.ok (readingOf rd)]) := by
  obtain ⟨c, rfl | ⟨-, rfl⟩ | ⟨-, iv, bs, -, ⟨-, rfl⟩ | ⟨-, rd, rfl⟩⟩⟩ := runBackEnd_eq_next h
  case inr.inr.inr => exact ⟨rfl, iff_of_true rfl rfl, nofun, fun _ => ⟨rd, rfl, rfl⟩⟩
  all_goals exact ⟨rfl, by simp, fun e he => by cases he; rfl, nofun⟩

theorem execFrEnd_framing {s : State} (hst : s.stage = .framing) (hfr : s.frState = .readingBody) (hl : s.len = 104) :
    execFrEnd s = runBackEnd { s with fbuf := s.fbuf.write 104 Config.marker, len := 105, frState := .done } :=
  execFrEnd_selected (selectRx_eq_endFrame.mpr ⟨hst, hfr, congrArg BitVec.toNat hl, rfl⟩)

/-- The byte stored at the end of a frame leaves the bytes before it. -/
theorem HoldsFrame.storeLast {s : State} {F : Nat → Byte} (h : HoldsFrame s 104 F) (b : Byte) (n : BitVec 7) (f : FrState) :
    HoldsFrame { s with fbuf := s.fbuf.write 104 b, len := n, frState := f } 104 F :=
  fun a ha => (read?_write_other _ _ (by omega)).trans (h a ha)

/-- Settles O24: the stages answer once, and what they answer is said by the lemma of each outcome. -/
theorem frameEndReportsFirstError : Obligations.FrameEndReportsFirstError := by
  intro s F hst hfr hl hP hkey hF0
  have hF := hF0.storeLast Config.marker 105 .done
  obtain ⟨t, ht⟩ := runBackEnd_answers
    (s := { s with fbuf := s.fbuf.write 104 Config.marker, len := 105, frState := .done }) hP hF hkey
  obtain ⟨hstage, hframe⟩ := runBackEnd_frame ht
  obtain ⟨hfr', hl', hfbuf⟩ := runBackEnd_keeps_reader ht
  obtain ⟨hvalid, hok, herr, hres⟩ := runBackEnd_reports ht
  obtain ⟨hcrc, -⟩ := runBackEnd_crc hF ht
  refine ⟨t, (execFrEnd_framing hst hfr hl).trans ht, hfr', hl', fun a => by rw [hfbuf]; exact read?_write _ 104 a _,
    hstage, hvalid, hcrc, fun hne => ?_, fun heq hk => ?_, fun heq hk => ?_, hok, herr, hres,
    congrArg (fun u => { u with frState := s.frState, len := s.len, fbuf := s.fbuf }) hframe⟩
  · cases ht.symm.trans (runBackEnd_wrong_crc hF hne)
    exact ⟨rfl, rfl, rfl, rfl⟩
  · cases ht.symm.trans (runBackEnd_no_key hF heq hP hk)
    exact ⟨rfl, rfl, rfl, rfl⟩
  · obtain ⟨key, hkey'⟩ := Option.isSome_iff_exists.mp (hkey.trans hk)
    simp only [hkey', Option.some.injEq]
    by_cases hf : s.params.FieldsFit
    · obtain ⟨rd, hrun, hrd⟩ := runBackEnd_ok hF heq hP hk hkey' hf
      cases ht.symm.trans hrun
      refine ⟨rfl, ?_, fun hn => absurd hf hn, fun _ => ⟨rfl, ?_⟩⟩
      · rintro _ i rfl; exact read?_ofBytes_range _ _ i
      · rintro _ rfl; exact ⟨rd, rfl, hrd⟩
    · cases ht.symm.trans (runBackEnd_misfit hF heq hP hk hkey' hf)
      refine ⟨rfl, ?_, fun _ => ⟨rfl, rfl⟩, fun hfit => absurd hfit hf⟩
      rintro _ i rfl; exact read?_ofBytes_range _ _ i

/-- Settles O25: the search passes over `g`, the frame is stored byte by byte, and nothing is wrong with it. -/
theorem validFrameDecodesToItsFields : Obligations.ValidFrameDecodesToItsFields := by
  intro s g body crc key h hP hf hst hfr hv hk hb hg hcrc
  have hparts : g ++ frameBytes body crc =
      g ++ headerBytes ++ (body ++ beBytes 2 crc.toNat) ++ [Config.marker] := by simp [frameBytes]
  obtain ⟨m, hr, hm⟩ := receiveAll_delimited (body := body ++ beBytes 2 crc.toNat) hst hfr (h.len_of_searching hfr)
    (no_header_of_no_start hg) (by simp [hb])
  have hF : HoldsFrame { s with fbuf := m, len := 105, frState := .done } 104 fun i => (frameBytes body crc).getD i 0 :=
    Memory.Reads.holdsFrame hm (by rw [length_frameBytes hb]; decide)
  obtain ⟨rd, hrun, hrd⟩ := runBackEnd_ok hF (by rw [frameCrc_frameBytes hb, frameCrcField_frameBytes hb, hcrc]) hP hv hk hf
  have hall := hr.trans hrun
  rw [← hparts] at hall
  exact ⟨_, rd, hall, rfl, rfl, rfl, hrd, rfl⟩

end Sys2Proof.Machine
end

section
/-! Proofs of the statements about spec/42_crc_validator.md. First `mirror8` as the reversal of a byte's bits (R150), then
the update as eight shifts of the register with the byte brought in (R153), then the two bytes of the result (R156, R157). The
reversal of all 16 bits carries each of these to its counterpart in CRC-16/X-25 (R160). -/

namespace Sys2Proof.Machine

open Sys2Proof.Certificates

/-! ## `mirror8` (R150) -/

theorem mirror8_eq_reverse (b : Byte) : mirror8 b = b.reverse := by
  apply BitVec.eq_of_getLsbD_eq
  intro i hi
  rw [BitVec.getLsbD_reverse, BitVec.getMsbD_eq_getLsbD, mirror8]
  interval_cases i <;> simp

theorem mirror8_mirror8 (b : Byte) : mirror8 (mirror8 b) = b := by
  rw [mirror8_eq_reverse, mirror8_eq_reverse, BitVec.reverse_reverse_eq]

theorem mirror8_injective : Function.Injective mirror8 :=
  Function.LeftInverse.injective mirror8_mirror8

theorem getLsbD_mirror8 (b : Byte) {i : Nat} (hi : i < 8) : (mirror8 b).getLsbD i = b.getLsbD (7 - i) := by
  rw [mirror8_eq_reverse, BitVec.getLsbD_reverse, BitVec.getMsbD_eq_getLsbD, decide_eq_true hi, Bool.true_and]

/-! ## Reversing all bits of a word -/

theorem reverse_injective {w : Nat} : Function.Injective (BitVec.reverse (w := w)) :=
  Function.LeftInverse.injective fun _ => BitVec.reverse_reverse_eq

theorem reverse_xor {w : Nat} (x y : BitVec w) : (x ^^^ y).reverse = x.reverse ^^^ y.reverse := by
  apply BitVec.eq_of_getLsbD_eq
  intro i _
  simp only [BitVec.getLsbD_reverse, BitVec.getLsbD_xor, BitVec.getMsbD_xor]

theorem reverse_shiftLeft_one (x : Half) : (x <<< 1).reverse = x.reverse >>> 1 := by
  apply BitVec.eq_of_getLsbD_eq
  intro i _
  rw [BitVec.getLsbD_reverse, BitVec.getLsbD_ushiftRight, BitVec.getLsbD_reverse, BitVec.getMsbD_shiftLeft, Nat.add_comm]

/-! ## Two bytes in 16 bits -/

theorem append_eq_shiftLeft_or (a b : Byte) : a ++ b = a.setWidth 16 <<< 8 ||| b.setWidth 16 := by
  apply BitVec.eq_of_toNat_eq
  have ha : a.toNat < 2 ^ 8 := a.isLt
  have hb : b.toNat < 2 ^ 8 := b.isLt
  rw [toNat_append8, BitVec.toNat_or, BitVec.toNat_shiftLeft, BitVec.toNat_setWidth_of_le (by decide),
    BitVec.toNat_setWidth_of_le (by decide), Nat.shiftLeft_eq, Nat.mod_eq_of_lt (by omega), ← Nat.shiftLeft_eq,
    ← Nat.shiftLeft_add_eq_or_of_lt hb, Nat.shiftLeft_eq]

theorem append_halves (r : Half) : (r >>> 8).setWidth 8 ++ r.setWidth 8 = r := by
  apply BitVec.eq_of_toNat_eq
  have hr : r.toNat < 2 ^ 16 := r.isLt
  rw [toNat_append8, BitVec.toNat_setWidth, BitVec.toNat_setWidth, BitVec.toNat_ushiftRight, Nat.shiftRight_eq_div_pow]
  omega

theorem append_byte_inj {a b c d : Byte} (h : a ++ b = c ++ d) : a = c ∧ b = d := by
  have hn := congrArg BitVec.toNat h
  rw [toNat_append8, toNat_append8] at hn
  constructor <;> bv_omega

theorem reverse_append_byte (a b : Byte) : (a ++ b : Half).reverse = b.reverse ++ a.reverse :=
  BitVec.reverse_append

/-- The exchange of R160 puts the low byte first. -/
theorem exchange_append (a b : Byte) : (((a ++ b : Half) &&& 0xFF) <<< 8) ||| ((a ++ b : Half) >>> 8) = b ++ a := by
  have hb : b.toNat < 2 ^ 8 := b.isLt
  have hlow : (a ++ b : Half) &&& 0xFF = b.setWidth 16 := by
    apply BitVec.eq_of_toNat_eq
    rw [BitVec.toNat_and, toNat_append8, BitVec.toNat_setWidth_of_le (by decide)]
    exact (Nat.and_two_pow_sub_one_eq_mod _ 8).trans (by omega)
  have hhigh : (a ++ b : Half) >>> 8 = a.setWidth 16 := by
    apply BitVec.eq_of_toNat_eq
    rw [BitVec.toNat_ushiftRight, toNat_append8, BitVec.toNat_setWidth_of_le (by decide), Nat.shiftRight_eq_div_pow]
    omega
  rw [hlow, hhigh, append_eq_shiftLeft_or]

/-! ## The update (R153) -/

theorem crcShifts_eq_iterate (n : Nat) : crcShifts n = crcShift^[n] := by
  funext reg
  induction n generalizing reg with
  | zero => rfl
  | succ n ih => exact ih (crcShift reg)

theorem times_eq_iterate {α : Type} (f : α → α) (n : Nat) : times f n = f^[n] := by
  funext a
  induction n generalizing a with
  | zero => rfl
  | succ n ih => exact ih (f a)

/-- The mirrored byte at the top of the register's width, as the update brings it in (R153). -/
def crcInput (b : Byte) : Half :=
  (mirror8 b).setWidth 16 <<< 8

theorem crc16Update_eq_iterate (reg : Half) (b : Byte) : crc16Update reg b = crcShift^[8] (reg ^^^ crcInput b) :=
  congrFun (crcShifts_eq_iterate 8) _

theorem crcInput_eq_append (b : Byte) : crcInput b = mirror8 b ++ (0 : Byte) :=
  ((append_eq_shiftLeft_or _ 0).trans (BitVec.or_zero)).symm

theorem reverse_crcInput (b : Byte) : (crcInput b).reverse = b.setWidth 16 :=
  calc (crcInput b).reverse
      = (0 : Byte).reverse ++ (mirror8 b).reverse := by rw [crcInput_eq_append]; exact reverse_append_byte _ _
    _ = (0 : Byte) ++ b := by rw [mirror8_eq_reverse, BitVec.reverse_reverse_eq]; rfl
    _ = b.setWidth 16 := (append_eq_shiftLeft_or 0 b).trans BitVec.zero_or

theorem crcInput_injective : Function.Injective crcInput := by
  intro b c h
  have hwide : b.setWidth 16 = c.setWidth 16 := by rw [← reverse_crcInput, ← reverse_crcInput, h]
  simpa using congrArg (BitVec.setWidth 8) hwide

/-- The polynomial has bit 0 set, so the bit that a shift discards stands in bit 0 of what it leaves. -/
theorem getLsbD_crcShift_zero (reg : Half) : (crcShift reg).getLsbD 0 = reg.getLsbD 15 := by
  rw [crcShift]
  split
  · next h => simp [h]
  · next h => simpa using h

theorem crcShift_injective : Function.Injective crcShift := by
  intro x y h
  have htop : x.getLsbD 15 = y.getLsbD 15 := by rw [← getLsbD_crcShift_zero, ← getLsbD_crcShift_zero, h]
  have hrest : x <<< 1 = y <<< 1 := by
    rw [crcShift, crcShift, htop] at h
    split at h
    · exact (BitVec.xor_left_inj _).mp h
    · exact h
  apply BitVec.eq_of_getLsbD_eq
  intro i hi
  by_cases h15 : i = 15
  · rw [h15, htop]
  · have hbit := congrArg (BitVec.getLsbD · (i + 1)) hrest
    simpa [hi, show i + 1 < 16 by omega] using hbit

theorem crc16Update_injective_reg (b : Byte) : Function.Injective (crc16Update · b) := by
  intro x y h
  simp only [crc16Update_eq_iterate] at h
  exact (BitVec.xor_left_inj _).mp (crcShift_injective.iterate 8 h)

theorem crc16Update_injective_byte (reg : Half) : Function.Injective (crc16Update reg) := by
  intro b c h
  simp only [crc16Update_eq_iterate] at h
  exact crcInput_injective ((BitVec.xor_right_inj _).mp (crcShift_injective.iterate 8 h))

theorem crcBytes_injective (bs : List Byte) : Function.Injective (crcBytes · bs) := by
  induction bs with
  | nil => exact Function.injective_id
  | cons b bs ih =>
    intro x y h
    simp only [crcBytes, computed_eq] at h
    exact crc16Update_injective_reg b (ih h)

/-! ## The bit-serial form (R153) -/

/-- The register that holds both operands of the bit-serial form makes one shift where that form makes one bit. -/
theorem semiconj_xor_serialBit : Function.Semiconj (fun p : Half × Half => p.1 ^^^ p.2) serialBit crcShift := by
  rintro ⟨reg, c⟩
  simp only [serialBit, crcShift]
  split
  · rw [BitVec.shiftLeft_xor_distrib, BitVec.xor_assoc, BitVec.xor_assoc, BitVec.xor_comm (c <<< 1)]
  · rw [BitVec.shiftLeft_xor_distrib]

theorem snd_serialBit_iterate (n : Nat) (reg c : Half) : (serialBit^[n] (reg, c)).2 = c <<< n := by
  induction n with
  | zero => simp
  | succ n ih => rw [Function.iterate_succ_apply', BitVec.shiftLeft_add, ← ih]; rfl

theorem crcInput_shiftLeft (b : Byte) : crcInput b <<< 8 = 0 := by
  rw [crcInput, ← BitVec.shiftLeft_add]
  exact BitVec.shiftLeft_eq_zero (le_refl 16)

/-- After eight bits nothing of the byte is left beside the register. -/
theorem crc16Update_eq_serial (reg : Half) (b : Byte) : crc16Update reg b = (times serialBit 8 (reg, crcInput b)).1 := by
  rw [times_eq_iterate]
  have hreg := semiconj_xor_serialBit.iterate_right 8 (reg, crcInput b)
  calc crc16Update reg b
      = (serialBit^[8] (reg, crcInput b)).1 ^^^ (serialBit^[8] (reg, crcInput b)).2 :=
        (crc16Update_eq_iterate reg b).trans hreg.symm
    _ = (serialBit^[8] (reg, crcInput b)).1 := by
        rw [snd_serialBit_iterate, crcInput_shiftLeft]; exact BitVec.xor_zero

/-! ## The result (R156, R157) -/

theorem crcFinish_eq_append (reg : Half) :
    crcFinish reg = mirror8 (((reg ^^^ 0xFFFF) >>> 8).setWidth 8) ++ mirror8 ((reg ^^^ 0xFFFF).setWidth 8) :=
  (append_eq_shiftLeft_or _ _).symm

theorem crcFinish_injective : Function.Injective crcFinish := by
  intro x y h
  rw [crcFinish_eq_append, crcFinish_eq_append] at h
  obtain ⟨hhigh, hlow⟩ := append_byte_inj h
  have hr := append_halves (x ^^^ 0xFFFF)
  rw [mirror8_injective hhigh, mirror8_injective hlow, append_halves] at hr
  exact (BitVec.xor_left_inj _).mp hr.symm

/-! ## CRC-16/X-25 (R160) -/

/-- Reversed, a shift of the register is one bit of CRC-16/X-25. -/
theorem semiconj_reverse_crcShift : Function.Semiconj BitVec.reverse crcShift x25Bit := by
  intro reg
  have hpoly : Config.crcPoly.reverse = 0x8408 := by decide
  have htop : reg.reverse.getLsbD 0 = reg.getLsbD 15 := by
    rw [BitVec.getLsbD_reverse, BitVec.getMsbD_eq_getLsbD]; rfl
  rw [crcShift, x25Bit, htop]
  split
  · rw [reverse_xor, reverse_shiftLeft_one, hpoly]
  · exact reverse_shiftLeft_one reg

theorem reverse_crc16Update (reg : Half) (b : Byte) :
    (crc16Update reg b).reverse = times x25Bit 8 (reg.reverse ^^^ b.setWidth 16) := by
  rw [crc16Update_eq_iterate, semiconj_reverse_crcShift.iterate_right 8, reverse_xor, reverse_crcInput, times_eq_iterate]

theorem x25_eq_reverse (seq : List Byte) : x25 seq = (crcBytes 0xFFFF seq ^^^ 0xFFFF).reverse := by
  have hones : (0xFFFF : Half).reverse = 0xFFFF := by decide
  have hfold := List.foldl_hom BitVec.reverse (l := seq) (init := (0xFFFF : Half)) (g₁ := crc16Update)
    (g₂ := fun r b => times x25Bit 8 (r ^^^ b.setWidth 16)) fun reg b => (reverse_crc16Update reg b).symm
  rw [x25, reverse_xor, hones, crcBytes_eq_foldl, ← hfold, hones]

/-- Mirroring the bytes one by one is reversing all 16 bits and exchanging the bytes. -/
theorem mirror_bytes_eq_exchange (a b : Byte) :
    mirror8 a ++ mirror8 b = (((a ++ b : Half).reverse &&& 0xFF) <<< 8) ||| ((a ++ b : Half).reverse >>> 8) := by
  rw [reverse_append_byte, mirror8_eq_reverse, mirror8_eq_reverse]
  exact (exchange_append _ _).symm

/-! ## The statements -/

theorem exec_validate_validating {s : State} (h : s.stage = .validating) : exec .validate s = runValidate s :=
  performIf_pos h _ _

theorem exec_crc16Update (reg : Half) (b : Byte) (s : State) :
    exec (.crc16Update reg b) s = .next { s with value := .half (crc16Update reg b) } := rfl

/-- Settles O16: `runValidate_next` says both outcomes. -/
theorem validateComparesChecksum : Obligations.ValidateComparesChecksum := by
  intro s F hst hF
  rw [exec_validate_validating hst, runValidate_next hF]
  by_cases hcrc : frameCrc F = frameCrcField F
  · rw [if_pos hcrc]
    exact ⟨_, rfl, rfl, fun _ => rfl, fun hne => absurd hcrc hne⟩
  · rw [if_neg hcrc]
    exact ⟨_, rfl, rfl, fun heq => absurd heq hcrc, fun _ => ⟨rfl, rfl, rfl, rfl, rfl, rfl⟩⟩

/-- Settles O30: `mirror8` is the reversal of a byte. -/
theorem mirror8ReversesBits : Obligations.Mirror8ReversesBits :=
  fun _ b => ⟨mirror8 b, rfl, fun _ hi => getLsbD_mirror8 b hi, mirror8_mirror8 b⟩

/-- Settles O31: the serial form keeps register and byte apart, the update keeps their exclusive-or. -/
theorem crcUpdateIsBitSerial : Obligations.CrcUpdateIsBitSerial := by
  intro s reg b
  rw [exec_crc16Update, crc16Update_eq_serial, crcInput]

/-- Settles O32: the register is the fold of the update, the result its two complemented and mirrored bytes. -/
theorem crcOfASequence : Obligations.CrcOfASequence := by
  refine ⟨fun s seq => ⟨crc16 seq, seq.foldl crc16Update 0xFFFF ^^^ 0xFFFF, rfl, rfl, ?_⟩, by decide⟩
  rw [crc16, crcFinish_eq_append, crcBytes_eq_foldl]

/-- Settles O33: both are made of the bytes of one complemented register, reversed. -/
theorem crcIsByteSwappedX25 : Obligations.CrcIsByteSwappedX25 := by
  intro seq
  rw [x25_eq_reverse, crc16, crcFinish_eq_append, mirror_bytes_eq_exchange, append_halves]

/-- Settles O34: the registers differ once the byte is absorbed, and every later operation keeps different registers
different. -/
theorem singleByteChangeChangesCrc : Obligations.SingleByteChangeChangesCrc := by
  intro pre post b c hbc h
  have hreg := crcFinish_injective h
  simp only [crcBytes_append, crcBytes, computed_eq] at hreg
  exact hbc (crc16Update_injective_byte _ (crcBytes_injective post hreg))

end Sys2Proof.Machine
end

section
/-! Proofs of the statements about spec/43_frame_decryptor.md. First the IV by its bytes (R171) and the stage operations, then
the counter blocks and the exclusive-or (R190 to R193), then the steps of AES-128 by row and column (R175 to R180), the key
schedule (R181) and the rounds (R186). That the cipher is a bijection is assembled from its steps: each is undone, `ShiftRows`
and `MixColumns` by their own third iterate. -/

namespace Sys2Proof.Machine

open Sys2Proof.Certificates

/-! ## The IV (R171) -/

theorem blockByte_frameIv (P : Params) (F : Nat → Byte) {i : Nat} (hi : i < 16) :
    some (blockByte (frameIv P F) i) =
      ((List.range 8).map (fun j => F (P.offSt + j)) ++ (List.range 4).map (fun j => F (P.offIc + j)) ++
        Config.ivSuffix)[i]? :=
  blockByte_blockOfBytes (by simp) hi

theorem blockByte_frameIv_title (P : Params) (F : Nat → Byte) {i : Nat} (hi : i < 8) :
    blockByte (frameIv P F) i = F (P.offSt + i) := by
  have h := blockByte_frameIv P F (i := i) (by omega)
  rw [List.append_assoc, List.getElem?_append_left (by simpa using hi)] at h
  simpa [hi] using h

theorem blockByte_frameIv_counter (P : Params) (F : Nat → Byte) {i : Nat} (hi : i < 4) :
    blockByte (frameIv P F) (8 + i) = F (P.offIc + i) := by
  have h := blockByte_frameIv P F (i := 8 + i) (by omega)
  rw [List.append_assoc, List.getElem?_append_right (by simp), List.getElem?_append_left (by simpa using hi)] at h
  simpa [hi] using h

theorem blockByte_frameIv_suffix (P : Params) (F : Nat → Byte) {i : Nat} (hi : i < 4) :
    some (blockByte (frameIv P F) (12 + i)) = Config.ivSuffix[i]? := by
  have h := blockByte_frameIv P F (i := 12 + i) (by omega)
  rw [List.getElem?_append_right (by simp)] at h
  simpa using h

/-- The IV of a frame ends in 02. -/
theorem blockByte_frameIv_last (P : Params) (F : Nat → Byte) : blockByte (frameIv P F) 15 = 0x02 :=
  Option.some.inj (blockByte_frameIv_suffix P F (i := 3) (by decide))

/-! ## The operations of the stage (R171, R193, R195) -/

section
variable {s : State} (h : s.stage = .decrypting)
include h

theorem exec_deriveIv_decrypting : exec .deriveIv s = runDeriveIv s := performIf_pos h _ _

theorem exec_ctrXor_decrypting (ks : List Block) : exec (.ctrXor ks) s = runCtrXor ks s := performIf_pos h _ _

theorem exec_decrypt_decrypting : exec .decrypt s = runDecrypt s := performIf_pos h _ _

end

/-- Settles O17: the IV by its three parts. -/
theorem deriveIvConcatenatesFields : Obligations.DeriveIvConcatenatesFields := by
  intro s F hst hP hF
  have hsuffix {i : Nat} (hi : i < 4) := blockByte_frameIv_suffix s.params F hi
  refine ⟨_, frameIv s.params F, (exec_deriveIv_decrypting hst).trans (runDeriveIv_next hP hF), rfl,
    fun i hi => blockByte_frameIv_title _ _ hi, fun i hi => blockByte_frameIv_counter _ _ hi,
    Option.some.inj (hsuffix (i := 0) (by decide)), Option.some.inj (hsuffix (i := 1) (by decide)),
    Option.some.inj (hsuffix (i := 2) (by decide)), blockByte_frameIv_last _ _, rfl⟩

/-- Settles O18: the fields are read back from the IV's bytes. -/
theorem ivIsInjectiveInItsFields : Obligations.IvIsInjectiveInItsFields := by
  intro P F G h
  constructor
  · intro i hi
    rw [← blockByte_frameIv_title P F hi, h, blockByte_frameIv_title P G hi]
  · intro i hi
    rw [← blockByte_frameIv_counter P F hi, h, blockByte_frameIv_counter P G hi]

/-- Settles O19: `runCtrXor_next` gives `PT` as one list of bytes. -/
theorem ctrXorWritesPlainText : Obligations.CtrXorWritesPlainText := by
  intro s F ks hst hP hF hks
  exact ⟨_, (exec_ctrXor_decrypting hst ks).trans (runCtrXor_next hP hF hks), fun i => read?_ofBytes_range _ _ i, rfl⟩

/-- Settles O20: the two outcomes of `decrypt`, by `KEY_VALID`. -/
theorem decryptNeedsAKey : Obligations.DecryptNeedsAKey := by
  intro s F hst hP hF
  rw [exec_decrypt_decrypting hst]
  constructor
  · intro hv
    exact ⟨_, runDecrypt_no_key hP hv, rfl, rfl, rfl, rfl, rfl, rfl⟩
  · intro key hv hk
    exact ⟨_, runDecrypt_next hP hF hv hk, rfl, fun i => read?_ofBytes_range _ _ i, rfl⟩

/-! ## Counter blocks (R190, R192) -/

theorem getElem?_counterBlocks (cb : Block) {n j : Nat} (hj : j < n) :
    (counterBlocks cb n)[j]? = some (cb + BitVec.ofNat 128 j) := by
  induction n generalizing cb j with
  | zero => omega
  | succ n ih =>
    cases j with
    | zero => simp [counterBlocks]
    | succ j =>
      rw [counterBlocks, List.getElem?_cons_succ, ih _ (by omega), inc128, BitVec.add_assoc,
        BitVec.add_comm 1, BitVec.ofNat_add]
      rfl

theorem toNat_blockByte_last (k : Block) : (blockByte k 15).toNat = k.toNat % 256 := by
  rw [blockByte, BitVec.toNat_ofNat]
  rfl

section
variable {k : Block} {j : Nat} (h : (blockByte k 15).toNat + j < 256)
include h

theorem toNat_add_of_no_carry : (k + BitVec.ofNat 128 j).toNat = k.toNat + j := by
  have hk : k.toNat < 2 ^ 128 := k.isLt
  rw [toNat_blockByte_last] at h
  rw [BitVec.toNat_add, BitVec.toNat_ofNat]
  omega

/-- An addition that leaves no carry out of the last byte adds there. -/
theorem blockByte_last_add : (blockByte (k + BitVec.ofNat 128 j) 15).toNat = (blockByte k 15).toNat + j := by
  have hadd := toNat_add_of_no_carry h
  rw [toNat_blockByte_last] at h
  rw [toNat_blockByte_last, toNat_blockByte_last, hadd]
  omega

/-- An addition that leaves no carry out of the last byte changes no other byte. -/
theorem blockByte_add_of_no_carry {i : Nat} (hi : i < 15) : blockByte (k + BitVec.ofNat 128 j) i = blockByte k i := by
  have hadd := toNat_add_of_no_carry h
  rw [toNat_blockByte_last] at h
  have hhigh : (k.toNat + j) >>> 8 = k.toNat >>> 8 := by
    rw [Nat.shiftRight_eq_div_pow, Nat.shiftRight_eq_div_pow]
    omega
  rw [blockByte, blockByte, hadd, show 8 * (15 - i) = 8 + 8 * (14 - i) by omega, Nat.shiftRight_add, hhigh,
    ← Nat.shiftRight_add]

end

/-- A well-formed `P` leaves room for at most 87 CipherText bytes (R6), which is 6 blocks. -/
theorem blocks_le_six {P : Params} (hP : P.WellFormed) : (P.lenCt + 15) / 16 ≤ 6 := by
  obtain ⟨hst, -, -, -, -, -, hend, hic, hct⟩ := hP
  omega

/-- Settles O41: the IV ends in 02, and 2 + 5 still fits into its last byte. -/
theorem counterIncrementsWithoutCarry : Obligations.CounterIncrementsWithoutCarry := by
  refine ⟨fun s blk => ⟨inc128 blk, rfl, BitVec.toNat_add blk 1⟩, fun P F hP => ⟨blocks_le_six hP, fun j hj => ?_⟩⟩
  have hlast : (blockByte (frameIv P F) 15).toNat = 2 := by rw [blockByte_frameIv_last]; rfl
  have hsum : (blockByte (frameIv P F) 15).toNat + j < 256 := by
    have := blocks_le_six hP
    omega
  exact ⟨_, getElem?_counterBlocks _ hj, fun i hi => blockByte_add_of_no_carry hsum hi,
    (blockByte_last_add hsum).trans (by rw [hlast])⟩

/-- Settles O42: the keystream is the counter blocks, encrypted one by one. -/
theorem keystreamEncryptsCounterBlocks : Obligations.KeystreamEncryptsCounterBlocks := by
  intro s key iv n
  refine ⟨keystream key iv n, rfl, length_keystream key iv n, fun j hj => ?_⟩
  rw [keystream, List.getElem?_map, getElem?_counterBlocks iv hj, Option.map_some]

/-! ## The exclusive-or (R193, R197) -/

theorem xorStream_xorStream (ct : List Byte) (ks : List Block) : xorStream (xorStream ct ks) ks = ct := by
  apply List.ext_getElem?
  intro i
  rw [getElem?_xorStream, getElem?_xorStream]
  cases ct[i]? with
  | none => rfl
  | some c => simp

/-- A CipherText byte meets the keystream byte of its own position only. -/
theorem xorStream_set (ct : List Byte) (ks : List Block) (i : Nat) (c : Byte) :
    xorStream (ct.set i c) ks = (xorStream ct ks).set i (c ^^^ keystreamByte ks i) := by
  apply List.ext_getElem?
  intro j
  rw [getElem?_xorStream, List.getElem?_set, List.getElem?_set, length_xorStream]
  split
  · next hij => subst hij; split <;> rfl
  · rw [getElem?_xorStream]

/-- Settles O43: the exclusive-or acts byte by byte, and exclusive-ors commute. -/
theorem ctrIsItsOwnInverse : Obligations.CtrIsItsOwnInverse := by
  refine fun ct ks => ⟨xorStream_xorStream ct ks, fun i c m hc => ⟨c ^^^ keystreamByte ks i, ?_, ?_⟩⟩
  · rw [getElem?_xorStream, hc, Option.map_some]
  · rw [xorStream_set, BitVec.xor_assoc, BitVec.xor_comm m, ← BitVec.xor_assoc]

/-! ## The S-box (R174, R176) -/

/-- The affine step of R176 undone. -/
def invAffine (y : Byte) : Byte :=
  y.rotateLeft 1 ^^^ y.rotateLeft 3 ^^^ y.rotateLeft 6 ^^^ 0x05

/-- The inverse in GF(2^8), 0 for 0, as the S-box table holds it. -/
def gfInverse (a : Byte) : Byte :=
  invAffine (sbox a)

theorem affine_invAffine : ∀ y : Byte, affine (invAffine y) = y := by decide +kernel

theorem gfMul_gfInverse : ∀ a : Byte, a ≠ 0 → gfMul 8 a (gfInverse a) = 1 := by decide +kernel

theorem gfInverse_gfInverse : ∀ a : Byte, gfInverse (gfInverse a) = a := by decide +kernel

theorem sbox_eq_affine (a : Byte) : sbox a = affine (gfInverse a) :=
  (affine_invAffine (sbox a)).symm

theorem affine_injective : Function.Injective affine :=
  Finite.injective_iff_surjective.mpr fun y => ⟨invAffine y, affine_invAffine y⟩

theorem sbox_injective : Function.Injective sbox := by
  intro a b h
  rw [sbox_eq_affine, sbox_eq_affine] at h
  exact Function.LeftInverse.injective gfInverse_gfInverse (affine_injective h)

/-- Settles O35: the table's entry, with the affine step undone, is the inverse. -/
theorem sboxTableIsAlgebraic : Obligations.SboxTableIsAlgebraic := by
  refine fun a => ⟨gfInverse a, ?_, gfMul_gfInverse a, sbox_eq_affine a⟩
  rintro rfl
  decide

/-! ## The steps of a round by row and column (R175) -/

theorem blockByte_xor (a b : Block) (i : Nat) : blockByte (a ^^^ b) i = blockByte a i ^^^ blockByte b i := by
  simp only [blockByte, BitVec.toNat_xor, Nat.shiftRight_xor_distrib, BitVec.ofNat_xor]

/-- A block is determined by its bytes, taken by row and column. -/
theorem block_ext_row_column {a b : Block}
    (h : ∀ r c, r < 4 → c < 4 → blockByte a (r + 4 * c) = blockByte b (r + 4 * c)) : a = b := by
  refine block_ext fun i hi => ?_
  have hrc := h (i % 4) (i / 4) (Nat.mod_lt _ (by decide)) (by omega)
  rwa [Nat.mod_add_div] at hrc

section
variable (st : Block) {r c : Nat} (hr : r < 4) (hc : c < 4)
include hr hc

theorem blockByte_subBytes : blockByte (subBytes st) (r + 4 * c) = sbox (blockByte st (r + 4 * c)) :=
  blockByte_blockOfFn _ (by omega)

theorem blockByte_shiftRows : blockByte (shiftRows st) (r + 4 * c) = blockByte st (r + 4 * ((c + r) % 4)) := by
  rw [shiftRows, blockByte_blockOfFn _ (by omega), show (r + 4 * c) % 4 = r by omega, show (r + 4 * c) / 4 = c by omega]

theorem blockByte_mixColumns :
    blockByte (mixColumns st) (r + 4 * c) =
      mixColumn (blockByte st (4 * c)) (blockByte st (1 + 4 * c)) (blockByte st (2 + 4 * c)) (blockByte st (3 + 4 * c)) r := by
  rw [mixColumns, blockByte_blockOfFn _ (by omega)]
  simp only [show (r + 4 * c) % 4 = r by omega, show (r + 4 * c) / 4 = c by omega, Nat.add_comm (4 * c)]

end

theorem blockByte_mixColumns_top (st : Block) {c : Nat} (hc : c < 4) :
    blockByte (mixColumns st) (4 * c) =
      mixColumn (blockByte st (4 * c)) (blockByte st (1 + 4 * c)) (blockByte st (2 + 4 * c)) (blockByte st (3 + 4 * c)) 0 := by
  rw [← blockByte_mixColumns st (by decide) hc, Nat.zero_add]

/-- Settles O36: each step by row and column. -/
theorem roundStepsOnEachByte : Obligations.RoundStepsOnEachByte :=
  fun _ st rk => ⟨subBytes st, shiftRows st, addRoundKey st rk, rfl, rfl, rfl, fun _ _ hr hc =>
    ⟨blockByte_subBytes st hr hc, blockByte_shiftRows st hr hc, blockByte_xor st rk _⟩⟩

/-- Settles O37: the four rows of one column. -/
theorem mixColumnsMixesEachColumn : Obligations.MixColumnsMixesEachColumn :=
  fun _ st => ⟨mixColumns st, rfl, fun _ hc =>
    ⟨blockByte_mixColumns_top st hc, blockByte_mixColumns st (by decide) hc, blockByte_mixColumns st (by decide) hc,
      blockByte_mixColumns st (by decide) hc⟩⟩

/-! ## The key schedule (R181) -/

/-- The key schedule after `n` words beyond the key's own four. -/
def keyWordsUpTo (key : Block) (n : Nat) : List Word :=
  (List.range n).foldl (fun ws j => ws ++ [nextKeyWord ws (j + 4)])
    [keyWord key 0, keyWord key 1, keyWord key 2, keyWord key 3]

theorem keyWords_eq_upTo (key : Block) : keyWords key = keyWordsUpTo key 40 := rfl

theorem keyWordsUpTo_succ (key : Block) (n : Nat) :
    keyWordsUpTo key (n + 1) = keyWordsUpTo key n ++ [nextKeyWord (keyWordsUpTo key n) (n + 4)] := by
  rw [keyWordsUpTo, List.range_succ, List.foldl_concat]
  rfl

@[simp] theorem length_keyWordsUpTo (key : Block) (n : Nat) : (keyWordsUpTo key n).length = n + 4 := by
  induction n with
  | zero => rfl
  | succ n ih => rw [keyWordsUpTo_succ, List.length_append, ih]; simp

/-- A word of the schedule stays as it was made. -/
theorem getD_keyWordsUpTo (key : Block) {n m i : Nat} (hnm : n ≤ m) (hi : i < n + 4) :
    (keyWordsUpTo key m).getD i 0 = (keyWordsUpTo key n).getD i 0 := by
  induction m, hnm using Nat.le_induction with
  | base => rfl
  | succ m hm ih => rw [keyWordsUpTo_succ, List.getD_append _ _ _ _ (by rw [length_keyWordsUpTo]; omega), ih]

theorem getD_keyWords_key (key : Block) {i : Nat} (hi : i < 4) : (keyWords key).getD i 0 = keyWord key i := by
  rw [keyWords_eq_upTo, getD_keyWordsUpTo key (Nat.zero_le 40) (by omega)]
  interval_cases i <;> rfl

/-- Each later word is made from the words before it, where the finished schedule has them too. -/
theorem getD_keyWords_next (key : Block) {i : Nat} (h4 : 4 ≤ i) (hi : i < 44) :
    (keyWords key).getD i 0 = nextKeyWord (keyWords key) i := by
  obtain ⟨n, rfl⟩ := Nat.exists_eq_add_of_le' h4
  have hword : (keyWords key).getD (n + 4) 0 = nextKeyWord (keyWordsUpTo key n) (n + 4) := by
    rw [keyWords_eq_upTo, getD_keyWordsUpTo key (n := n + 1) (by omega) (by omega), keyWordsUpTo_succ]
    simp
  have hkept {k : Nat} (hk : k < n + 4) : (keyWords key).getD k 0 = (keyWordsUpTo key n).getD k 0 :=
    getD_keyWordsUpTo key (by omega) hk
  rw [hword, nextKeyWord, nextKeyWord, hkept (k := n + 4 - 1) (by omega), hkept (k := n + 4 - 4) (by omega)]

/-- Settles O38: the words are those of `keyWords`. -/
theorem keyScheduleFollowsRecurrence : Obligations.KeyScheduleFollowsRecurrence := by
  refine fun s key => ⟨fun i => (keyWords key).getD i 0, fun i hi => ?_, fun i h4 hi hmod => ?_, fun i h4 hi hmod => ?_,
    by decide, rfl⟩
  · exact (getD_keyWords_key key hi).trans (ofNat_beNat_four _ _ _ _)
  · rw [← ofNat_beNat_four]
    exact (getD_keyWords_next key h4 hi).trans (by rw [nextKeyWord, if_pos hmod]; rfl)
  · exact (getD_keyWords_next key h4 hi).trans (by rw [nextKeyWord, if_neg hmod])

/-! ## The rounds (R186) -/

/-- The state after the round key 0 and the first `n` of the nine full rounds. -/
def aesState (rks : List Block) (blk : Block) (n : Nat) : Block :=
  ((rks.drop 1).take n).foldl aesRound (addRoundKey blk (rks.getD 0 0))

theorem aesState_succ (rks : List Block) (blk : Block) {n : Nat} (hn : n + 1 < rks.length) :
    aesState rks blk (n + 1) = aesRound (aesState rks blk n) (rks.getD (n + 1) 0) := by
  have hround : (rks.drop 1)[n]? = some (rks.getD (n + 1) 0) := by
    rw [List.getElem?_drop, Nat.add_comm 1, List.getD_eq_getElem _ _ hn, List.getElem?_eq_getElem hn]
  rw [aesState, List.take_add_one, hround]
  exact List.foldl_concat _ _ _ _

@[simp] theorem length_keyExpansion (key : Block) : (keyExpansion key).length = 11 := by
  simp [keyExpansion]

/-- Settles O39: the states are those after each round key. -/
theorem aesRunsTenRounds : Obligations.AesRunsTenRounds :=
  fun _ key blk => ⟨aesState (keyExpansion key) blk, rfl,
    fun _ hn => aesState_succ _ _ (by rw [length_keyExpansion]; omega), rfl⟩

/-! ## Every step of the cipher is undone (R186) -/

theorem addRoundKey_injective (rk : Block) : Function.Injective (addRoundKey · rk) :=
  fun _ _ h => (BitVec.xor_left_inj rk).mp h

theorem subBytes_injective : Function.Injective subBytes := by
  intro a b h
  refine block_ext_row_column fun r c hr hc => sbox_injective ?_
  rw [← blockByte_subBytes a hr hc, h, blockByte_subBytes b hr hc]

/-- Row `r` moves by `r` columns, so four times by a multiple of 4. -/
theorem shiftRows_four (st : Block) : shiftRows (shiftRows (shiftRows (shiftRows st))) = st := by
  refine block_ext_row_column fun r c hr hc => ?_
  have hcol (k : Nat) : k % 4 < 4 := Nat.mod_lt k (by decide)
  rw [blockByte_shiftRows _ hr hc, blockByte_shiftRows _ hr (hcol _), blockByte_shiftRows _ hr (hcol _),
    blockByte_shiftRows _ hr (hcol _)]
  congr 2
  omega

theorem bitVec_xor_left_comm {w : Nat} (x y z : BitVec w) : x ^^^ (y ^^^ z) = y ^^^ (x ^^^ z) := by
  rw [← BitVec.xor_assoc, BitVec.xor_comm x, BitVec.xor_assoc]

/-- Multiplication by 2 is linear: the polynomial comes in with bit 7, which is additive. -/
theorem xtime_xor (a b : Byte) : xtime (a ^^^ b) = xtime a ^^^ xtime b := by
  unfold xtime
  rw [BitVec.getLsbD_xor, BitVec.shiftLeft_xor_distrib]
  cases a.getLsbD 7 <;> cases b.getLsbD 7 <;> simp [BitVec.xor_assoc, BitVec.xor_comm, bitVec_xor_left_comm]

/-- `MixColumns` on a column given by its rows (R179). -/
def mixedColumn (b : Nat → Byte) : Nat → Byte :=
  mixColumn (b 0) (b 1) (b 2) (b 3)

theorem mixedColumn_congr {a b : Nat → Byte} (h : ∀ q, q < 4 → a q = b q) : mixedColumn a = mixedColumn b := by
  rw [mixedColumn, mixedColumn, h 0 (by decide), h 1 (by decide), h 2 (by decide), h 3 (by decide)]

theorem blockByte_mixColumns_eq_mixedColumn (st : Block) {r c : Nat} (hr : r < 4) (hc : c < 4) :
    blockByte (mixColumns st) (r + 4 * c) = mixedColumn (fun q => blockByte st (q + 4 * c)) r := by
  rw [blockByte_mixColumns st hr hc, mixedColumn, Nat.zero_add]

/-- The exclusive-or of a column's bytes. -/
def columnSum (b : Nat → Byte) : Byte :=
  (b 0 ^^^ b 2) ^^^ (b 1 ^^^ b 3)

/-- Row `r` of R179: 2, 3, 1, 1 from byte `r` on is 1, 1, 1, 1, then 1 at byte `r` and 2 at it and the byte below. -/
theorem mixedColumn_eq_sum (b : Nat → Byte) {r : Nat} (hr : r < 4) :
    mixedColumn b r = xtime (b r ^^^ b ((r + 1) % 4)) ^^^ b r ^^^ columnSum b := by
  interval_cases r
  all_goals
    simp [mixedColumn, mixColumn, mul2, mul3, columnSum, xtime_xor, BitVec.xor_assoc, BitVec.xor_comm,
      bitVec_xor_left_comm]

theorem mixedColumn_xor (b : Nat → Byte) {r q : Nat} (hr : r < 4) (hq : q < 4) :
    mixedColumn b r ^^^ mixedColumn b q =
      xtime ((b r ^^^ b ((r + 1) % 4)) ^^^ (b q ^^^ b ((q + 1) % 4))) ^^^ (b r ^^^ b q) := by
  rw [mixedColumn_eq_sum b hr, mixedColumn_eq_sum b hq, xtime_xor (b r ^^^ _)]
  simp [BitVec.xor_assoc, BitVec.xor_comm, bitVec_xor_left_comm]

/-- Each column of the matrix sums to 1. -/
theorem columnSum_mixedColumn (b : Nat → Byte) : columnSum (mixedColumn b) = columnSum b := by
  rw [columnSum, mixedColumn_xor b (r := 0) (q := 2) (by decide) (by decide),
    mixedColumn_xor b (r := 1) (q := 3) (by decide) (by decide), columnSum]
  simp [BitVec.xor_assoc, BitVec.xor_comm, bitVec_xor_left_comm]

/-- The square of the matrix of R179 has 5 on its diagonal and 4 two places beside it, all else being even. -/
theorem mixedColumn_two (b : Nat → Byte) {r : Nat} (hr : r < 4) :
    mixedColumn (mixedColumn b) r = xtime (xtime (b r ^^^ b ((r + 2) % 4))) ^^^ b r := by
  have hsucc : ((r + 1) % 4 + 1) % 4 = (r + 2) % 4 := by omega
  rw [mixedColumn_eq_sum _ hr, columnSum_mixedColumn, mixedColumn_xor b hr (Nat.mod_lt _ (by decide)), hsucc,
    mixedColumn_eq_sum b hr]
  simp [xtime_xor, BitVec.xor_assoc, BitVec.xor_comm, bitVec_xor_left_comm]

/-- The fourth power of the matrix of R179 is the unit matrix: 5 * 5 + 4 * 4 = 1 and 5 * 4 + 4 * 5 = 0 in GF(2^8). -/
theorem mixedColumn_four (b : Nat → Byte) {r : Nat} (hr : r < 4) :
    mixedColumn (mixedColumn (mixedColumn (mixedColumn b))) r = b r := by
  have hrow : ((r + 2) % 4 + 2) % 4 = r := by omega
  rw [mixedColumn_two _ hr, mixedColumn_two b hr, mixedColumn_two b (Nat.mod_lt _ (by decide)), hrow]
  simp [xtime_xor, BitVec.xor_comm, bitVec_xor_left_comm]

theorem mixColumns_four (st : Block) : mixColumns (mixColumns (mixColumns (mixColumns st))) = st := by
  refine block_ext_row_column fun r c hr hc => ?_
  have hcol (st : Block) : ∀ q, q < 4 → blockByte (mixColumns st) (q + 4 * c) = _ :=
    fun q hq => blockByte_mixColumns_eq_mixedColumn st hq hc
  rw [hcol _ r hr, mixedColumn_congr (hcol _), mixedColumn_congr (hcol _), mixedColumn_congr (hcol _)]
  exact mixedColumn_four _ hr

theorem shiftRows_injective : Function.Injective shiftRows :=
  Function.LeftInverse.injective (g := fun st => shiftRows (shiftRows (shiftRows st))) shiftRows_four

theorem mixColumns_injective : Function.Injective mixColumns :=
  Function.LeftInverse.injective (g := fun st => mixColumns (mixColumns (mixColumns st))) mixColumns_four

theorem aesRound_injective (rk : Block) : Function.Injective (aesRound · rk) :=
  (addRoundKey_injective rk).comp (mixColumns_injective.comp (shiftRows_injective.comp subBytes_injective))

theorem aesLastRound_injective (rk : Block) : Function.Injective (aesLastRound · rk) :=
  (addRoundKey_injective rk).comp (shiftRows_injective.comp subBytes_injective)

theorem foldl_aesRound_injective (rks : List Block) : Function.Injective (rks.foldl aesRound) := by
  induction rks with
  | nil => exact Function.injective_id
  | cons rk rks ih => exact ih.comp (aesRound_injective rk)

theorem aesRounds_injective (rks : List Block) : Function.Injective (aesRounds rks) :=
  (aesLastRound_injective _).comp ((foldl_aesRound_injective _).comp (addRoundKey_injective _))

/-- Settles O40: an injective function from the finitely many blocks to themselves. -/
theorem aesIsABijection : Obligations.AesIsABijection :=
  fun key => Finite.injective_iff_bijective.mp (aesRounds_injective (keyExpansion key))

end Sys2Proof.Machine
end

section
/-! Proofs of the statements about spec/44_reading_extractor.md. First the field by its four bytes (R221) and the functions
run by themselves, then the presentation of a value (R223, R224), then the stage operation (R225, R226). -/

namespace Sys2Proof.Machine

open Sys2Proof.Certificates

/-! ## Fields (R221) -/

/-- A field's value is the sum of its bytes, the first weighted most. -/
theorem toNat_fieldAt (f : Nat → Byte) (o : Nat) :
    (fieldAt f o).toNat =
      (f o).toNat * 2 ^ 24 + (f (o + 1)).toNat * 2 ^ 16 + (f (o + 2)).toNat * 2 ^ 8 + (f (o + 3)).toNat := by
  rw [fieldAt, toNat_append8, toNat_append8, toNat_append8]
  omega

/-- `u32be` by itself on a field inside a defined PlainText (R221; log 3). -/
theorem exec_u32be_next {s : State} {f : Nat → Byte} {o : Nat} (hP : s.params.WellFormed) (ho : o + 4 ≤ s.params.lenCt)
    (h : ∀ j, j < s.params.lenCt → s.pt.read? j = some (f j)) :
    exec (.u32be o) s = .next { s with value := .word (fieldAt f o) } := by
  rw [exec, execU32be, config_next hP, andThen_next, readField_next ho h, andThen_next]

/-- Settles O44: the word read is `fieldAt`, and `toNat_fieldAt` is its sum. -/
theorem fieldIsBigEndian : Obligations.FieldIsBigEndian :=
  fun _ f o hP ho hpt => ⟨fieldAt f o, exec_u32be_next hP ho hpt, toNat_fieldAt f o⟩

/-! ## Presentation (R223, R224) -/

/-- The pair of an energy is exact: whole units and thousandths make up the parsed integer. -/
theorem scaleEnergy_exact (v : Word) : v.toNat = 1000 * (scaleEnergy v).whole + (scaleEnergy v).thousandths :=
  (Nat.div_add_mod v.toNat 1000).symm

theorem scaleEnergy_whole_le (v : Word) : (scaleEnergy v).whole ≤ 4294967 :=
  calc v.toNat / 1000 ≤ (2 ^ 32 - 1) / 1000 := Nat.div_le_div_right (Nat.le_pred_of_lt v.isLt)
    _ = 4294967 := by norm_num

theorem scaleEnergy_thousandths_le (v : Word) : (scaleEnergy v).thousandths ≤ 999 :=
  Nat.le_of_lt_succ (Nat.mod_lt v.toNat (by norm_num))

theorem exec_scaleEnergy (v : Word) (s : State) :
    exec (.scaleEnergy v) s = .next { s with value := .energy (scaleEnergy v) } := rfl

theorem exec_powerValue (v : Word) (s : State) : exec (.powerValue v) s = .next { s with value := .word v } := rfl

/-- Settles O45: the quotient and the remainder by 1000, and the word itself. -/
theorem energyIsExactAndPowerUnscaled : Obligations.EnergyIsExactAndPowerUnscaled :=
  fun s v => ⟨⟨(scaleEnergy v).whole, (scaleEnergy v).thousandths, exec_scaleEnergy v s, scaleEnergy_exact v,
    scaleEnergy_whole_le v, scaleEnergy_thousandths_le v⟩, exec_powerValue v s⟩

/-! ## The operation of the stage (R225, R226) -/

theorem exec_extract_extracting {s : State} (h : s.stage = .extracting) : exec .extract s = runExtract s :=
  performIf_pos h _ _

/-- The bound check fails exactly where some field reaches beyond the PlainText (R226). -/
theorem not_fieldsFit_iff {P : Params} : ¬P.FieldsFit ↔ ∃ k : Fin 8, P.offFld[k] + 4 > P.lenCt := by
  simp only [Params.FieldsFit, not_forall, not_le, gt_iff_lt]

/-- Settles O21: the two outcomes of `extract`, by the bound check. -/
theorem extractReadsEightFields : Obligations.ExtractReadsEightFields := by
  intro s f hst hP hpt
  rw [exec_extract_extracting hst]
  constructor
  · intro hmisfit
    exact ⟨_, runExtract_misfit hP (not_fieldsFit_iff.mpr hmisfit), rfl, rfl, rfl, rfl, rfl, rfl⟩
  · intro hfit
    obtain ⟨rd, hrun, hrd⟩ := runExtract_fields hP hfit hpt
    exact ⟨_, rd, hrun, rfl, hrd, rfl⟩

end Sys2Proof.Machine
end

section
/-! Proofs of the statements about spec/45_telegram_decoder.md. First the operations of the host and the completion (R241 to
R249), then how one step reports a decode (R251), then what a success tells of the bytes received (R252). -/

namespace Sys2Proof.Machine

/-! ## The host's operations and completion (R241, R243, R244, R249) -/

/-- Settles O3: `ABORT` has no acceptance test, and `restartAt` writes the elements named. -/
theorem abortReturnsToIdle : Obligations.AbortReturnsToIdle :=
  fun _ => rfl

/-- Settles O4: the two sides of the acceptance test. -/
theorem startBeginsDecode : Obligations.StartBeginsDecode :=
  fun _ => ⟨execStart_accepted, execStart_dropped⟩

/-- Settles O5: the two sides of the acceptance test. -/
theorem loadKeyIsWriteOnce : Obligations.LoadKeyIsWriteOnce :=
  fun _ k => ⟨fun hk hc => execLoadKey_accepted hk hc k, fun h => execLoadKey_dropped h k⟩

theorem runComplete_next {s : State} {rd : Vector Word 8} (hrd : s.rd = some rd) :
    runComplete s = .next (completeOk rd s) := by
  rw [runComplete, hrd, readElement_some, andThen_next]

theorem exec_complete_extracting {s : State} (h : s.stage = .extracting) : exec .complete s = runComplete s :=
  performIf_pos h _ _

/-- Settles O23: completion reports `readingOf rd`, whose fields are R223's and R224's. -/
theorem completeHoldsTheReading : Obligations.CompleteHoldsTheReading :=
  fun _ _ hst hrd => (exec_complete_extracting hst).trans (runComplete_next hrd)

/-! ## One report for each decode (R251) -/

/-- One `RESULT` was emitted between `s` and `t`, and the flags of `t` say what it says (R249, R266). -/
def ReportedOnce (s t : State) : Prop :=
  (∃ rd, t.resOk = true ∧ t.rd = some rd ∧ t.results = s.results ++ [.ok (readingOf rd)]) ∨
    ∃ e, t.resOk = false ∧ t.err = some e ∧ t.results = s.results ++ [.err e]

/-- What received bytes and a timeout do to the decode: it goes on where it was and nothing is reported, or it ends with one
report. -/
def GoesOnOrEnds (s t : State) : Prop :=
  (t.stage = s.stage ∧ t.results = s.results) ∨ (s.stage = .framing ∧ t.stage = .complete ∧ ReportedOnce s t)

theorem reportedOnce_raiseError (e : DecodeError) (s : State) : ReportedOnce s (raiseError e s) :=
  .inr ⟨e, rfl, rfl, rfl⟩

theorem runBackEnd_reportedOnce {s t : State} (h : runBackEnd s = .next t) : ReportedOnce s t := by
  obtain ⟨-, hok, herr, hres⟩ := runBackEnd_reports h
  cases he : t.err with
  | none =>
    obtain ⟨rd, hrd, hresults⟩ := hres he
    exact .inl ⟨rd, hok.mpr he, hrd, hresults⟩
  | some e => exact .inr ⟨e, by simpa [he] using hok, he, herr e he⟩

/-- Only the two rows of the 105th byte end the decode (R127, R128). -/
theorem receive_goesOnOrEnds {b : Byte} {s t : State} (h : receive b s = .next t) : GoesOnOrEnds s t := by
  rcases receive_eq_next h with ⟨-, rfl⟩ | ⟨-, rfl⟩ | ⟨-, rfl⟩ | ⟨-, rfl⟩ |
    ⟨-, rfl⟩ | ⟨-, rfl⟩ | ⟨-, rfl⟩ | ⟨hsel, hb⟩ | ⟨hsel, rfl⟩
  case inr.inr.inr.inr.inr.inr.inr.inl =>
    obtain ⟨hst, -⟩ := selectRx_eq_endFrame.mp hsel
    obtain ⟨hcomplete, -⟩ := runBackEnd_frame hb
    have hreport := runBackEnd_reportedOnce hb
    exact .inr ⟨hst, hcomplete, hreport⟩
  case inr.inr.inr.inr.inr.inr.inr.inr =>
    obtain ⟨hst, -⟩ := selectRx_eq_badend.mp hsel
    exact .inr ⟨hst, rfl, reportedOnce_raiseError _ _⟩
  all_goals exact .inl ⟨rfl, rfl⟩

/-- Outside `Framing` no byte of a sequence is accepted (R42). -/
theorem receiveAll_not_framing {s : State} (h : s.stage ≠ .framing) (bs : List Byte) : receiveAll bs s = .next s := by
  induction bs with
  | nil => rfl
  | cons b bs ih => rw [receiveAll_cons, receive_not_accepted (selectRx_not_framing h b), andThen_next, ih]

/-- A sequence ends a decode at most once: the bytes after its end are not accepted. -/
theorem receiveAll_goesOnOrEnds {bs : List Byte} {s t : State} (h : receiveAll bs s = .next t) : GoesOnOrEnds s t := by
  induction bs generalizing s with
  | nil => cases h; exact .inl ⟨rfl, rfl⟩
  | cons b bs ih =>
    obtain ⟨u, hu, ht⟩ := andThen_eq_next.mp h
    rcases receive_goesOnOrEnds hu with ⟨hstage, hresults⟩ | ⟨hst, hcomplete, hreport⟩
    · have hrest := ih ht
      rwa [GoesOnOrEnds, ReportedOnce, hstage, hresults] at hrest
    · rw [receiveAll_not_framing (by rw [hcomplete]; decide)] at ht
      cases ht
      exact .inr ⟨hst, hcomplete, hreport⟩

/-- What an operation does to the decode from a sound state: what bytes do, or, with nothing reported, back to `Idle`, or an
accepted `START`. -/
theorem exec_goesOnOrEnds {i : Instr} {s t : State} (h : s.Inv) (he : exec i s = .next t) :
    GoesOnOrEnds s t ∨
      (t.results = s.results ∧ (t.stage = .idle ∨ (t.stage = .framing ∧ i = .start ∧ CommandReady s))) := by
  cases exec_eq_next_of_sound h he with
  | unchanged | function | loadKey => exact .inl (.inl ⟨rfl, rfl⟩)
  | reset | abort => exact .inr ⟨rfl, .inl rfl⟩
  | start hi hready => exact .inr ⟨rfl, .inr ⟨rfl, hi, hready⟩⟩
  | rx b op _ _ hr => exact .inl (receive_goesOnOrEnds hr)
  | timeout _ hst => exact .inl (.inr ⟨hst, rfl, reportedOnce_raiseError _ _⟩)
  | frame body crc _ _ hr => exact .inl (receiveAll_goesOnOrEnds hr)

/-- `exec_goesOnOrEnds` for a step: the script is no part of what is reported. -/
theorem step_goesOnOrEnds {s t : State} (h : s.Inv) (hstep : step s = .next t) :
    GoesOnOrEnds s t ∨ (t.results = s.results ∧
      (t.stage = .idle ∨ (t.stage = .framing ∧ CommandReady s ∧ ∃ rest, fetch s = .op .start rest))) := by
  obtain ⟨-, ⟨-, rfl⟩ | ⟨rest, -, rfl⟩ | ⟨i, rest, hfetch, he⟩⟩ := step_eq_next.mp hstep
  · exact .inl (.inl ⟨rfl, rfl⟩)
  · exact .inl (.inl ⟨rfl, rfl⟩)
  · rcases exec_goesOnOrEnds (h.withScript rest) he with hgoes | ⟨hresults, hidle | ⟨hst, rfl, hready⟩⟩
    · exact .inl hgoes
    · exact .inr ⟨hresults, .inl hidle⟩
    · exact .inr ⟨hresults, .inr ⟨hst, hready, rest, hfetch⟩⟩

/-- Settles O57: each way a step can move the decode (`step_goesOnOrEnds`) fixes the stages before and after it. -/
theorem oneResultPerDecode : Obligations.OneResultPerDecode := by
  intro s t h hstep
  rcases step_goesOnOrEnds h hstep with (⟨hstage, hresults⟩ | ⟨hst, hcomplete, hreport⟩) |
    ⟨hresults, hidle | ⟨hframing, hstart⟩⟩
  · refine ⟨?_, fun hne hst => absurd (hstage.symm.trans hst) hne, fun hne hst => absurd (hstage.symm.trans hst) hne⟩
    rw [if_neg]
    · exact hresults
    · rintro ⟨hs, ht⟩; simp [hstage, hs] at ht
  · exact ⟨by rw [if_pos ⟨hst, hcomplete⟩]; exact hreport, fun hne => absurd hst hne, fun _ _ => hst⟩
  · exact ⟨by simpa [hidle] using hresults, by simp [hidle], by simp [hidle]⟩
  · exact ⟨by simpa [hframing] using hresults, fun _ _ => hstart, by simp [hframing]⟩

/-! ## What a success tells (R252) -/

/-- While a decode runs no success is held (R30). -/
theorem State.Inv.resOk_of_framing {s : State} (h : s.Inv) (hst : s.stage = .framing) : s.resOk = false := by
  obtain ⟨-, hvalid, -⟩ := h.framing hst
  obtain ⟨hcleared, -⟩ := h.result_sound
  exact (hcleared hvalid).1

/-- Bytes after which the decode still runs have produced no success. -/
theorem receiveAll_resOk_of_framing {bs : List Byte} {s t : State} (h : s.Inv) (hr : receiveAll bs s = .next t)
    (hst : t.stage = .framing) : t.resOk = false :=
  (receiveAll_keeps (fun _ _ _ => receive_sound) h hr : t.Inv).resOk_of_framing hst

/-- The stages after the frame succeed only on a right CRC field, with a key, and with the fields of the decryption under
it. -/
theorem runBackEnd_resOk {s t : State} {F : Nat → Byte} (hF : HoldsFrame s 104 F) (hP : s.params.WellFormed)
    (hkey : s.key.isSome = s.keyValid) (hb : runBackEnd s = .next t) (hok : t.resOk = true) :
    frameCrc F = frameCrcField F ∧ s.keyValid = true ∧ ∃ key rd, s.key = some key ∧ t.rd = some rd ∧
      ∀ k : Fin 8, rd[k] = fieldAt (framePlain s.params key F) s.params.offFld[k] := by
  have hcrc : frameCrc F = frameCrcField F := by
    by_contra hne
    cases hb.symm.trans (runBackEnd_wrong_crc hF hne)
    cases hok
  have hv : s.keyValid = true := by
    by_contra hk
    cases hb.symm.trans (runBackEnd_no_key hF hcrc hP (Bool.eq_false_iff.mpr hk))
    cases hok
  obtain ⟨key, hk⟩ := Option.isSome_iff_exists.mp (hkey.trans hv)
  have hf : s.params.FieldsFit := by
    by_contra hn
    cases hb.symm.trans (runBackEnd_misfit hF hcrc hP hv hk hn)
    cases hok
  obtain ⟨rd, hrun, hrd⟩ := runBackEnd_ok hF hcrc hP hv hk hf
  cases hb.symm.trans hrun
  exact ⟨hcrc, hv, key, rd, hk, rfl, hrd⟩

/-- A list that contains `pat` has a first place where it starts. -/
theorem exists_first_occurrence {α : Type} {pat l : List α} (h : pat <:+: l) :
    ∃ g tail, l = g ++ pat ++ tail ∧ ∀ p, p < g.length → ¬pat <+: l.drop p := by
  induction l with
  | nil => exact ⟨[], [], by simpa using h.eq_of_length_le (Nat.zero_le _), nofun⟩
  | cons a l ih =>
    by_cases hpre : pat <+: a :: l
    · obtain ⟨tail, htail⟩ := hpre
      exact ⟨[], tail, htail.symm, nofun⟩
    · obtain ⟨g, tail, hl, hfirst⟩ := ih ((List.infix_cons_iff.mp h).resolve_left hpre)
      refine ⟨a :: g, tail, by rw [hl]; rfl, fun p hp => ?_⟩
      cases p with
      | zero => exact hpre
      | succ p => exact hfirst p (Nat.lt_of_succ_lt_succ hp)

/-- Where no header starts in `g` in a sequence, none starts there in any part of the sequence from its beginning on. -/
theorem no_start_in_beginning {g part bs : List Byte} (hpart : part <+: bs)
    (hfirst : ∀ p, p < g.length → ¬headerBytes <+: bs.drop p) (p : Nat) (hp : p < g.length) :
    (part.drop p).take 3 ≠ headerBytes :=
  fun heq => hfirst p hp ((heq ▸ List.take_prefix 3 (part.drop p)).trans (hpart.drop p))

/-- A search that contains no header produces no success. -/
theorem header_of_resOk {s t : State} {bs : List Byte} (h : s.Inv) (hst : s.stage = .framing)
    (hfr : s.frState = .searching) (hr : receiveAll bs s = .next t) (hok : t.resOk = true) : headerBytes <:+: bs := by
  by_contra hno
  obtain ⟨m, n, f, pre, hsearch, hmatch⟩ := (Matching.nothing hst hfr (h.len_of_searching hfr)).receiveAll hno
  cases hr.symm.trans hsearch
  exact Bool.false_ne_true ((receiveAll_resOk_of_framing h hr hmatch.stage).symm.trans hok)

/-- Before its last byte an attempt still runs, whatever its bytes (R126, R132). -/
theorem receiveAll_unfinished {s : State} {g body : List Byte} (hst : s.stage = .framing) (hfr : s.frState = .searching)
    (hl : s.len = 0) (hg : ¬headerBytes <:+: g) (hb : body.length ≤ 101) :
    ∃ t, receiveAll (g ++ headerBytes ++ body) s = .next t ∧ t.stage = .framing := by
  obtain ⟨m1, n1, f1, pre, hr1, hmatch⟩ := (Matching.nothing hst hfr hl).receiveAll hg
  obtain ⟨m3, hr3, hm3⟩ := hmatch.receiveAll_header
  obtain ⟨m, n, hr, -, -⟩ := receiveAll_body (s := { s with fbuf := m3, len := 3, frState := .readingBody }) (bs := body)
    hst rfl hm3 rfl (Nat.le_refl 3) (Nat.add_le_add_left hb 3)
  refine ⟨{ s with fbuf := m, len := n, frState := .readingBody }, ?_, hst⟩
  rw [receiveAll_append, receiveAll_append, hr1, andThen_next, hr3, andThen_next, hr]

/-- After the first header, success takes 101 bytes and the closing marker: with fewer the attempt still runs, and another
byte at offset 104 fails it (R128). -/
theorem delimited_of_resOk {s t : State} {g tail : List Byte} (h : s.Inv) (hst : s.stage = .framing)
    (hfr : s.frState = .searching) (hg : ¬headerBytes <:+: g) (hr : receiveAll (g ++ headerBytes ++ tail) s = .next t)
    (hok : t.resOk = true) : ∃ body rest, body.length = 101 ∧ tail = body ++ [Config.marker] ++ rest := by
  have hl := h.len_of_searching hfr
  obtain hlong | hshort := Nat.lt_or_ge 101 tail.length
  case inr =>
    obtain ⟨u, hu, hframing⟩ := receiveAll_unfinished hst hfr hl hg hshort
    cases hr.symm.trans hu
    exact absurd ((receiveAll_resOk_of_framing h hr hframing).symm.trans hok) Bool.false_ne_true
  have htail : tail = tail.take 101 ++ [tail[101]] ++ tail.drop 102 := by
    rw [List.append_assoc, List.singleton_append, ← List.drop_eq_getElem_cons, List.take_append_drop]
  have hb : (tail.take 101).length = 101 := by rw [List.length_take]; omega
  refine ⟨tail.take 101, tail.drop 102, hb, ?_⟩
  suffices he : tail[101] = Config.marker by rwa [he] at htail
  by_contra he
  obtain ⟨m, hattempt, -⟩ := receiveAll_attempt hst hfr hl hg hb
  rw [htail, ← List.append_assoc, ← List.append_assoc, receiveAll_append, receiveAll_append, hattempt, andThen_next,
    receiveAll_singleton, receive_badend (s := { s with fbuf := m, len := 104, frState := .readingBody }) hst rfl rfl he,
    andThen_next, receiveAll_not_framing (by simp)] at hr
  cases hr
  cases hok

/-- Settles O26: the bytes hold a first header (`header_of_resOk`) and a frame from there on (`delimited_of_resOk`), whose
bytes are the ones that the stages after the frame read; the bytes behind it are not accepted. -/
theorem okMeansAValidFrame : Obligations.OkMeansAValidFrame := by
  intro s t bs h hP hst hfr hr hok
  obtain ⟨g, tail, rfl, hfirst⟩ := exists_first_occurrence (header_of_resOk h hst hfr hr hok)
  have hg : ¬headerBytes <:+: g :=
    no_header_of_no_start (no_start_in_beginning (List.prefix_append (g ++ headerBytes) tail) hfirst)
  obtain ⟨body, rest, hb, rfl⟩ := delimited_of_resOk h hst hfr hg hr hok
  have hparts : g ++ headerBytes ++ (body ++ [Config.marker] ++ rest) =
      g ++ (headerBytes ++ body ++ [Config.marker]) ++ rest := by simp only [List.append_assoc]
  rw [hparts] at hr hfirst ⊢
  obtain ⟨m, hrun, hm⟩ := receiveAll_delimited hst hfr (h.len_of_searching hfr) hg hb
  have hF : HoldsFrame { s with fbuf := m, len := 105, frState := .done } 104
      fun i => (headerBytes ++ body ++ [Config.marker]).getD i 0 := hm.holdsFrame (by simp [hb])
  obtain ⟨u, hu, hrest⟩ : ∃ u, runBackEnd { s with fbuf := m, len := 105, frState := .done } = .next u ∧
      receiveAll rest u = .next t := by
    rw [← hrun, ← andThen_eq_next, ← receiveAll_append]
    simpa only [List.append_assoc] using hr
  obtain ⟨hcomplete, -⟩ := runBackEnd_frame hu
  rw [receiveAll_not_framing (by rw [hcomplete]; decide)] at hrest
  cases hrest
  obtain ⟨hcrc, hv, key, rd, hk, hrd, hfields⟩ := runBackEnd_resOk hF hP h.key_defined hu hok
  exact ⟨g, headerBytes ++ body ++ [Config.marker], rest, key, rd, rfl, by simp [hb], rfl, by simp [hb],
    no_start_in_beginning (List.prefix_append _ rest) hfirst, hcrc, hv, hk, hrd, hfields⟩

end Sys2Proof.Machine
end

section
/-! Proofs of the statements about spec/60_exceptions.md. First raising an error where it can be raised (R260, R266), then which
errors the stages after the frame can leave (R262), then events offered together (R272) and the edge of the signal binding
(R43). -/

namespace Sys2Proof.Machine

open Sys2Proof.Certificates

/-! ## Raising an error (R260, R266) -/

/-- `IncompleteFrame` is raised after the raising operation has failed the FrameReader, each other error in its stage (R260). -/
theorem raisable_of_raisedIn {s : State} {e : DecodeError} (hst : s.stage = raisedIn e)
    (hfr : e = .incompleteFrame → s.frState = .failed) : raisable e s = true := by
  cases e with
  | incompleteFrame => simp [raisable, raisedIn, hst, hfr rfl]
  | crcMismatch | decryptionFailure | fieldOutOfRange => simp [raisable, raisedIn, hst]

/-- Settles O22: where `raise` is performed it is `raiseError`, which writes the elements named. -/
theorem raiseWritesFourElements : Obligations.RaiseWritesFourElements :=
  fun s e hst hfr => performIf_pos (raisable_of_raisedIn hst hfr) (fun s => .next (raiseError e s)) s

/-! ## The errors that a key and fitting fields leave (R262) -/

/-- `ERR` holds no error of the stages behind the check of the frame. -/
def FrameErrorOnly (s : State) : Prop :=
  s.err ≠ some .decryptionFailure ∧ s.err ≠ some .fieldOutOfRange

theorem frameErrorOnly_of_none {s : State} (h : s.err = none) : FrameErrorOnly s := by simp [FrameErrorOnly, h]

theorem frameErrorOnly_incompleteFrame (s : State) : FrameErrorOnly (raiseError .incompleteFrame s) := by
  simp [FrameErrorOnly]

/-- With a key `decrypt` does not fail, and with fields that fit `extract` does not: `CrcMismatch` is left. -/
theorem runBackEnd_frameErrorOnly {s t : State} (hfit : s.params.FieldsFit) (hkey : s.keyValid = true)
    (h : runBackEnd s = .next t) : FrameErrorOnly t := by
  obtain ⟨c, rfl | ⟨hno, -⟩ | ⟨-, iv, bs, -, ⟨hmisfit, -⟩ | ⟨-, rd, rfl⟩⟩⟩ := runBackEnd_eq_next h
  · simp [FrameErrorOnly]
  · exact absurd (hkey.symm.trans hno) (by decide)
  · exact absurd hfit hmisfit
  · exact frameErrorOnly_of_none rfl

theorem receive_frameErrorOnly {b : Byte} {s t : State} (hfit : s.params.FieldsFit) (hkey : s.keyValid = true)
    (herr : FrameErrorOnly s) (h : receive b s = .next t) : FrameErrorOnly t := by
  rcases receive_eq_next h with ⟨-, rfl⟩ | ⟨-, rfl⟩ | ⟨-, rfl⟩ | ⟨-, rfl⟩ |
    ⟨-, rfl⟩ | ⟨-, rfl⟩ | ⟨-, rfl⟩ | ⟨-, hb⟩ | ⟨-, rfl⟩
  case inr.inr.inr.inr.inr.inr.inr.inl =>
    exact runBackEnd_frameErrorOnly (s := { s with fbuf := s.fbuf.write 104 Config.marker, len := 105, frState := .done })
      hfit hkey hb
  case inr.inr.inr.inr.inr.inr.inr.inr => exact frameErrorOnly_incompleteFrame _
  all_goals exact herr

/-- Bytes keep the premises of `receive_frameErrorOnly`, since they change neither `P` nor the key. -/
theorem receiveAll_frameErrorOnly {bs : List Byte} {s t : State} (hfit : s.params.FieldsFit) (hkey : s.keyValid = true)
    (herr : FrameErrorOnly s) (h : receiveAll bs s = .next t) : FrameErrorOnly t := by
  have hkeeps : t.params.FieldsFit ∧ t.keyValid = true ∧ FrameErrorOnly t := by
    refine receiveAll_keeps (p := fun u => u.params.FieldsFit ∧ u.keyValid = true ∧ FrameErrorOnly u) ?_
      ⟨hfit, hkey, herr⟩ h
    rintro b u v ⟨hfit, hkey, herr⟩ hr
    obtain ⟨hP, -, hv, -⟩ := receive_keeps hr
    exact ⟨hP ▸ hfit, hv.trans hkey, receive_frameErrorOnly hfit hkey herr hr⟩
  obtain ⟨-, -, ht⟩ := hkeeps
  exact ht

theorem exec_frameErrorOnly {i : Instr} {s t : State} (h : s.Inv) (hfit : s.params.FieldsFit) (hkey : s.keyValid = true)
    (herr : FrameErrorOnly s) (he : exec i s = .next t) : FrameErrorOnly t := by
  cases exec_eq_next_of_sound h he with
  | unchanged | function | loadKey => exact herr
  | reset | abort | start => exact frameErrorOnly_of_none rfl
  | rx b op _ _ hr => exact receive_frameErrorOnly hfit hkey herr hr
  | timeout => exact frameErrorOnly_incompleteFrame _
  | frame body crc _ _ hr => exact receiveAll_frameErrorOnly hfit hkey herr hr

/-- Settles O58: a step waits, takes an offer off the script, or runs an operation on a state that differs in its script only;
`exec_frameErrorOnly` is the claim over the operations. -/
theorem onlyFramingErrorsWithAKeyAndFit : Obligations.OnlyFramingErrorsWithAKeyAndFit := by
  intro s t h hfit hkey hstep hdecrypt hfield
  obtain ⟨-, ⟨-, rfl⟩ | ⟨rest, -, rfl⟩ | ⟨i, rest, -, he⟩⟩ := step_eq_next.mp hstep
  · exact ⟨hdecrypt, hfield⟩
  · exact ⟨hdecrypt, hfield⟩
  · exact exec_frameErrorOnly (h.withScript rest) hfit hkey ⟨hdecrypt, hfield⟩ he

/-! ## Events offered together (R272) -/

theorem andThen_next_right {α : Type} (r : Res α) : andThen r .next = r := by
  cases r <;> rfl

/-- A continuation matters only on what the first part answers. -/
theorem andThen_congr {α β : Type} {r : Res α} {k k' : α → Res β} (h : ∀ a, r = .next a → k a = k' a) :
    andThen r k = andThen r k' := by
  cases r with
  | next a => exact h a rfl
  | fault | refused => rfl

theorem offerAll_append (as bs : List (List Byte)) (s : State) :
    offerAll (as ++ bs) s = andThen (offerAll as s) (offerAll bs) := by
  induction as generalizing s with
  | nil => rfl
  | cons a as ih =>
    rw [List.cons_append, offerAll, offerAll]
    cases step { s with script := a ++ s.script } with
    | next t => exact ih t
    | fault | refused => rfl

theorem offerAll_singleton (r : List Byte) (s : State) : offerAll [r] s = step { s with script := r ++ s.script } :=
  andThen_next_right _

/-- Offering the records `rs` is the event `f`, wherever `P` is well-formed, and `P` stays well-formed. -/
def OffersAs (rs : List (List Byte)) (f : State → Res State) : Prop :=
  ∀ s : State, s.params.WellFormed → offerAll rs s = f s ∧ ∀ t, f s = .next t → t.params.WellFormed

theorem OffersAs.nothing : OffersAs [] .next :=
  fun _ hP => ⟨rfl, fun _ ht => by cases ht; exact hP⟩

/-- An operation that no received byte selects is offered by its own record. -/
theorem OffersAs.event {i : Instr} (hwf : i.wellFormed = true) (hrx : i.rxOp = none) : OffersAs [encode i] (exec i) := by
  intro s hP
  refine ⟨?_, fun t ht => (parametersAreNeverWritten i s t ht) ▸ hP⟩
  have hfetch : fetch { s with script := encode i ++ s.script } = .op i s.script :=
    decodeOfEncode _ i _ hwf (admits_of_rxOp_none hrx)
  rw [offerAll_singleton, step_op (s := { s with script := encode i ++ s.script }) hP hfetch]

theorem OffersAs.rx (b : Byte) : OffersAs [rxRecord b] (receive b) := by
  intro s hP
  exact ⟨(offerAll_singleton _ s).trans (step_rxRecord hP b s.script), fun t ht => (receive_keeps_params ht) ▸ hP⟩

/-- The later records are offered on the state that the earlier ones left. -/
theorem OffersAs.append {as bs : List (List Byte)} {f g : State → Res State} (hf : OffersAs as f) (hg : OffersAs bs g) :
    OffersAs (as ++ bs) fun s => andThen (f s) g := by
  intro s hP
  obtain ⟨hfs, hkeeps⟩ := hf s hP
  refine ⟨?_, fun t ht => ?_⟩
  · rw [offerAll_append, hfs]
    exact andThen_congr fun u hu => (hg u (hkeeps u hu)).1
  · obtain ⟨u, hu, hut⟩ := andThen_eq_next.mp ht
    exact (hg u (hkeeps u hu)).2 t hut

/-- An event that is offered or not. -/
theorem OffersAs.optional {rs : List (List Byte)} {f : State → Res State} (hf : OffersAs rs f) (c : Bool) :
    OffersAs (if c then rs else []) fun s => if c then f s else .next s := by
  cases c
  · exact .nothing
  · exact hf

theorem OffersAs.optionalEvent (i : Instr) (hwf : i.wellFormed = true) (hrx : i.rxOp = none) (c : Bool) :
    OffersAs (if c then [encode i] else []) fun s => if c then exec i s else .next s :=
  (OffersAs.event hwf hrx).optional c

theorem OffersAs.command (c : HostCommand) : OffersAs [encode c.toInstr] (exec c.toInstr) := by
  cases c <;> exact .event rfl rfl

/-- An event with an operand that is offered or not. -/
theorem OffersAs.onSome {α : Type} {rs : α → List (List Byte)} {f : α → State → Res State}
    (hf : ∀ a, OffersAs (rs a) (f a)) (o : Option α) :
    OffersAs (o.elim [] rs) fun s => o.elim (.next s) fun a => f a s := by
  cases o with
  | none => exact .nothing
  | some a => exact hf a

theorem Offers.records_eq (o : Offers) : o.records =
    (if o.reset then [encode .reset] else []) ++ ((if o.abort then [encode .abort] else []) ++
      (o.command.elim [] (fun c => [encode c.toInstr]) ++ (o.rx.elim [] (fun b => [rxRecord b]) ++
        if o.timeout then [encode .frTimeout] else []))) := by
  obtain ⟨reset, abort, command, rx, timeout⟩ := o
  cases command <;> cases rx <;> simp [Offers.records]

/-- Offers are taken in the order of R272, each on the state that the earlier ones left. -/
theorem Offers.taken_in_order (o : Offers) : OffersAs o.records fun s =>
    andThen (if o.reset then exec .reset s else .next s) fun s1 =>
    andThen (if o.abort then exec .abort s1 else .next s1) fun s2 =>
    andThen (o.command.elim (.next s2) fun c => exec c.toInstr s2) fun s3 =>
    andThen (o.rx.elim (.next s3) fun b => receive b s3) fun s4 =>
      if o.timeout then exec .frTimeout s4 else .next s4 := by
  rw [o.records_eq]
  exact (OffersAs.optionalEvent .reset rfl rfl o.reset).append <|
    (OffersAs.optionalEvent .abort rfl rfl o.abort).append <|
    (OffersAs.onSome .command o.command).append <| (OffersAs.onSome .rx o.rx).append <|
    OffersAs.optionalEvent .frTimeout rfl rfl o.timeout

/-- The signal binding offers no timeout where it offers a byte (R43). -/
theorem Pins.timeout_of_rx {p : Pins} (h : p.offers.rx.isSome = true) : p.offers.timeout = false := by
  cases hv : p.rxValid with
  | true => simp [Pins.offers, hv]
  | false => simp [Pins.offers, hv] at h

/-! ## The edge of the signal binding (R43) -/

/-- The command on the bus as an operation (R103). -/
def Pins.command (p : Pins) : Instr :=
  if p.cmd = 0 then .nop else if p.cmd = 1 then .loadKey p.cmdKey else if p.cmd = 2 then .start else .abort

theorem commandCode_cases (c : BitVec 2) : c = 0 ∨ c = 1 ∨ c = 2 ∨ c = 3 := by decide +revert

theorem OffersAs.busCommand (p : Pins) : OffersAs [encode p.command] (exec p.command) := by
  unfold Pins.command
  split_ifs <;> exact .event rfl rfl

/-- The bus holds `ABORT` or another command, and so offers one record (R103). -/
theorem Pins.offered_command (p : Pins) :
    (if p.offers.abort then [encode .abort] else []) ++ p.offers.command.elim [] (fun c => [encode c.toInstr]) =
      if p.cmdValid then [encode p.command] else [] := by
  cases hv : p.cmdValid with
  | false => simp [Pins.offers, hv]
  | true =>
    rcases commandCode_cases p.cmd with hc | hc | hc | hc <;>
      simp [Pins.offers, Pins.command, HostCommand.toInstr, hv, hc]

theorem Pins.offered_rx (p : Pins) :
    p.offers.rx.elim [] (fun b => [rxRecord b]) = if p.rxValid then [rxRecord p.rxData] else [] := by
  cases hv : p.rxValid <;> simp [Pins.offers, hv]

/-- The offers of the pins, taken in order. -/
theorem Pins.taken_in_order (p : Pins) : OffersAs p.offers.records fun s =>
    andThen (if p.rst then exec .reset s else .next s) fun s1 =>
    andThen (if p.cmdValid then exec p.command s1 else .next s1) fun s2 =>
    andThen (if p.rxValid then receive p.rxData s2 else .next s2) fun s3 =>
      if p.rxTimeout && !p.rxValid then exec .frTimeout s3 else .next s3 := by
  rw [Offers.records_eq, ← List.append_assoc (if p.offers.abort then _ else _), p.offered_command, p.offered_rx]
  exact (OffersAs.optionalEvent .reset rfl rfl p.rst).append <|
    ((OffersAs.busCommand p).optional p.cmdValid).append <| ((OffersAs.rx p.rxData).optional p.rxValid).append <|
    OffersAs.optionalEvent .frTimeout rfl rfl (p.rxTimeout && !p.rxValid)

theorem exec_reset_atCommand (p : Pins) (s : State) :
    (if p.rst then exec .reset s else .next s) = .next (p.atCommand s) := by
  unfold Pins.atCommand
  split <;> rfl

/-- Where `cmd_ready` is 1 the command on the bus takes effect (R42, R103). -/
theorem exec_command_ready {p : Pins} {s : State} (h : Machine.cmdReady p.cmd s = true) :
    exec p.command s = .next (p.takeCommand s) := by
  unfold Pins.command Pins.takeCommand
  rcases commandCode_cases p.cmd with hc | hc | hc | hc <;> rw [hc] at h ⊢
  · rfl
  · obtain ⟨hk, hready⟩ := cmdReady_loadKey.mp h
    exact execLoadKey_accepted hk hready p.cmdKey
  · exact execStart_accepted (cmdReady_start.mp h)
  · rfl

/-- Where `cmd_ready` is 0 the command on the bus is dropped (R42). -/
theorem exec_command_not_ready {p : Pins} {s : State} (h : ¬Machine.cmdReady p.cmd s = true) :
    exec p.command s = .next s := by
  unfold Pins.command
  rcases commandCode_cases p.cmd with hc | hc | hc | hc <;> rw [hc] at h ⊢
  · rfl
  · refine execLoadKey_dropped ?_ p.cmdKey
    rwa [cmdReady_loadKey, not_and_or, Bool.not_eq_false] at h
  · exact execStart_dropped (mt cmdReady_start.mpr h)
  · exact absurd rfl h

/-- After the command the receive port is tested in `atReceive`, whether the command was accepted, dropped or not offered. -/
theorem exec_command_atReceive (p : Pins) (s : State) :
    (if p.cmdValid then exec p.command (p.atCommand s) else .next (p.atCommand s)) = .next (p.atReceive s) := by
  cases hv : p.cmdValid with
  | false => simp [Pins.atReceive, hv]
  | true =>
    by_cases hready : p.cmdReady s = true
    · simpa [Pins.atReceive, hv, hready] using exec_command_ready hready
    · simpa [Pins.atReceive, hv, hready] using exec_command_not_ready hready

theorem clockEdge_eq {s : State} (p : Pins) (hP : s.params.WellFormed) : clockEdge p s =
    if p.rxValid = true ∧ p.rxReady s = true then receive p.rxData (p.atReceive s)
    else if p.rxTimeout = true ∧ p.rxValid = false ∧ p.rxReady s = true then execFrTimeout (p.atReceive s)
    else .next (p.atReceive s) := by
  rw [clockEdge, if_pos hP]
  simp only [Bool.and_eq_true, Bool.not_eq_true', and_assoc]

/-- An edge is its offers taken in order: what a ready output of 0 keeps out is what the acceptance test drops (R42, R43). -/
theorem clockEdge_eq_offerAll {s : State} (p : Pins) (hP : s.params.WellFormed) :
    clockEdge p s = offerAll p.offers.records s := by
  have horder := (p.taken_in_order s hP).1
  beta_reduce at horder
  rw [horder, exec_reset_atCommand, andThen_next, exec_command_atReceive, andThen_next, clockEdge_eq p hP]
  cases hready : p.rxReady s with
  | false =>
    have hst : (p.atReceive s).stage ≠ .framing := fun hf =>
      Bool.false_ne_true (hready.symm.trans (rxReady_iff.mpr hf))
    rw [receive_not_accepted (selectRx_not_framing hst _), ite_self, andThen_next, exec, execFrTimeout_dropped hst]
    simp
  | true =>
    cases hv : p.rxValid with
    | false => simp [exec]
    | true => simp [andThen_next_right]

/-- The acceptance of an edge's command is its valid and ready signals (R43). -/
theorem exec_command_handshake (p : Pins) (s : State) :
    (if p.cmdValid = true ∧ p.cmdReady s = true then exec p.command (p.atCommand s) else .next (p.atCommand s)) =
      .next (p.atReceive s) := by
  by_cases h : p.cmdValid = true ∧ p.cmdReady s = true
  · rw [if_pos h, ← exec_command_atReceive, if_pos h.1]
  · rw [if_neg h, Pins.atReceive, if_neg (by simpa using h)]

/-- Settles O60: the offers in order are `Offers.taken_in_order`; an edge's are `clockEdge_eq_offerAll`, and the two states on
the way are those in which the ready outputs are tested. -/
theorem simultaneousEventsAreSerialised : Obligations.SimultaneousEventsAreSerialised := by
  refine ⟨fun s o hP => ?_, fun p h => p.timeout_of_rx h, fun p s hP => ⟨clockEdge_eq_offerAll p hP, p.atCommand s,
    p.atReceive s, exec_reset_atCommand p s, exec_command_handshake p s, clockEdge_eq p hP⟩⟩
  have horder := (o.taken_in_order s hP).1
  rcases o with ⟨reset, abort, _ | c, _ | b, timeout⟩ <;> exact horder

end Sys2Proof.Machine
end

section
/-! Proofs of the statements about spec/70_reset_and_hazards.md. A loaded key is kept by each kind of operation but `RESET`
(R318); both statements are read off that. -/

namespace Sys2Proof.Machine

/-! ## A loaded key (R241, R318) -/

/-- `KEY_VALID` is 1, and `key` is what `KEY` holds. -/
def HoldsKey (key : Element Block) (s : State) : Prop :=
  s.key = key ∧ s.keyValid = true

/-- What an operation keeps where it is performed, it keeps everywhere (R42). -/
theorem performIf_keeps {p : State → Prop} {c : Prop} [Decidable c] {act : State → Res State} {s t : State} (hs : p s)
    (hact : act s = .next t → p t) (h : performIf c act s = .next t) : p t := by
  rcases performIf_eq_next.mp h with ⟨-, ht⟩ | ⟨-, rfl⟩
  · exact hact ht
  · exact hs

section
variable {key : Element Block} {s t : State} (hk : HoldsKey key s)
include hk

theorem receive_holdsKey {b : Byte} (h : receive b s = .next t) : HoldsKey key t := by
  obtain ⟨-, hkey, hvalid, -⟩ := receive_keeps h
  obtain ⟨hkey', hvalid'⟩ := hk
  exact ⟨hkey.trans hkey', hvalid.trans hvalid'⟩

/-- A FrameReader operation by itself does what the event `RX` of its byte does, or nothing. -/
theorem exec_rxOp_holdsKey {i : Instr} {b : Byte} {op : RxOp} (hi : i.rxOp = some (b, op)) (h : exec i s = .next t) :
    HoldsKey key t := by
  obtain ⟨rfl, -⟩ := rxOp_eq_some hi
  rcases exec_rxOp_eq_next hi h with rfl | hr
  · exact hk
  · exact receive_holdsKey hk hr

theorem runValidate_holdsKey (h : runValidate s = .next t) : HoldsKey key t := by
  obtain ⟨c, rfl | rfl⟩ := runValidate_eq_next h <;> exact hk

theorem runDeriveIv_holdsKey (h : runDeriveIv s = .next t) : HoldsKey key t := by
  obtain ⟨iv, rfl⟩ := runDeriveIv_eq_next h; exact hk

theorem runCtrXor_holdsKey {ks : List Block} (h : runCtrXor ks s = .next t) : HoldsKey key t := by
  obtain ⟨bs, -, rfl⟩ := runCtrXor_eq_next h; exact hk

/-- The decryption reads the key and does not take it away (R195). -/
theorem runDecrypt_holdsKey (h : runDecrypt s = .next t) : HoldsKey key t := by
  rcases runDecrypt_eq_next h with ⟨-, rfl⟩ | ⟨-, iv, bs, -, rfl⟩ <;> exact hk

theorem runExtract_holdsKey (h : runExtract s = .next t) : HoldsKey key t := by
  rcases runExtract_eq_next h with ⟨-, rfl⟩ | ⟨-, rd, rfl⟩ <;> exact hk

theorem runComplete_holdsKey (h : runComplete s = .next t) : HoldsKey key t := by
  obtain ⟨rd, -, rfl⟩ := runComplete_eq_next h; exact hk

/-- A second `LOAD_KEY` is refused: the key is write-once (R241). -/
theorem execLoadKey_holdsKey {k : Block} (h : execLoadKey k s = .next t) : HoldsKey key t := by
  have ⟨_, hvalid⟩ := hk
  rw [execLoadKey_dropped (.inl hvalid)] at h
  cases h; exact hk

/-- Every operation but `RESET` keeps a loaded key, and `KEY_VALID` with it (R300, R318). -/
theorem exec_holdsKey {i : Instr} (hi : i ≠ .reset) (h : exec i s = .next t) : HoldsKey key t := by
  cases i with
  | reset => exact absurd rfl hi
  | loadKey k => exact execLoadKey_holdsKey hk h
  | abort | nop => cases h; exact hk
  | start | frTimeout | raise =>
    simp only [exec, execStart, execFrTimeout, execRaise] at h
    exact performIf_keeps hk (fun ht => by cases ht; exact hk) h
  | frMark | frSkip | frRemark | frHdr1 | frHdr2 | frMiss | frBody | frEnd | frBadend => exact exec_rxOp_holdsKey hk rfl h
  | frame => exact receiveAll_keeps (fun _ _ _ hu hr => receive_holdsKey hu hr) hk h
  | validate => exact performIf_keeps hk (runValidate_holdsKey hk) h
  | decrypt => exact performIf_keeps hk (runDecrypt_holdsKey hk) h
  | deriveIv => exact performIf_keeps hk (runDeriveIv_holdsKey hk) h
  | ctrXor => exact performIf_keeps hk (runCtrXor_holdsKey hk) h
  | extract => exact performIf_keeps hk (runExtract_holdsKey hk) h
  | complete => exact performIf_keeps hk (runComplete_holdsKey hk) h
  | u32be => obtain ⟨v, rfl⟩ := execU32be_eq_next h; exact hk
  | mirror8 | crc16Update | crc16 | subBytes | shiftRows | mixColumns | addRoundKey | keyExpansion | aes128 | inc128
  | keystream | scaleEnergy | powerValue => cases h; exact hk

/-- `exec_holdsKey` for a step: the script is no part of the key. -/
theorem step_holdsKey (hr : ∀ rest, fetch s ≠ .op .reset rest) (h : step s = .next t) : HoldsKey key t := by
  obtain ⟨-, ⟨-, rfl⟩ | ⟨rest, -, rfl⟩ | ⟨i, rest, hfetch, he⟩⟩ := step_eq_next.mp h
  · exact hk
  · exact hk
  · have hi : i ≠ .reset := by rintro rfl; exact hr rest hfetch
    exact exec_holdsKey (s := { s with script := rest }) hk hi he

end

/-! ## The statements -/

/-- `RESET` has no acceptance test, and `resetCore` writes every element of R35 with its reset value. -/
theorem exec_reset (s : State) : exec .reset s = .next
    { State.reset with params := s.params, script := s.script, results := s.results, value := s.value } := rfl

/-- Settles O2: `RESET` by its equation; an operation that is not `RESET` would keep the key that was loaded. -/
theorem resetEventRestoresResetState : Obligations.ResetEventRestoresResetState := by
  refine ⟨exec_reset, fun i s t h hvalid hcleared => ?_⟩
  by_contra hi
  obtain ⟨-, hkept⟩ := exec_holdsKey ⟨rfl, hvalid⟩ hi h
  exact Bool.false_ne_true (hcleared.symm.trans hkept)

/-- Settles O55: the key that `KEY` holds before the step is the key held after it. -/
theorem keyIsConstantUntilReset : Obligations.KeyIsConstantUntilReset :=
  fun _ _ hvalid hstep hr => step_holdsKey ⟨rfl, hvalid⟩ hr hstep

end Sys2Proof.Machine
end
